-- ==== Sys2Proof/Word.lean ====
section
/-! DEFINITION. The widths of spec/00_scope.md R4 as types, bit-strings (R8), and the two list
builders every store of fixed size is made with. -/

namespace Sys2Proof

/-- One element of SYM, BIT or ART: 8 bits (20_memory.md R61). -/
abbrev Byte := BitVec 8

/-- A Symbol: SYM_W = 8 bits, compared by unsigned value (R4, R6). -/
abbrev Symbol := BitVec 8

/-- A control register, or an FT count of FREQ_W = 32 bits (R4, R21, R103). -/
abbrev Word := BitVec 32

/-- An index of the TREE store, or NIL: 9 bits (R33, R4). -/
abbrev NodeIdx := BitVec 9

/-- The packed node record a host reads from TREE: 64 bits (R104). -/
abbrev Packed := BitVec 64

/-- A bit-string, its first element nearest the root and first on the wire (R8, R95). -/
abbrev Code := List Bool

/-- The fixed-size store whose element at index `k` is `f k`. -/
def tabulate {α : Type} (n : Nat) (f : Nat → α) : Vector α n :=
  ⟨((List.range n).map f).toArray, by simp⟩

/-- Every symbol once, in ascending unsigned order (R6). -/
def allSymbols : List Symbol := (List.range 256).map (BitVec.ofNat 8)

end Sys2Proof
end

