-- ==== Sys2Proof/Config.lean ====
section
/-! DEFINITION. The fixed parameters of spec/00_scope.md R4, the open parameters of R5, and the free
values of the buffers' unwritten elements (10_state.md R43, 93_implementation_defined.md U10). -/

namespace Sys2Proof

/-- The three byte buffers (10_state.md R37 to R39). -/
inductive Buffer where
  | sym
  | bit
  | art
  deriving DecidableEq, Repr

/-- The open parameters of R5 that a rule reads. PORT_BINDING is the fourth: no rule depends on it. -/
structure Params where
  symCap : Nat
  bitCap : Nat
  artCap : Nat
  deriving DecidableEq, Repr

namespace Config

/-- FREQ_W counts are below this bound (R4). -/
def freqBound : Nat := 2 ^ 32

/-- NODE_CAP (R4). -/
def nodeCap : Nat := 511

/-- NIL, the "no node" value of a 9-bit index (R4). -/
def nil : NodeIdx := 0x1FF

/-- CODE_MAX (R4). -/
def codeMax : Nat := 255

/-- The values of SYM_CAP, BIT_CAP and ART_CAP that R5 uses in 95_test_vectors.md.
DESIGN CHOICE (log 3): State.reset carries them; the claims hold for every legal choice. -/
def vectorParams : Params := { symCap := 4096, bitCap := 32768, artCap := 65536 }

/-- FREE VALUE (log 4): what an element that nothing has written since reset number `epoch` reads as.
It has no body: R43 says each such element "holds some value of its width, not necessarily the same
after two resets". -/
opaque powerOn : (epoch : Nat) → Buffer → (index : Nat) → Byte

end Config

/-- The capacity of a buffer (R5). -/
def Params.cap (p : Params) : Buffer → Nat
  | .sym => p.symCap
  | .bit => p.bitCap
  | .art => p.artCap

end Sys2Proof
end

