-- ==== Sys2Proof/Syntax.lean ====
section
/-! DEFINITION. The eight commands of spec/30_encoding.md R91, one constructor per row of
spec/opcode_table.json, and the host's transactions (R105). -/

namespace Sys2Proof

/-- A command. No command carries an operand, a register number or a mode bit (R90, R93). -/
inductive Instr where
  /-- FREQ: count symbol occurrences (R120). -/
  | freq
  /-- BUILD: build the merge tree of the frequency table (R130). -/
  | build
  /-- GEN: derive the code table from the tree (R150). -/
  | gen
  /-- ENC: encode the symbol sequence (R160). -/
  | enc
  /-- DECT: decode by walking the tree (R170). -/
  | dect
  /-- DECP: decode by matching prefixes against the code table (R176). -/
  | decp
  /-- SER: write the code table as the textual artifact (R190). -/
  | ser
  /-- DESER: load a code table from the textual artifact (R193). -/
  | deser
  deriving DecidableEq, Repr

/-- One host transaction, as its wire encoding (space id, index, data) of R105. The numbers are what
the host put on the wire, so they may lie outside every space or not fit the element (R64). -/
inductive Transaction where
  /-- `HRD SPACE:i` (20_memory.md R62). -/
  | hrd (space index : Nat)
  /-- `HWR SPACE:i, v` (20_memory.md R63); a command is the HWR of its word to CSR:0. -/
  | hwr (space index value : Nat)
  /-- `RESET` (70_reset_and_hazards.md R250). -/
  | reset
  deriving DecidableEq, Repr

end Sys2Proof
end

