-- ==== Sys2Proof/WellFormed.lean ====
section
/-! DEFINITION. What a well-formed command and a well-formed choice of the open parameters are. -/

namespace Sys2Proof

/-- A command holds no operand (spec/30_encoding.md R93), so there is nothing in one to be ill formed. -/
def Instr.wf : Instr → Bool
  | .freq => true
  | .build => true
  | .gen => true
  | .enc => true
  | .dect => true
  | .decp => true
  | .ser => true
  | .deser => true

/-- The constraint of spec/00_scope.md R5 on one capacity: 1 ≤ cap < 2^32. -/
def capWf (n : Nat) : Bool := decide (1 ≤ n) && decide (n < 2 ^ 32)

/-- The constraints of R5 on the three capacities. -/
def Params.wf (p : Params) : Bool := capWf p.symCap && capWf p.bitCap && capWf p.artCap

end Sys2Proof
end

