-- ==== Sys2Proof/Decode.lean ====
section
/-! DEFINITION. The command word of spec/30_encoding.md R90 and R91: the decoder, total on every
32-bit word and rejecting by name, and the encoder. -/

namespace Sys2Proof

/-- Why a word is no command (R92). -/
inductive IllegalWord where
  /-- A bit of the ZERO field [31:4] is set. -/
  | nonZeroField
  /-- The ZERO field is 0 and OP is 0x0 or 0x9 to 0xF. -/
  | reservedOp (op : BitVec 4)
  deriving DecidableEq, Repr

/-- The OP field, bits [3:0] (R90). -/
def opField (w : Word) : BitVec 4 := w.extractLsb' 0 4

/-- The ZERO field, bits [31:4] (R90). -/
def zeroField (w : Word) : BitVec 28 := w.extractLsb' 4 28

/-- The operation codes of R91. -/
def decodeOp (op : BitVec 4) : Option Instr :=
  match op.toNat with
  | 1 => some .freq
  | 2 => some .build
  | 3 => some .gen
  | 4 => some .enc
  | 5 => some .dect
  | 6 => some .decp
  | 7 => some .ser
  | 8 => some .deser
  | _ => none

/-- The decoder: the ZERO field must be 0 and OP one of the eight codes (R90 to R92). -/
def decode (w : Word) : Except IllegalWord Instr :=
  if zeroField w ≠ 0 then .error .nonZeroField
  else match decodeOp (opField w) with
    | some i => .ok i
    | none => .error (.reservedOp (opField w))

/-- The OP field of each command (R91). -/
def encodeOp : Instr → BitVec 4
  | .freq => 0x1
  | .build => 0x2
  | .gen => 0x3
  | .enc => 0x4
  | .dect => 0x5
  | .decp => 0x6
  | .ser => 0x7
  | .deser => 0x8

/-- The encoder: ZERO above OP (R90). -/
def encode (i : Instr) : Word := (0 : BitVec 28) ++ encodeOp i

/-- The instruction the decoder reads from `nbits` table bits `w`, the bits above them 0. A command is
one 32-bit element (R61, R90), so a longer value is no command word (log 9). -/
def decodeTableWord (nbits w : Nat) : Option Instr :=
  let v := w % 2 ^ nbits
  if v < 2 ^ 32 then (decode (BitVec.ofNat 32 v)).toOption else none

end Sys2Proof
end

