-- ==== Sys2Proof/Machine/State.lean ====
section
/-! DEFINITION. The state of spec/10_state.md R20 as plain data, the reasons a step can stop, and the
state after reset (R43). -/

namespace Sys2Proof.Machine

open Sys2Proof

/-- The six values STATUS.ERR takes (60_exceptions.md R221; 6 to 15 are never produced, U12). -/
inductive Err where
  | ok
  | unknownSymbolError
  | corruptStreamError
  | formatError
  | capacityError
  | illegalCommand
  deriving DecidableEq, Repr

/-- STATUS (R23): its two fields. Its reserved bits read as 0 and nothing writes them (log 7). -/
structure Status where
  err : Err
  warnEmpty : Bool
  deriving DecidableEq, Repr

/-- A node record of the TREE store (R33). -/
inductive Node where
  /-- An unused slot. -/
  | free
  /-- `Leaf(sym, freq)`. -/
  | leaf (sym : Symbol) (freq : Word)
  /-- `Internal(freq, left, right)`. -/
  | internal (freq : Word) (left right : NodeIdx)
  deriving DecidableEq, Repr

/-- FT: 256 counts indexed by symbol value (R32). -/
abbrev FreqTable := Vector Word 256

/-- TREE: 511 node records (R33). -/
abbrev TreeStore := Vector Node 511

/-- CT: 256 bit-strings indexed by symbol value, length 0 meaning absent (R35). -/
abbrev CodeTable := Vector Code 256

/-- A buffer's written elements as (index, byte) pairs, indices strictly rising. An element that is not
listed has not been written since reset: it holds no value of its own, and `State.readBuf` gives it a
free value (log 4). -/
abbrev Memory := List Host.Cell

/-- Why a host transaction is refused (20_memory.md R62 to R65): faults of the host's script, which
leave the block as it is. The spec distinguishes no reasons; the names are the model's (log 6). -/
inductive ScriptFault where
  /-- A space id of 6 or more. -/
  | noSuchSpace
  /-- An index outside the space. -/
  | indexOutOfRange
  /-- A write to STATUS, ROOT, NNODES or TREE. -/
  | readOnly
  /-- A value that does not fit the element width. -/
  | valueTooWide
  /-- A length register written above its buffer's capacity (R65). -/
  | lengthBeyondCapacity
  deriving DecidableEq, Repr

/-- What the interface answers a transaction with (R62 to R64). -/
inductive Response where
  /-- A write, a command or a reset has completed. -/
  | done
  /-- The element read from SYM, BIT or ART. -/
  | byte (v : Byte)
  /-- The element read from CSR or FT. -/
  | word (v : Word)
  /-- The packed record read from TREE. -/
  | packed (v : Packed)
  /-- The transaction was refused and returned no data (R64). -/
  | refused (why : ScriptFault)
  deriving DecidableEq, Repr

/-- The state: R20's registers and stores, then the model's own fields. CMD holds no value (R22). -/
structure State where
  /-- STATUS, CSR 1 (R23). -/
  status : Status
  /-- SYMLEN, CSR 2 (R24). -/
  symlen : Word
  /-- BITLEN, CSR 3 (R25). -/
  bitlen : Word
  /-- ARTLEN, CSR 4 (R26). -/
  artlen : Word
  /-- ROOT, CSR 5, its bits [8:0] (R27). -/
  root : NodeIdx
  /-- NNODES, CSR 6, its bits [8:0] (R28). -/
  nnodes : BitVec 9
  /-- FT (R32). -/
  ft : FreqTable
  /-- TREE (R33). -/
  tree : TreeStore
  /-- CT (R35). -/
  ct : CodeTable
  /-- SYM (R37). -/
  sym : Memory
  /-- BIT (R38). -/
  bit : Memory
  /-- ART (R39). -/
  art : Memory
  /-- The open parameters of 00_scope.md R5; no step changes them (log 3). -/
  params : Params
  /-- How many RESET transactions have been performed: the argument of the free values (log 4). -/
  epoch : Nat
  /-- The transactions the host has still to issue, next first (log 1). -/
  script : List Transaction
  /-- The responses of the transactions issued so far, oldest first (log 2). -/
  responses : List Response
  deriving DecidableEq, Repr

/-- No behaviour of this hardware stops it: "there is no behaviour in this spec with treatment
`stuck`" (93_implementation_defined.md part 1; 60_exceptions.md R235). So no step faults (log 10). -/
inductive Fault where
  deriving DecidableEq, Repr

/-- The reasons exec may refuse an instruction. -/
inductive Refusal where
  /-- Raised by exec for an instruction that has no meaning yet. Safe: the machine stops. No arm raises it. -/
  | notModelled (mnemonic : String)
  deriving DecidableEq, Repr

/-- The machine right after reset (R43, R250); the model's own fields as log 1 to 4 say. -/
def State.reset : State where
  status := { err := .ok, warnEmpty := false }
  symlen := 0
  bitlen := 0
  artlen := 0
  root := Config.nil
  nnodes := 0
  ft := Vector.replicate 256 0
  tree := Vector.replicate 511 .free
  ct := Vector.replicate 256 []
  sym := []
  bit := []
  art := []
  params := Config.vectorParams
  epoch := 0
  script := []
  responses := []

end Sys2Proof.Machine
end

