-- ==== Sys2Proof/Machine/Flags.lean ====
section
/-! DEFINITION. Every value a command leaves in STATUS (spec/10_state.md R23, 60_exceptions.md R221)
and the word a host reads from it. -/

namespace Sys2Proof.Machine

open Sys2Proof

/-- The numbers of the error codes (R221). -/
def Err.code : Err → BitVec 4
  | .ok => 0
  | .unknownSymbolError => 1
  | .corruptStreamError => 2
  | .formatError => 3
  | .capacityError => 4
  | .illegalCommand => 5

/-- STATUS of a command that committed its result: ERR = OK, WARN_EMPTY = 0. -/
def Status.success : Status := { err := .ok, warnEmpty := false }

/-- STATUS of a command that raised `e`: WARN_EMPTY = 0 (R232). -/
def Status.failure (e : Err) : Status := { err := e, warnEmpty := false }

/-- STATUS after FREQ: the warning is set exactly when the input is empty (R120, R122). -/
def Status.frequency (symlen : Word) : Status := { err := .ok, warnEmpty := decide (symlen = 0) }

/-- The 32-bit word read from CSR:1: reserved [31:5] as 0, WARN_EMPTY [4], ERR [3:0] (R23). -/
def Status.word (st : Status) : Word :=
  (0 : BitVec 27) ++ BitVec.ofBool st.warnEmpty ++ st.err.code

end Sys2Proof.Machine
end

