-- ==== Sys2Proof/Machine/Ops.lean ====
section
/-! DEFINITION. The named operations over the stores and registers, raising an error and committing a
result (spec/10_state.md, spec/20_memory.md, spec/60_exceptions.md R232). -/

namespace Sys2Proof.Machine

open Sys2Proof

/-- The canonical form of a buffer: indices strictly rising. An unlisted element reads as "no value",
which no entry can be, so the form asks nothing more (log 4). -/
abbrev Memory.wf (m : Memory) : Prop := m.Pairwise (fun c d => c.1 < d.1)

/-- The byte written at `a`, or nothing where no write has reached `a` since reset. -/
def Memory.read? : Memory → Nat → Option Byte
  | [], _ => none
  | (k, v) :: m, a => if k = a then some v else Memory.read? m a

/-- Writes one byte, keeping the canonical form. -/
def Memory.write : Memory → Nat → Byte → Memory
  | [], a, v => [(a, v)]
  | (k, w) :: m, a, v =>
    if a < k then (a, v) :: (k, w) :: m
    else if a = k then (a, v) :: m
    else (k, w) :: Memory.write m a v

/-- Writes a sequence at ascending indices from `a` (R66: sequence order is index order). -/
def Memory.writeSeq : Memory → Nat → List Byte → Memory
  | m, _, [] => m
  | m, a, b :: bs => Memory.writeSeq (m.write a b) (a + 1) bs

/-- The buffer's memory. -/
def State.buffer (s : State) : Buffer → Memory
  | .sym => s.sym
  | .bit => s.bit
  | .art => s.art

/-- The buffer's length register (R24 to R26). -/
def State.len (s : State) : Buffer → Word
  | .sym => s.symlen
  | .bit => s.bitlen
  | .art => s.artlen

/-- Replaces the buffer's memory. -/
def State.setBuffer (s : State) (b : Buffer) (m : Memory) : State :=
  match b with
  | .sym => { s with sym := m }
  | .bit => { s with bit := m }
  | .art => { s with art := m }

/-- Replaces the buffer's length register. -/
def State.setLen (s : State) (b : Buffer) (n : Word) : State :=
  match b with
  | .sym => { s with symlen := n }
  | .bit => { s with bitlen := n }
  | .art => { s with artlen := n }

/-- `MemRead(BUFFER:i, 1)`: the value written at `i`, or the free value of an element that nothing has
written since reset (R9, R43, R62). -/
def State.readBuf (s : State) (b : Buffer) (i : Nat) : Byte :=
  ((s.buffer b).read? i).getD (Config.powerOn s.epoch b i)

/-- `FT[x]` (R32). -/
def countOf (t : FreqTable) (x : Symbol) : Word := t[x.toNat]'x.isLt

/-- `FT[x] <- v`. -/
def setCount (t : FreqTable) (x : Symbol) (v : Word) : FreqTable := t.set x.toNat v x.isLt

/-- `CT[x]` (R35). -/
def codeOf (t : CodeTable) (x : Symbol) : Code := t[x.toNat]'x.isLt

/-- `T[x] <- c`. -/
def setCode (t : CodeTable) (x : Symbol) (c : Code) : CodeTable := t.set x.toNat c x.isLt

/-- The record in slot `k`. There are 511 slots; the model reads any other number as Free (log 11). -/
def slot (t : TreeStore) (k : Nat) : Node := t[k]?.getD .free

/-- `node[k]` (R33). NIL names no record (log 11). -/
def nodeAt (t : TreeStore) (k : NodeIdx) : Node := slot t k.toNat

/-- `node[k].left`: a Leaf owns no children and a Free record's fields read 0 (R33, R104). -/
def Node.left : Node → NodeIdx
  | .free => 0
  | .leaf _ _ => Config.nil
  | .internal _ l _ => l

/-- `node[k].right` (R33, R104). -/
def Node.right : Node → NodeIdx
  | .free => 0
  | .leaf _ _ => Config.nil
  | .internal _ _ r => r

/-- `node[k].freq` (R33, R104). -/
def Node.freq : Node → Word
  | .free => 0
  | .leaf _ f => f
  | .internal f _ _ => f

/-- `raise e`: STATUS takes the error's code and nothing else changes (R232). There is no saved state,
no vector and no return (R234). -/
def raise (e : Err) (s : State) : State := { s with status := Status.failure e }

/-- FREQ's commit: FT is replaced whole, then STATUS (R42, R77, R120). -/
def commitFreq (t : FreqTable) (s : State) : State :=
  { s with ft := t, status := Status.frequency s.symlen }

/-- BUILD's commit: the records `nodes` from slot 0 up and Free above them, ROOT the last record or
NIL, NNODES their number, then STATUS (R130, R136). -/
def commitTree (nodes : List Node) (s : State) : State :=
  { s with
    tree := tabulate 511 (fun k => nodes.getD k .free)
    root := if nodes.isEmpty then Config.nil else BitVec.ofNat 9 (nodes.length - 1)
    nnodes := BitVec.ofNat 9 nodes.length
    status := Status.success }

/-- GEN's and DESER's commit: CT is replaced whole, then STATUS (R42, R77). -/
def commitCodes (t : CodeTable) (s : State) : State :=
  { s with ct := t, status := Status.success }

/-- The commit of an output of `n` bytes to a buffer: indices 0 to n − 1 are written, the length
register becomes `n`, the tail stays as it was, then STATUS (R77, R78). -/
def commitBuffer (b : Buffer) (out : List Byte) (s : State) : State :=
  { (s.setBuffer b ((s.buffer b).writeSeq 0 out)).setLen b (BitVec.ofNat 32 out.length) with
    status := Status.success }

/-- How every command ends: it raises its error, or commits its result at one point (R77, R232). -/
def conclude {α : Type} (r : Except Err α) (commit : α → State → State) (s : State) :
    Host.Outcome State Fault Refusal :=
  match r with
  | .error e => .next (raise e s)
  | .ok a => .next (commit a s)

/-- The response of a transaction is added to the transcript (R62 to R64). -/
def respond (r : Response) (s : State) : State := { s with responses := s.responses ++ [r] }

/-- RESET: every piece of architectural state takes its value of R43; the buffers' contents become
unspecified anew. The parameters, the script and the transcript are not the block's (R250). -/
def resetBlock (s : State) : State :=
  { State.reset with
    params := s.params
    epoch := s.epoch + 1
    script := s.script
    responses := s.responses }

end Sys2Proof.Machine
end

