-- ==== Sys2Proof/Machine/Operands.lean ====
section
/-! DEFINITION. The operand forms: the implicit inputs of the commands (spec/30_encoding.md R93,
20_memory.md R76) and the store element formats (R97, R99, R104). -/

namespace Sys2Proof.Machine

open Sys2Proof

/-- The valid elements of a buffer, in index order: the only ones a command reads (R76). -/
def State.window (s : State) (b : Buffer) : List Byte :=
  (List.range (s.len b).toNat).map (s.readBuf b)

/-- The byte of a bit in the textual bitstream and in the artifact: `0` or `1` (R97, R99). -/
def bitByte (v : Bool) : Byte := if v then 0x31 else 0x30

/-- The bit a byte stands for, or nothing for a byte that is neither `0` nor `1` (R97, R175). -/
def byteBit (b : Byte) : Option Bool :=
  if b = 0x30 then some false else if b = 0x31 then some true else none

/-- The byte `:` (R99). -/
def colon : Byte := 0x3A

/-- The line feed byte (R99). -/
def lineFeed : Byte := 0x0A

/-- One artifact entry `<symbol>:<bitstring>\n`, |c| + 3 bytes (R99). -/
def entryBytes (x : Symbol) (c : Code) : List Byte :=
  x :: colon :: (c.map bitByte ++ [lineFeed])

/-- The packed node record: freq [63:32], kind [31:30], left [29:21], right [20:12], zero [11:8],
sym [7:0] (R104). -/
def Node.pack : Node → Packed
  | .free => 0
  | .leaf x f => f ++ (1 : BitVec 2) ++ Config.nil ++ Config.nil ++ (0 : BitVec 4) ++ x
  | .internal f l r => f ++ (2 : BitVec 2) ++ l ++ r ++ (0 : BitVec 4) ++ (0 : BitVec 8)

/-- The largest index of each space is one below this (R60). -/
def bufferOfSpace : Nat → Option Buffer
  | 1 => some .sym
  | 2 => some .bit
  | 3 => some .art
  | _ => none

end Sys2Proof.Machine
end

