-- ==== Sys2Proof/Machine/CodeGenerator.lean ====
section
/-! DEFINITION. The code generator (spec/42_code_generator.md). -/

namespace Sys2Proof.Machine

open Sys2Proof

/-- The table with every entry absent. -/
def emptyCodes : CodeTable := Vector.replicate 256 []

/-- GEN's loop over its work-list, a stack of (node index, path) pairs: a Leaf binds its path, any other
record pushes its right child and then its left one (R150). `visits` bounds the records popped: a tree
of R34 has at most NODE_CAP (log 8). -/
def genLoop (tree : TreeStore) : (visits : Nat) → List (NodeIdx × Code) → CodeTable → CodeTable
  | 0, _, t => t
  | _ + 1, [], t => t
  | visits + 1, (k, p) :: work, t =>
    match nodeAt tree k with
    | .leaf x _ => genLoop tree visits work (setCode t x p)
    | node => genLoop tree visits ((node.left, p ++ [false]) :: (node.right, p ++ [true]) :: work) t

/-- GEN's table: empty for no tree (R153), the code "0" for a lone leaf (R152), else the paths from the
root (R150, R151). -/
def genCodes (tree : TreeStore) (root : NodeIdx) : CodeTable :=
  if root = Config.nil then emptyCodes
  else match nodeAt tree root with
    | .leaf x _ => setCode emptyCodes x [false]
    | _ => genLoop tree Config.nodeCap [(root, [])] emptyCodes

/-- GEN (R150 to R156). It cannot fail. -/
def execGen (s : State) : Host.Outcome State Fault Refusal :=
  conclude (.ok (genCodes s.tree s.root)) commitCodes s

end Sys2Proof.Machine
end

