-- ==== Sys2Proof/Machine/Decoder.lean ====
section
/-! DEFINITION. The two decoders (spec/44_decoder.md). -/

namespace Sys2Proof.Machine

open Sys2Proof

/-- `emit(x)`: the symbol after number SYM_CAP raises CapacityError (R181). -/
def emit (cap : Nat) (out : List Symbol) (x : Symbol) : Except Err (List Symbol) :=
  if out.length = cap then .error .capacityError else .ok (out ++ [x])

/-- Whether a record is an unused slot. -/
def Node.isFree : Node → Bool
  | .free => true
  | _ => false

/-- DECT's loop: cursor and output so far (R170 to R175, R181). -/
def dectLoop (tree : TreeStore) (root : NodeIdx) (cap : Nat) :
    List Byte → (cur : NodeIdx) → (out : List Symbol) → Except Err (List Symbol)
  | [], cur, out => if root ≠ Config.nil ∧ cur ≠ root then .error .corruptStreamError else .ok out
  | b :: bs, cur, out =>
    match byteBit b with
    | none => .error .corruptStreamError
    | some v =>
      if root = Config.nil then .error .corruptStreamError
      else match nodeAt tree root with
        | .leaf x _ =>
          match emit cap out x with
          | .error e => .error e
          | .ok out' => dectLoop tree root cap bs cur out'
        | _ =>
          let nxt := if v then (nodeAt tree cur).right else (nodeAt tree cur).left
          if nxt = Config.nil ∨ (nodeAt tree nxt).isFree then .error .corruptStreamError
          else match nodeAt tree nxt with
            | .leaf x _ =>
              match emit cap out x with
              | .error e => .error e
              | .ok out' => dectLoop tree root cap bs root out'
            | _ => dectLoop tree root cap bs nxt out

/-- The symbol whose code the buffer is: the least one, on this hardware the only one (R176, R177). -/
def matchCode (ct : CodeTable) (buf : Code) : Option Symbol :=
  allSymbols.find? (fun x => decide ((codeOf ct x).length ≥ 1) && codeOf ct x == buf)

/-- DECP's loop: match buffer and output so far (R175 to R178, R181). -/
def decpLoop (ct : CodeTable) (cap : Nat) :
    List Byte → (buf : Code) → (out : List Symbol) → Except Err (List Symbol)
  | [], buf, out => if buf ≠ [] then .error .corruptStreamError else .ok out
  | b :: bs, buf, out =>
    match byteBit b with
    | none => .error .corruptStreamError
    | some v =>
      match matchCode ct (buf ++ [v]) with
      | some x =>
        match emit cap out x with
        | .error e => .error e
        | .ok out' => decpLoop ct cap bs [] out'
      | none => decpLoop ct cap bs (buf ++ [v]) out

/-- DECT (R170 to R175, R181). -/
def execDect (s : State) : Host.Outcome State Fault Refusal :=
  conclude (dectLoop s.tree s.root s.params.symCap (s.window .bit) s.root []) (commitBuffer .sym) s

/-- DECP (R175 to R178, R181). -/
def execDecp (s : State) : Host.Outcome State Fault Refusal :=
  conclude (decpLoop s.ct s.params.symCap (s.window .bit) [] []) (commitBuffer .sym) s

end Sys2Proof.Machine
end

