-- ==== Sys2Proof/Machine/Encoder.lean ====
section
/-! DEFINITION. The encoder (spec/43_encoder.md). -/

namespace Sys2Proof.Machine

open Sys2Proof

/-- ENC's loop: at each symbol the unknown-symbol test comes before the capacity test (R160 to R162). -/
def encLoop (ct : CodeTable) (cap : Nat) : List Symbol → Code → Except Err Code
  | [], out => .ok out
  | x :: xs, out =>
    if (codeOf ct x).length = 0 then .error .unknownSymbolError
    else if out.length + (codeOf ct x).length > cap then .error .capacityError
    else encLoop ct cap xs (out ++ codeOf ct x)

/-- ENC (R160 to R165). -/
def execEnc (s : State) : Host.Outcome State Fault Refusal :=
  conclude (encLoop s.ct s.params.bitCap (s.window .sym) [])
    (fun out => commitBuffer .bit (out.map bitByte)) s

end Sys2Proof.Machine
end

