-- ==== Sys2Proof/Machine/Frequency.lean ====
section
/-! DEFINITION. The frequency analyzer (spec/40_frequency_analyzer.md). -/

namespace Sys2Proof.Machine

open Sys2Proof

/-- One turn of FREQ's loop: `cnt[x] <- cnt[x] + 1` (R120). -/
def countSymbol (cnt : FreqTable) (x : Symbol) : FreqTable := setCount cnt x (countOf cnt x + 1)

/-- FREQ's loop over the input, from the all-zero table (R120). -/
def tally (input : List Symbol) : FreqTable := input.foldl countSymbol (Vector.replicate 256 0)

/-- FREQ (R120 to R122). It cannot fail. -/
def execFreq (s : State) : Host.Outcome State Fault Refusal :=
  conclude (.ok (tally (s.window .sym))) commitFreq s

end Sys2Proof.Machine
end

