-- ==== Sys2Proof/Machine/Serializer.lean ====
section
/-! DEFINITION. The codec artifact serializer (spec/45_artifact_serializer.md). -/

namespace Sys2Proof.Machine

open Sys2Proof

/-- SER's loop over the symbols (R190 to R192). -/
def serLoop (ct : CodeTable) (cap : Nat) : List Symbol → (out : List Byte) → Except Err (List Byte)
  | [], out => .ok out
  | x :: xs, out =>
    if (codeOf ct x).length ≥ 1 then
      if out.length + (entryBytes x (codeOf ct x)).length > cap then .error .capacityError
      else serLoop ct cap xs (out ++ entryBytes x (codeOf ct x))
    else serLoop ct cap xs out

/-- Where DESER's parser stands inside an entry (R100, R193). -/
inductive ParsePos where
  /-- At the first byte of an entry. -/
  | symbol
  /-- After the symbol byte. -/
  | colon (x : Symbol)
  /-- After the colon and the bits `c`. -/
  | bits (x : Symbol) (c : Code)
  deriving DecidableEq, Repr

/-- Cause F6: `c` equals, is a prefix of, or has as a prefix the code of an earlier entry (R194). -/
def clashes (t : CodeTable) (c : Code) : Bool :=
  allSymbols.any (fun y => decide ((codeOf t y).length ≥ 1) &&
    ((codeOf t y).isPrefixOf c || c.isPrefixOf (codeOf t y)))

/-- DESER's parser, one byte at a time, the tests of an entry in the order F1, CapacityError, F2 to F6
(R193, R194, R198; log 12). -/
def deserLoop : List Byte → ParsePos → CodeTable → Except Err CodeTable
  | [], .symbol, t => .ok t
  | [], .colon _, _ => .error .formatError
  | [], .bits _ _, _ => .error .formatError
  | b :: bs, .symbol, t => deserLoop bs (.colon b) t
  | b :: bs, .colon x, t => if b = colon then deserLoop bs (.bits x []) t else .error .formatError
  | b :: bs, .bits x c, t =>
    match byteBit b with
    | some v =>
      if c.length = Config.codeMax then .error .capacityError
      else deserLoop bs (.bits x (c ++ [v])) t
    | none =>
      if b ≠ lineFeed then .error .formatError
      else if c.length = 0 then .error .formatError
      else if (codeOf t x).length ≥ 1 then .error .formatError
      else if clashes t c then .error .formatError
      else deserLoop bs .symbol (setCode t x c)

/-- SER (R190 to R192). -/
def execSer (s : State) : Host.Outcome State Fault Refusal :=
  conclude (serLoop s.ct s.params.artCap allSymbols []) (commitBuffer .art) s

/-- DESER (R193 to R199). -/
def execDeser (s : State) : Host.Outcome State Fault Refusal :=
  conclude (deserLoop (s.window .art) .symbol emptyCodes) commitCodes s

end Sys2Proof.Machine
end

