-- ==== Sys2Proof/Machine/TreeBuilder.lean ====
section
/-! DEFINITION. The tree builder (spec/41_tree_builder.md). -/

namespace Sys2Proof.Machine

open Sys2Proof

/-- A member of the priority structure Q: a node's index with its frequency, the key of R131. -/
structure Key where
  freq : Nat
  idx : Nat
  deriving DecidableEq, Repr

/-- The order of R131: lower frequency first, and among equal frequencies lower index first. -/
def Key.before (a b : Key) : Bool :=
  decide (a.freq < b.freq) || (decide (a.freq = b.freq) && decide (a.idx < b.idx))

/-- Removes the member of Q with the least key (R130, R131; log 14). -/
def popLeast : List Key → Option (Key × List Key)
  | [] => none
  | k :: ks =>
    match popLeast ks with
    | none => some (k, [])
    | some (m, rest) => if k.before m then some (k, ks) else some (m, k :: rest)

/-- BUILD's operation-local state: the records made so far, the next index being their number, and Q. -/
structure Forest where
  nodes : List Node
  queue : List Key
  deriving DecidableEq, Repr

/-- `total(FT)`, a natural number (R32). -/
def total (t : FreqTable) : Nat := (allSymbols.map (fun x => (countOf t x).toNat)).sum

/-- The keys of the table in ascending symbol order (R32, R132). -/
def presentSymbols (t : FreqTable) : List Symbol := allSymbols.filter (fun x => countOf t x ≠ 0)

/-- Seeding: one Leaf per present symbol in ascending symbol order, numbered from 0 (R132, R134). -/
def seed (t : FreqTable) : Forest where
  nodes := (presentSymbols t).map (fun x => .leaf x (countOf t x))
  queue := (presentSymbols t).zipIdx.map (fun p => { freq := (countOf t p.1).toNat, idx := p.2 })

/-- One round: the first removed becomes `left`, the second `right`, of the new Internal record
(R130, R133, R134). With fewer than two members there is no round. -/
def mergeRound (f : Forest) : Forest :=
  match popLeast f.queue with
  | none => f
  | some (a, q) =>
    match popLeast q with
    | none => f
    | some (b, rest) =>
      { nodes := f.nodes ++
          [.internal (BitVec.ofNat 32 (a.freq + b.freq)) (BitVec.ofNat 9 a.idx) (BitVec.ofNat 9 b.idx)]
        queue := rest ++ [{ freq := a.freq + b.freq, idx := f.nodes.length }] }

/-- A number of rounds in a row (log 14). -/
def mergeRounds : Nat → Forest → Forest
  | 0, f => f
  | k + 1, f => mergeRounds k (mergeRound f)

/-- BUILD's records: CapacityError when the total does not fit (R137), else the seeds followed by the
L − 1 rounds of "while |Q| > 1" (R130). The empty table gives no record (R136). -/
def buildNodes (t : FreqTable) : Except Err (List Node) :=
  if total t ≥ Config.freqBound then .error .capacityError
  else .ok (mergeRounds ((seed t).queue.length - 1) (seed t)).nodes

/-- BUILD (R130 to R140). -/
def execBuild (s : State) : Host.Outcome State Fault Refusal :=
  conclude (buildNodes s.ft) commitTree s

end Sys2Proof.Machine
end

