-- ==== Sys2Proof/Machine/HostPort.lean ====
section
/-! DEFINITION. The host's transactions other than a command (spec/20_memory.md R60 to R65). -/

namespace Sys2Proof.Machine

open Sys2Proof

/-- The control register of a number, as a host reads it (R21, R23, R27, R28). -/
def readCsr (s : State) : Nat → Option Word
  | 0 => some 0
  | 1 => some s.status.word
  | 2 => some s.symlen
  | 3 => some s.bitlen
  | 4 => some s.artlen
  | 5 => some (s.root.setWidth 32)
  | 6 => some (s.nnodes.setWidth 32)
  | _ => none

/-- `HRD SPACE:i`: the element read, or why the access is refused (R62, R64). It changes no state. -/
def hostRead (s : State) (space i : Nat) : Except ScriptFault Response :=
  match space with
  | 0 =>
    match readCsr s i with
    | some w => .ok (.word w)
    | none => .error .indexOutOfRange
  | 4 => if i < 256 then .ok (.word (countOf s.ft (BitVec.ofNat 8 i))) else .error .indexOutOfRange
  | 5 =>
    if i < Config.nodeCap then .ok (.packed (slot s.tree i).pack)
    else .error .indexOutOfRange
  | n =>
    match bufferOfSpace n with
    | some b => if i < s.params.cap b then .ok (.byte (s.readBuf b i)) else .error .indexOutOfRange
    | none => .error .noSuchSpace

/-- A host write of a length register, within its buffer's capacity (R65). -/
def writeLen (s : State) (b : Buffer) (v : Nat) : Except ScriptFault State :=
  if v < 2 ^ 32 then
    if v ≤ s.params.cap b then .ok (s.setLen b (BitVec.ofNat 32 v)) else .error .lengthBeyondCapacity
  else .error .valueTooWide

/-- A host write to CSR. A word that fits CMD starts a command, which `step` runs; the register itself
stores nothing (R21, R22, R63). -/
def writeCsr (s : State) (i v : Nat) : Except ScriptFault State :=
  match i with
  | 0 => if v < 2 ^ 32 then .ok s else .error .valueTooWide
  | 1 => .error .readOnly
  | 2 => writeLen s .sym v
  | 3 => writeLen s .bit v
  | 4 => writeLen s .art v
  | 5 => .error .readOnly
  | 6 => .error .readOnly
  | _ => .error .indexOutOfRange

/-- A host write of one buffer element (R63). -/
def writeElement (s : State) (b : Buffer) (i v : Nat) : Except ScriptFault State :=
  if i < s.params.cap b then
    if v < 256 then .ok (s.setBuffer b ((s.buffer b).write i (BitVec.ofNat 8 v)))
    else .error .valueTooWide
  else .error .indexOutOfRange

/-- A host write of one FT entry (R63, R103). -/
def writeCount (s : State) (i v : Nat) : Except ScriptFault State :=
  if i < 256 then
    if v < 2 ^ 32 then .ok { s with ft := setCount s.ft (BitVec.ofNat 8 i) (BitVec.ofNat 32 v) }
    else .error .valueTooWide
  else .error .indexOutOfRange

/-- `HWR SPACE:i, v` to anything but CMD: the state after it, or why it is refused (R63, R64). -/
def hostWrite (s : State) (space i v : Nat) : Except ScriptFault State :=
  match space with
  | 0 => writeCsr s i v
  | 4 => writeCount s i v
  | 5 => if i < Config.nodeCap then .error .readOnly else .error .indexOutOfRange
  | n =>
    match bufferOfSpace n with
    | some b => writeElement s b i v
    | none => .error .noSuchSpace

/-- The command word a transaction writes to CMD, if it is such a write (R22, R63). -/
def commandWord : Transaction → Option Word
  | .hwr 0 0 v => if v < 2 ^ 32 then some (BitVec.ofNat 32 v) else none
  | _ => none

/-- The write of word `w` to CSR:0, `CMD` in a script (R105). -/
def commandWrite (w : Word) : Transaction := .hwr 0 0 w.toNat

/-- A transaction that is no command: its effect on the block, and its response (R62 to R65, R250). A
refused one changes nothing but the transcript. -/
def hostAccess (t : Transaction) (s : State) : State :=
  match t with
  | .hrd space i =>
    match hostRead s space i with
    | .ok r => respond r s
    | .error why => respond (.refused why) s
  | .hwr space i v =>
    match hostWrite s space i v with
    | .ok s' => respond .done s'
    | .error why => respond (.refused why) s
  | .reset => respond .done (resetBlock s)

/-- The host has issued the first transaction of its script. -/
def takeTransaction (rest : List Transaction) (s : State) : State := { s with script := rest }

/-- A word that is no command: IllegalCommand (R92, R226). -/
def illegalCommand (s : State) : State := respond .done (raise .illegalCommand s)

/-- The CMD write completes when its command has completed (R22). -/
def complete (o : Host.Outcome State Fault Refusal) : Host.Outcome State Fault Refusal :=
  match o with
  | .next s => .next (respond .done s)
  | .fault r => .fault r
  | .refused r => .refused r

/-- Puts a write of the word at the head of the host's script. -/
def issueFirst (t : Transaction) (s : State) : State := { s with script := t :: s.script }

end Sys2Proof.Machine
end

