-- ==== Sys2Proof/Machine/Step.lean ====
section
/-! DEFINITION. One step of the machine: the host's next transaction, whole (spec/20_memory.md R68,
R71; log 1). -/

namespace Sys2Proof.Machine

open Sys2Proof

/-- One transaction. A write to CMD runs the command its word encodes, completely, before it completes
(R22, R63), or is IllegalCommand (R92); every other transaction is a host access. With nothing to issue
the block "holds its state and does nothing" (60_exceptions.md R242). -/
def step (s : State) : Host.Outcome State Fault Refusal :=
  match s.script with
  | [] => .next s
  | t :: rest =>
    match commandWord t with
    | none => .next (hostAccess t (takeTransaction rest s))
    | some w =>
      match decode w with
      | .ok i => complete (exec i (takeTransaction rest s))
      | .error _ => .next (illegalCommand (takeTransaction rest s))

/-- `s` with the write of the word `w` (its low `nbits` bits) to CMD as the host's next transaction, so
that the very next step runs it (log 1, 9). -/
def State.withFetchWord (s : State) (nbits w : Nat) : State :=
  issueFirst (.hwr 0 0 (w % 2 ^ nbits)) s

end Sys2Proof.Machine
end

