-- ==== Sys2Proof/Machine/Script.lean ====
section
/-! DEFINITION. The pseudo-commands of spec/30_encoding.md R106 as the host's scripts. -/

namespace Sys2Proof.Machine

open Sys2Proof

/-- `CMD <mnemonic>` (R105). -/
def cmd (i : Instr) : Transaction := commandWrite (encode i)

/-- `HRD STATUS` (R105). -/
def readStatus : Transaction := .hrd 0 1

/-- One HWR per byte at ascending indices from 0, then the length (R106). -/
def loadBuffer (space lenReg : Nat) (bytes : List Byte) : List Transaction :=
  bytes.zipIdx.map (fun p => .hwr space p.2 p.1.toNat) ++ [.hwr 0 lenReg bytes.length]

/-- `LDSYM` (R106). -/
def ldsym (text : List Symbol) : List Transaction := loadBuffer 1 2 text

/-- `LDBIT` (R106). -/
def ldbit (bits : Code) : List Transaction := loadBuffer 2 3 (bits.map bitByte)

/-- `LDART` (R106). -/
def ldart (bytes : List Byte) : List Transaction := loadBuffer 3 4 bytes

/-- The commands of `ENCODE`, in order (R106, R254). -/
def encodeSequence : List Instr := [.freq, .build, .gen, .enc, .ser]

/-- The commands of `DECODE`, in order (R106, R255). -/
def decodeSequence : List Instr := [.deser, .decp]

/-- The host issues each command and reads STATUS after it, "stopping at the first non-zero ERR"
(R106). The host's own script is set aside while the pseudo-command runs (log 13). -/
def runChecked : List Instr → State → Host.Outcome State Fault Refusal
  | [], s => .next s
  | i :: is, s =>
    match step (issueFirst (cmd i) s) with
    | .fault r => .fault r
    | .refused r => .refused r
    | .next s₁ =>
      match step (issueFirst readStatus s₁) with
      | .fault r => .fault r
      | .refused r => .refused r
      | .next s₂ => if s₂.status.err = .ok then runChecked is s₂ else .next s₂

end Sys2Proof.Machine
end

