-- ==== Sys2Proof/Safety.lean ====
section
/-! DEFINITION. The terms claims use: the invariants of spec/10_state.md R34, R36 and R44, which host
accesses are accepted (20_memory.md R62 to R65), and the notions the command rules are stated in:
paths in a tree, codes of a sequence, entries of an artifact. -/

namespace Sys2Proof.Machine

open Sys2Proof

/-! Ranges -/

/-- The range invariants of R44 with R5's constraints: lengths within capacity, buffers in canonical
form and holding no element outside their indices. -/
structure RangesHold (s : State) : Prop where
  params : s.params.wf = true
  lens : ∀ b : Buffer, (s.len b).toNat ≤ s.params.cap b
  canonical : ∀ b : Buffer, (s.buffer b).wf
  inside : ∀ b : Buffer, ∀ c ∈ s.buffer b, c.1 < s.params.cap b

/-! The tree (R34) -/

/-- Whether a record is a Leaf. -/
def Node.isLeaf : Node → Bool
  | .leaf _ _ => true
  | _ => false

/-- Whether a record is an Internal one. -/
def Node.isInternal : Node → Bool
  | .internal _ _ _ => true
  | _ => false

/-- The `sym` field, 0 where the record has none (R104). -/
def Node.sym : Node → Symbol
  | .leaf x _ => x
  | _ => 0

/-- The Internal records of slots below `bound` that have slot `j` as a child. -/
def parentsBelow (t : TreeStore) (bound j : Nat) : List Nat :=
  (List.range bound).filter (fun k => (slot t k).isInternal &&
    (decide ((slot t k).left.toNat = j) || decide ((slot t k).right.toNat = j)))

/-- *no tree* (R34). -/
abbrev NoTree (t : TreeStore) (root : NodeIdx) (nnodes : BitVec 9) : Prop :=
  root = Config.nil ∧ nnodes = 0 ∧ ∀ k < 511, slot t k = .free

/-- *lone leaf* (R34). -/
abbrev LoneLeaf (t : TreeStore) (root : NodeIdx) (nnodes : BitVec 9) : Prop :=
  root = 0 ∧ nnodes = 1 ∧ (slot t 0).isLeaf = true ∧ 1 ≤ (slot t 0).freq.toNat ∧
    ∀ k < 511, 1 ≤ k → slot t k = .free

/-- *proper tree with L leaves* (R34), clause by clause. -/
abbrev ProperTree (t : TreeStore) (root : NodeIdx) (nnodes : BitVec 9) (leaves : Nat) : Prop :=
  2 ≤ leaves ∧ leaves ≤ 256 ∧ nnodes.toNat = 2 * leaves - 1 ∧ root.toNat = 2 * leaves - 2 ∧
  (∀ k < leaves, (slot t k).isLeaf = true ∧ 1 ≤ (slot t k).freq.toNat) ∧
  (∀ j < leaves, ∀ i < j, (slot t i).sym.toNat < (slot t j).sym.toNat) ∧
  (∀ k < 2 * leaves - 1, leaves ≤ k →
    (slot t k).isInternal = true ∧ (slot t k).left.toNat < k ∧ (slot t k).right.toNat < k ∧
    (slot t k).left ≠ (slot t k).right ∧
    (slot t k).freq.toNat =
      (nodeAt t (slot t k).left).freq.toNat + (nodeAt t (slot t k).right).freq.toNat) ∧
  (∀ j < 2 * leaves - 2, (parentsBelow t 511 j).length = 1) ∧
  parentsBelow t 511 (2 * leaves - 2) = [] ∧
  ∀ k < 511, 2 * leaves - 1 ≤ k → slot t k = .free

/-- The tree invariant: one of the three shapes (R34). -/
abbrev TreeShape (t : TreeStore) (root : NodeIdx) (nnodes : BitVec 9) : Prop :=
  NoTree t root nnodes ∨ LoneLeaf t root nnodes ∨
    ProperTree t root nnodes ((nnodes.toNat + 1) / 2)

/-- `c` is the sequence of branch labels on the path from record `k` down to record `m`: 0 to a left
child, 1 to a right one, through Internal records only (R151). -/
inductive PathTo (t : TreeStore) : NodeIdx → Code → NodeIdx → Prop where
  | here (k : NodeIdx) : PathTo t k [] k
  | left {k m : NodeIdx} {c : Code} (inner : (nodeAt t k).isInternal = true)
      (rest : PathTo t (nodeAt t k).left c m) : PathTo t k (false :: c) m
  | right {k m : NodeIdx} {c : Code} (inner : (nodeAt t k).isInternal = true)
      (rest : PathTo t (nodeAt t k).right c m) : PathTo t k (true :: c) m

/-- `c` leads from the root to a Leaf of symbol `x`. -/
def LeafPath (t : TreeStore) (root : NodeIdx) (x : Symbol) (c : Code) : Prop :=
  ∃ k f, PathTo t root c k ∧ nodeAt t k = .leaf x f

/-- Record `j` is still in Q when record `k` is made: made before it, and no child of a record made
before it (R130). -/
abbrev Available (t : TreeStore) (k j : Nat) : Prop := j < k ∧ parentsBelow t k j = []

/-- The order of R131 on the records of the tree: frequency, then index. -/
abbrev KeyBefore (t : TreeStore) (a b : Nat) : Prop :=
  (slot t a).freq.toNat < (slot t b).freq.toNat ∨
    ((slot t a).freq.toNat = (slot t b).freq.toNat ∧ a < b)

/-- The sum of the frequencies of all Internal records (R156 (f)). -/
def internalSum (t : TreeStore) : Nat :=
  ((List.range 511).map (fun k => if (slot t k).isInternal then (slot t k).freq.toNat else 0)).sum

/-! The code table (R36) -/

/-- The code table invariant: every present code has at most 255 bits, and no present code is a prefix
of the code of another symbol, nor equal to it (R36). -/
structure CodesHold (t : CodeTable) : Prop where
  short : ∀ x : Symbol, (codeOf t x).length ≤ 255
  distinct : ∀ x y : Symbol, x ≠ y → codeOf t x ≠ [] → codeOf t x ≠ codeOf t y
  prefixFree : ∀ x y : Symbol, x ≠ y → codeOf t x ≠ [] → ¬ codeOf t x <+: codeOf t y

/-- `xs` lists the present symbols of the table, each once, in ascending order. -/
abbrev ListsPresent (t : CodeTable) (xs : List Symbol) : Prop :=
  xs.Pairwise (fun x y => x.toNat < y.toNat) ∧ ∀ x : Symbol, x ∈ xs ↔ codeOf t x ≠ []

/-- `xs` lists the keys of the frequency table, each once, in ascending order (R32). -/
abbrev ListsKeys (t : FreqTable) (xs : List Symbol) : Prop :=
  xs.Pairwise (fun x y => x.toNat < y.toNat) ∧ ∀ x : Symbol, x ∈ xs ↔ countOf t x ≠ 0

/-- The concatenated codes of a sequence of symbols (R160). -/
def codesOf (t : CodeTable) (xs : List Symbol) : Code := xs.flatMap (codeOf t)

/-! The artifact (R99, R193, R194) -/

/-- A list of artifact entries, in order. -/
abbrev Entries := List (Symbol × Code)

/-- The bytes of the entries (R99). -/
def entriesBytes (es : Entries) : List Byte := es.flatMap (fun e => entryBytes e.1 e.2)

/-- Neither bit-string is a prefix of the other; in particular they differ. -/
abbrev Apart (c d : Code) : Prop := ¬ c <+: d ∧ ¬ d <+: c

/-- Entries that make a table: codes of 1 to 255 bits, each symbol once, codes pairwise apart (R193). -/
abbrev GoodEntries (es : Entries) : Prop :=
  (∀ e ∈ es, 1 ≤ e.2.length ∧ e.2.length ≤ 255) ∧
    es.Pairwise (fun e d => e.1 ≠ d.1 ∧ Apart e.2 d.2)

/-- The table holds exactly the entries. -/
abbrev HoldsEntries (t : CodeTable) (es : Entries) : Prop :=
  (∀ e ∈ es, codeOf t e.1 = e.2) ∧ ∀ x : Symbol, (∀ e ∈ es, e.1 ≠ x) → codeOf t x = []

/-- What follows the good entries `es` in a malformed artifact, by the causes of R194. -/
inductive Malformed (es : Entries) : List Byte → Prop where
  /-- F1: the artifact ends after the symbol byte. -/
  | noColonEnd (x : Symbol) : Malformed es [x]
  /-- F1: the byte after the symbol byte is not `:`. -/
  | noColon (x : Symbol) (b : Byte) (r : List Byte) (h : b ≠ 0x3A) : Malformed es (x :: b :: r)
  /-- F2: the artifact ends with no line feed. -/
  | noLineFeed (x : Symbol) (c : Code) (h : c.length ≤ 255) :
      Malformed es (x :: 0x3A :: c.map bitByte)
  /-- F3: the bitstring is followed by a byte other than line feed. -/
  | badByte (x : Symbol) (c : Code) (b : Byte) (r : List Byte) (h : c.length ≤ 255)
      (hb : b ≠ 0x30 ∧ b ≠ 0x31 ∧ b ≠ 0x0A) : Malformed es (x :: 0x3A :: (c.map bitByte ++ b :: r))
  /-- F4: the bitstring is empty. -/
  | emptyCode (x : Symbol) (r : List Byte) : Malformed es (x :: 0x3A :: 0x0A :: r)
  /-- F5: the symbol appears in an earlier entry. -/
  | symbolTwice (x : Symbol) (c : Code) (r : List Byte) (h : 1 ≤ c.length ∧ c.length ≤ 255)
      (twice : ∃ e ∈ es, e.1 = x) : Malformed es (entryBytes x c ++ r)
  /-- F6: the code equals, is a prefix of, or has as a prefix an earlier code. -/
  | codeClash (x : Symbol) (c : Code) (r : List Byte) (h : 1 ≤ c.length ∧ c.length ≤ 255)
      (clash : ∃ e ∈ es, ¬ Apart e.2 c) : Malformed es (entryBytes x c ++ r)

/-! Host accesses (R60 to R65) -/

/-- The space id of a buffer (R60). -/
def spaceId : Buffer → Nat
  | .sym => 1
  | .bit => 2
  | .art => 3

/-- The CSR number of a buffer's length register (R21). -/
def lenCsr : Buffer → Nat
  | .sym => 2
  | .bit => 3
  | .art => 4

/-- The conditions of R62, R63 and R65 under which a host transaction is performed. -/
def Accepted (p : Params) : Transaction → Prop
  | .hrd space i =>
    (space = 0 ∧ i < 7) ∨ (space = 4 ∧ i < 256) ∨ (space = 5 ∧ i < 511) ∨
      ∃ b, space = spaceId b ∧ i < p.cap b
  | .hwr space i v =>
    (space = 0 ∧ i = 0 ∧ v < 2 ^ 32) ∨
      (∃ b, space = 0 ∧ i = lenCsr b ∧ v < 2 ^ 32 ∧ v ≤ p.cap b) ∨
      (space = 4 ∧ i < 256 ∧ v < 2 ^ 32) ∨
      ∃ b, space = spaceId b ∧ i < p.cap b ∧ v < 256
  | .reset => True

/-- The transaction is the write of a command's word to CMD. -/
def IsCommand (i : Instr) (t : Transaction) : Prop := t = .hwr 0 0 (encode i).toNat

/-- The transaction is a write to CMD of any 32-bit word. -/
def IsCmdWrite (t : Transaction) : Prop := ∃ v, v < 2 ^ 32 ∧ t = .hwr 0 0 v

/-! Safe states and runs -/

/-- All that the spec promises of the state after reset and after every transaction (R34, R36, R44). -/
structure Inv (s : State) : Prop where
  ranges : RangesHold s
  treeShape : TreeShape s.tree s.root s.nnodes
  codes : CodesHold s.ct

/-- No transaction of the run so far was refused: the host's script made no fault (R64). -/
def scriptClean (s : State) : Bool :=
  s.responses.all (fun r => match r with | .refused _ => false | _ => true)

/-- The last command committed its result (R221). -/
def succeeded (s : State) : Bool := decide (s.status.err = .ok)

end Sys2Proof.Machine
end

