-- ==== Sys2Proof/Certificates/Slice0/Obligations.lean ====
section
/-! DEFINITION. The statements for the provers. Each docstring names the rule of spec/ it formalises.
In a conclusion `t = { s with f := t.f, … }` says that every field but the named ones is unchanged. -/

open Sys2Proof Sys2Proof.Machine

/-! ## Reset -/

/-- R43 (the values it gives; the buffers' unspecified contents are a free value of the model, log 4,
and no clause here speaks of them): what reset leaves in every register and table. -/
def Obligations.ResetLeavesEmptyValues : Prop :=
  readCsr State.reset 0 = some 0 ∧ State.reset.status.word = 0 ∧
  State.reset.symlen = 0 ∧ State.reset.bitlen = 0 ∧ State.reset.artlen = 0 ∧
  readCsr State.reset 5 = some 0x000001FF ∧ readCsr State.reset 6 = some 0 ∧
  (∀ x : Symbol, countOf State.reset.ft x = 0) ∧
  (∀ k < 511, slot State.reset.tree k = .free) ∧
  (∀ x : Symbol, codeOf State.reset.ct x = [])

/-- R250: the RESET transaction gives every register and table its reset value, from any state. The
parameters, the host's script and the transcript are the model's own (log 1 to 3). That every buffer
element then reads as unwritten is the model's choice (log 4): R250 says only that the contents are
unspecified. -/
def Obligations.ResetTransactionRestoresResetValues : Prop :=
  ∀ (s : State) (rest : List Transaction), s.script = .reset :: rest →
    ∃ t, step s = .next t ∧
      t.status = State.reset.status ∧ t.symlen = 0 ∧ t.bitlen = 0 ∧ t.artlen = 0 ∧
      t.root = Config.nil ∧ t.nnodes = 0 ∧ t.ft = State.reset.ft ∧ t.tree = State.reset.tree ∧
      t.ct = State.reset.ct ∧ (∀ b i, (t.buffer b).read? i = none) ∧
      t.params = s.params ∧ t.script = rest ∧ t.responses = s.responses ++ [.done]

/-- The invariants of R34, R36 and R44 hold of the reset state, whose capacities are the model's choice
(log 3) and whose buffers list nothing (log 4). -/
def Obligations.ResetMeetsInvariants : Prop := Inv State.reset

/-- R253: every command is defined on the reset state, with ERR = OK; FREQ gives the warning. -/
def Obligations.CommandsSucceedAfterReset : Prop :=
  ∀ i : Instr, ∃ t, exec i State.reset = .next t ∧ t.status.err = .ok ∧
    (t.status.warnEmpty = true ↔ i = .freq) ∧
    t = { State.reset with status := t.status }

/-! ## The command word -/

/-- R22, R63: a write to CMD of a word that decodes to `i` runs `i`, whole, on the state from which the
host has issued that write, and then completes with its response. The script and the transcript are the
model's choice (log 1, 2). -/
def Obligations.StepRunsDecodedCommand : Prop :=
  ∀ (s : State) (rest : List Transaction) (v : Nat) (i : Instr),
    s.script = .hwr 0 0 v :: rest → v < 2 ^ 32 → decode (BitVec.ofNat 32 v) = .ok i → i.wf = true →
    ∃ t, exec i { s with script := rest } = .next t ∧
      step s = .next { t with responses := t.responses ++ [.done] }

/-- R226 (and R92): writing a word that is none of the eight command words sets STATUS to ERR = 5,
WARN_EMPTY = 0, and changes nothing else. The script and the transcript are the model's choice
(log 1, 2). -/
def Obligations.IllegalWordOnlySetsStatus : Prop :=
  ∀ (s : State) (rest : List Transaction) (v : Nat),
    s.script = .hwr 0 0 v :: rest → v < 2 ^ 32 → (v = 0 ∨ 9 ≤ v) →
    ∃ st : Status, st.word = 0x00000005 ∧
      step s = .next { s with status := st, script := rest, responses := s.responses ++ [.done] }

/-- R91: the eight words of the opcode table decode to their commands, and some words that are none of
them (vectors H11, H12) decode to nothing. -/
def Obligations.TableWordsDecode : Prop :=
  decode 0x00000001 = .ok .freq ∧ decode 0x00000002 = .ok .build ∧ decode 0x00000003 = .ok .gen ∧
  decode 0x00000004 = .ok .enc ∧ decode 0x00000005 = .ok .dect ∧ decode 0x00000006 = .ok .decp ∧
  decode 0x00000007 = .ok .ser ∧ decode 0x00000008 = .ok .deser ∧
  decode 0x00000000 = .error (.reservedOp 0) ∧ decode 0x00000009 = .error (.reservedOp 9) ∧
  decode 0x0000000F = .error (.reservedOp 15) ∧ decode 0x00000012 = .error .nonZeroField ∧
  decode 0x80000002 = .error .nonZeroField ∧ decode 0xFFFFFFFF = .error .nonZeroField

/-- R90, R91: decoding and encoding agree in both directions, for every command and every word. -/
def Obligations.DecodeAndEncodeAgree : Prop :=
  ∀ (w : Word) (i : Instr), decode w = .ok i ↔ w = encode i

/-! ## FREQ -/

/-- R121 (and R120): after FREQ, from any state, FT[x] is the number of indices below SYMLEN that hold
`x`, so it is at least 1 exactly for the symbols that occur; the counts sum to SYMLEN; nothing but FT
and STATUS has changed. -/
def Obligations.FreqCountsOccurrences : Prop :=
  ∀ s : State, ∃ t, exec .freq s = .next t ∧
    (∀ x : Symbol, (countOf t.ft x).toNat = (s.window .sym).count x) ∧
    (∀ x : Symbol, 1 ≤ (countOf t.ft x).toNat ↔ ∃ i < s.symlen.toNat, s.readBuf .sym i = x) ∧
    (allSymbols.map (fun x => (countOf t.ft x).toNat)).sum = s.symlen.toNat ∧
    t.status.err = .ok ∧
    t = { s with ft := t.ft, status := t.status }

/-- R122: the warning is set, beside ERR = OK, by FREQ with SYMLEN = 0, which commits the empty table,
and by no other command in any state; so the next command clears it. -/
def Obligations.OnlyFreqOnEmptyInputWarns : Prop :=
  (∀ (i : Instr) (s t : State), exec i s = .next t →
    (t.status.warnEmpty = true ↔ i = .freq ∧ s.symlen = 0)) ∧
  ∀ s : State, s.symlen = 0 → ∃ t, exec .freq s = .next t ∧
    t.status.word = 0x00000010 ∧ ∀ x : Symbol, countOf t.ft x = 0

/-! ## BUILD -/

/-- R137: BUILD raises CapacityError exactly when the counts sum to 2^32 or more, and then changes
nothing but STATUS; otherwise every Internal record's frequency is the exact sum of its children's; and
after FREQ the check always passes. -/
def Obligations.BuildChecksTotalFrequency : Prop :=
  (∀ s : State, 2 ^ 32 ≤ (allSymbols.map (fun x => (countOf s.ft x).toNat)).sum →
    exec .build s = .next { s with status := { err := .capacityError, warnEmpty := false } }) ∧
  (∀ s : State, (allSymbols.map (fun x => (countOf s.ft x).toNat)).sum < 2 ^ 32 →
    ∃ t, exec .build s = .next t ∧ t.status.err = .ok ∧
      ∀ k, (slot t.tree k).isInternal = true →
        (slot t.tree k).freq.toNat =
          (nodeAt t.tree (slot t.tree k).left).freq.toNat +
            (nodeAt t.tree (slot t.tree k).right).freq.toNat) ∧
  ∀ s t u : State, exec .freq s = .next t → exec .build t = .next u → u.status.err = .ok

/-- R136: BUILD on the empty table is a success that commits no tree, and raises no warning. -/
def Obligations.BuildOfEmptyTableIsNoTree : Prop :=
  ∀ s : State, (∀ x : Symbol, countOf s.ft x = 0) → ∃ t, exec .build s = .next t ∧
    NoTree t.tree t.root t.nnodes ∧ t.status.word = 0 ∧
    t = { s with tree := t.tree, root := t.root, nnodes := t.nnodes, status := t.status }

/-- R135: with exactly one distinct symbol BUILD commits the lone leaf: node[0] the Leaf of that symbol
with its count, every other slot Free, ROOT = 0, NNODES = 1, ERR = OK. -/
def Obligations.BuildOfOneSymbolIsLoneLeaf : Prop :=
  ∀ (s : State) (x : Symbol), (∀ y : Symbol, countOf s.ft y ≠ 0 ↔ y = x) →
    ∃ t, exec .build s = .next t ∧ slot t.tree 0 = .leaf x (countOf s.ft x) ∧
      (∀ k < 511, k ≠ 0 → slot t.tree k = .free) ∧ t.root = 0 ∧ t.nnodes = 1 ∧ t.status.word = 0 ∧
      t = { s with tree := t.tree, root := t.root, nnodes := t.nnodes, status := t.status }

/-- R132: the Leaves are numbered in ascending symbol order from 0, each with its count, and there is
no other Leaf. -/
def Obligations.BuildSeedsLeavesInSymbolOrder : Prop :=
  ∀ (s : State) (xs : List Symbol), ListsKeys s.ft xs →
    (allSymbols.map (fun x => (countOf s.ft x).toNat)).sum < 2 ^ 32 →
    ∃ t, exec .build s = .next t ∧
      (∀ (k : Nat) (x : Symbol), xs[k]? = some x → slot t.tree k = .leaf x (countOf s.ft x)) ∧
      ∀ k, (slot t.tree k).isLeaf = true → k < xs.length

/-- R131, R133: the `left` child of every Internal record BUILD makes is the record of least key among
those then in Q, and its `right` child the record of least key among the rest; the key is the pair of
frequency and index. -/
def Obligations.BuildMergesTheTwoLeast : Prop :=
  ∀ s t : State, exec .build s = .next t → t.status.err = .ok →
    ∀ k, (slot t.tree k).isInternal = true →
      Available t.tree k (slot t.tree k).left.toNat ∧
      Available t.tree k (slot t.tree k).right.toNat ∧
      (slot t.tree k).left ≠ (slot t.tree k).right ∧
      ∀ j, Available t.tree k j → j ≠ (slot t.tree k).left.toNat →
        KeyBefore t.tree (slot t.tree k).left.toNat j ∧
        (j ≠ (slot t.tree k).right.toNat → KeyBefore t.tree (slot t.tree k).right.toNat j)

/-- R139 (but for the remark on optimality, on which "no rule of this spec depends"): the tree BUILD
commits for a table of L ≥ 2 keys is a proper tree with L leaves; NNODES = 2L − 1; the root's frequency
is total(FT); the Internal frequencies are non-decreasing in index order; nothing but TREE, ROOT,
NNODES and STATUS changes. -/
def Obligations.BuildMakesProperTree : Prop :=
  ∀ (s : State) (xs : List Symbol), ListsKeys s.ft xs → 2 ≤ xs.length →
    (allSymbols.map (fun x => (countOf s.ft x).toNat)).sum < 2 ^ 32 →
    ∃ t, exec .build s = .next t ∧ ProperTree t.tree t.root t.nnodes xs.length ∧
      (nodeAt t.tree t.root).freq.toNat = (allSymbols.map (fun x => (countOf s.ft x).toNat)).sum ∧
      (∀ j k, (slot t.tree j).isInternal = true → (slot t.tree k).isInternal = true → j ≤ k →
        (slot t.tree j).freq.toNat ≤ (slot t.tree k).freq.toNat) ∧
      t.status.word = 0 ∧
      t = { s with tree := t.tree, root := t.root, nnodes := t.nnodes, status := t.status }

/-! ## GEN -/

/-- R151: for a proper tree, the code GEN gives a symbol is the sequence of branch labels on the path
from ROOT to that symbol's Leaf; nothing but CT and STATUS changes. -/
def Obligations.GenCodesAreTreePaths : Prop :=
  ∀ (s : State) (leaves : Nat), ProperTree s.tree s.root s.nnodes leaves →
    ∃ t, exec .gen s = .next t ∧
      (∀ (x : Symbol) (c : Code), c ≠ [] → (codeOf t.ct x = c ↔ LeafPath s.tree s.root x c)) ∧
      t.status.word = 0 ∧ t = { s with ct := t.ct, status := t.status }

/-- R152, R153: for a lone leaf GEN commits the code "0" for its symbol and absent for every other; for
no tree it commits the empty table; both succeed. -/
def Obligations.GenOfLoneLeafAndOfNoTree : Prop :=
  (∀ s : State, LoneLeaf s.tree s.root s.nnodes → ∃ t, exec .gen s = .next t ∧
    (∀ x : Symbol, codeOf t.ct x = if x = (slot s.tree 0).sym then [false] else []) ∧
    t.status.word = 0 ∧ t = { s with ct := t.ct, status := t.status }) ∧
  ∀ s : State, s.root = Config.nil → ∃ t, exec .gen s = .next t ∧
    (∀ x : Symbol, codeOf t.ct x = []) ∧
    t.status.word = 0 ∧ t = { s with ct := t.ct, status := t.status }

/-- R156 (a) to (c): for every tree of R34, the present symbols after GEN are the Leaves' symbols, the
codes of a proper tree with L leaves have at most L − 1 bits, and the table meets the invariant of R36. -/
def Obligations.GenCodesArePrefixFree : Prop :=
  ∀ s t : State, TreeShape s.tree s.root s.nnodes → exec .gen s = .next t →
    CodesHold t.ct ∧
    (∀ x : Symbol, codeOf t.ct x ≠ [] ↔
      ∃ k < 511, (slot s.tree k).isLeaf = true ∧ (slot s.tree k).sym = x) ∧
    ∀ leaves, ProperTree s.tree s.root s.nnodes leaves →
      ∀ x : Symbol, (codeOf t.ct x).length ≤ leaves - 1

/-- R156 (d): for a proper tree the code set is complete: every infinite bit sequence has exactly one
code as a prefix. -/
def Obligations.GenCodesAreComplete : Prop :=
  ∀ (s t : State) (leaves : Nat), ProperTree s.tree s.root s.nnodes leaves → exec .gen s = .next t →
    ∀ bits : Nat → Bool, ∃! x : Symbol, codeOf t.ct x ≠ [] ∧
      ∀ i < (codeOf t.ct x).length, (codeOf t.ct x)[i]? = some (bits i)

/-- R156 (f), for a table of at least two keys (for one key the code "0" of R152 is not a path): the
weighted length of the codes is the sum of the Internal records' frequencies. -/
def Obligations.WeightedLengthIsInternalSum : Prop :=
  ∀ (s t u : State) (xs : List Symbol), ListsKeys s.ft xs → 2 ≤ xs.length →
    exec .build s = .next t → t.status.err = .ok → exec .gen t = .next u →
    (allSymbols.map (fun x => (countOf u.ft x).toNat * (codeOf u.ct x).length)).sum = internalSum u.tree

/-! ## ENC -/

/-- R165 (and R160): when every symbol has a code and the codes fit, ENC leaves the concatenated codes
in BIT, one byte `0` or `1` per bit, and their total length in BITLEN; the tail of BIT and everything
else but STATUS stay as they were. -/
def Obligations.EncConcatenatesCodes : Prop :=
  ∀ s : State, s.params.wf = true → (∀ x ∈ s.window .sym, codeOf s.ct x ≠ []) →
    (codesOf s.ct (s.window .sym)).length ≤ s.params.bitCap →
    ∃ t, exec .enc s = .next t ∧
      t.bitlen.toNat = ((s.window .sym).map (fun x => (codeOf s.ct x).length)).sum ∧
      t.window .bit = (codesOf s.ct (s.window .sym)).map (fun v => if v then 0x31 else 0x30) ∧
      (∀ a, t.bitlen.toNat ≤ a → t.readBuf .bit a = s.readBuf .bit a) ∧
      t.status.word = 0 ∧ t = { s with bit := t.bit, bitlen := t.bitlen, status := t.status }

/-- R161, R162, R231: ENC examines the symbols in index order. At the first symbol that has no code it
raises UnknownSymbolError; at the first whose code would pass BIT_CAP it raises CapacityError; either
way nothing but STATUS changes. With BIT_CAP ≥ 255·SYM_CAP there is no CapacityError. -/
def Obligations.EncReportsFirstError : Prop :=
  (∀ (s : State) (pre post : List Symbol) (x : Symbol), s.window .sym = pre ++ x :: post →
    (∀ y ∈ pre, codeOf s.ct y ≠ []) → (codesOf s.ct pre).length ≤ s.params.bitCap →
    (codeOf s.ct x = [] →
      exec .enc s = .next { s with status := { err := .unknownSymbolError, warnEmpty := false } }) ∧
    (codeOf s.ct x ≠ [] → s.params.bitCap < (codesOf s.ct (pre ++ [x])).length →
      exec .enc s = .next { s with status := { err := .capacityError, warnEmpty := false } })) ∧
  ∀ s t : State, RangesHold s → CodesHold s.ct → 255 * s.params.symCap ≤ s.params.bitCap →
    exec .enc s = .next t → t.status.err ≠ .capacityError

/-- R163: with SYMLEN = 0, BITLEN becomes 0, ERR = OK, no warning, whatever CT holds. -/
def Obligations.EncOfEmptyInput : Prop :=
  ∀ s : State, s.symlen = 0 →
    exec .enc s = .next { s with bitlen := 0, status := { err := .ok, warnEmpty := false } }

/-- R164: encoding is stateless per symbol: under a fixed table, the bitstream of `X ++ Y` is that of
`X` followed by that of `Y`. -/
def Obligations.EncOfConcatenatedInput : Prop :=
  ∀ a b c a' b' c' : State, a.params.wf = true → b.params.wf = true → c.params.wf = true →
    b.ct = a.ct → c.ct = a.ct → c.window .sym = a.window .sym ++ b.window .sym →
    exec .enc a = .next a' → exec .enc b = .next b' → exec .enc c = .next c' →
    a'.status.err = .ok → b'.status.err = .ok → c'.status.err = .ok →
    c'.window .bit = a'.window .bit ++ b'.window .bit

/-! ## DECT and DECP -/

/-- R170: on a proper tree, a bitstream made of root-to-leaf paths decodes to their Leaves' symbols, in
order; the tail of SYM and everything else but STATUS stay as they were. -/
def Obligations.DectDecodesTreePaths : Prop :=
  ∀ (s : State) (leaves : Nat) (ps : List (Symbol × Code)), s.params.wf = true →
    ProperTree s.tree s.root s.nnodes leaves → (∀ p ∈ ps, LeafPath s.tree s.root p.1 p.2) →
    s.window .bit = ps.flatMap (fun p => p.2.map bitByte) → ps.length ≤ s.params.symCap →
    ∃ t, exec .dect s = .next t ∧ t.symlen.toNat = ps.length ∧
      t.window .sym = ps.map Prod.fst ∧
      (∀ a, ps.length ≤ a → t.readBuf .sym a = s.readBuf .sym a) ∧
      t.status.word = 0 ∧ t = { s with sym := t.sym, symlen := t.symlen, status := t.status }

/-- R171: on a lone leaf every byte `0` or `1` emits its symbol and the output length equals BITLEN; a
byte that is neither raises CorruptStreamError first. -/
def Obligations.DectOfLoneLeaf : Prop :=
  ∀ (s : State) (x : Symbol) (f : Word), s.root ≠ Config.nil → nodeAt s.tree s.root = .leaf x f →
    (s.params.wf = true → (∀ b ∈ s.window .bit, b = 0x30 ∨ b = 0x31) →
      s.bitlen.toNat ≤ s.params.symCap →
      ∃ t, exec .dect s = .next t ∧ t.symlen = s.bitlen ∧
        t.window .sym = List.replicate s.bitlen.toNat x ∧ t.status.word = 0) ∧
    ∀ (pre post : List Byte) (b : Byte), s.window .bit = pre ++ b :: post →
      (∀ d ∈ pre, d = 0x30 ∨ d = 0x31) → b ≠ 0x30 → b ≠ 0x31 → pre.length ≤ s.params.symCap →
      exec .dect s = .next { s with status := { err := .corruptStreamError, warnEmpty := false } }

/-- R172: with no tree DECT succeeds with an empty output on BITLEN = 0 and raises CorruptStreamError on
BITLEN ≥ 1. -/
def Obligations.DectWithoutTree : Prop :=
  ∀ s : State, s.root = Config.nil →
    (s.bitlen = 0 →
      exec .dect s = .next { s with symlen := 0, status := { err := .ok, warnEmpty := false } }) ∧
    (s.bitlen ≠ 0 →
      exec .dect s = .next { s with status := { err := .corruptStreamError, warnEmpty := false } })

/-- R173: if the stream ends inside a code, DECT raises CorruptStreamError and the symbols decoded
before the incomplete code are not committed. -/
def Obligations.DectRejectsStreamEndingMidCode : Prop :=
  ∀ (s : State) (leaves : Nat) (ps : List (Symbol × Code)) (c : Code) (k : NodeIdx),
    ProperTree s.tree s.root s.nnodes leaves → (∀ p ∈ ps, LeafPath s.tree s.root p.1 p.2) →
    c ≠ [] → PathTo s.tree s.root c k → (nodeAt s.tree k).isInternal = true →
    s.window .bit = ps.flatMap (fun p => p.2.map bitByte) ++ c.map bitByte →
    ps.length ≤ s.params.symCap →
    exec .dect s = .next { s with status := { err := .corruptStreamError, warnEmpty := false } }

/-- R174: after any number of whole codes and any steps on, a step into a child that is NIL or Free
raises CorruptStreamError. In a proper tree no Internal record has such a child, so the first half
speaks of states that no run reaches, as the rule itself does. -/
def Obligations.DectRejectsMissingChild : Prop :=
  (∀ (s : State) (ps : List (Symbol × Code)) (c : Code) (k : NodeIdx) (v : Bool) (rest : List Byte),
    s.root ≠ Config.nil → (nodeAt s.tree s.root).isInternal = true →
    (∀ p ∈ ps, LeafPath s.tree s.root p.1 p.2) → ps.length ≤ s.params.symCap →
    PathTo s.tree s.root c k → (nodeAt s.tree k).isInternal = true →
    s.window .bit = ps.flatMap (fun p => p.2.map bitByte) ++ (c.map bitByte ++ bitByte v :: rest) →
    (let child := if v then (nodeAt s.tree k).right else (nodeAt s.tree k).left
     child = Config.nil ∨ nodeAt s.tree child = .free) →
    exec .dect s = .next { s with status := { err := .corruptStreamError, warnEmpty := false } }) ∧
  ∀ (s : State) (leaves : Nat) (k : NodeIdx), ProperTree s.tree s.root s.nnodes leaves →
    (nodeAt s.tree k).isInternal = true →
    ∀ child, child = (nodeAt s.tree k).left ∨ child = (nodeAt s.tree k).right →
      child ≠ Config.nil ∧ nodeAt s.tree child ≠ .free

/-- R175: on a byte of the window that is neither `0` nor `1` both decoders raise CorruptStreamError,
unless an earlier index has already raised an error. The only other error is CapacityError: it is the
one reported exactly when the command on the bytes before that byte alone (the same state with BITLEN
their number) raises it, which needs more than SYM_CAP of them. -/
def Obligations.DecodersRejectNonBits : Prop :=
  ∀ (s : State) (pre post : List Byte) (b : Byte) (i : Instr), i = .dect ∨ i = .decp →
    s.window .bit = pre ++ b :: post → b ≠ 0x30 → b ≠ 0x31 →
    ∃ t e, exec i { s with bitlen := BitVec.ofNat 32 pre.length } = .next t ∧
      exec i s = .next { s with status := { err := e, warnEmpty := false } } ∧
      e = (if t.status.err = .capacityError then .capacityError else .corruptStreamError) ∧
      (pre.length ≤ s.params.symCap → e = .corruptStreamError)

/-- R176: under a table of R36, a bitstream made of codes decodes to their symbols, in order; the tail
of SYM and everything else but STATUS stay as they were. -/
def Obligations.DecpDecodesCodes : Prop :=
  ∀ (s : State) (xs : List Symbol), s.params.wf = true → CodesHold s.ct →
    (∀ x ∈ xs, codeOf s.ct x ≠ []) → s.window .bit = (codesOf s.ct xs).map bitByte →
    xs.length ≤ s.params.symCap →
    ∃ t, exec .decp s = .next t ∧ t.symlen.toNat = xs.length ∧ t.window .sym = xs ∧
      (∀ a, xs.length ≤ a → t.readBuf .sym a = s.readBuf .sym a) ∧
      t.status.word = 0 ∧ t = { s with sym := t.sym, symlen := t.symlen, status := t.status }

/-- R178: if bits are left over that no code begins, DECP raises CorruptStreamError. -/
def Obligations.DecpRejectsLeftoverBits : Prop :=
  ∀ (s : State) (xs : List Symbol) (c : Code), CodesHold s.ct → (∀ x ∈ xs, codeOf s.ct x ≠ []) →
    c ≠ [] → (∀ y : Symbol, codeOf s.ct y ≠ [] → ¬ codeOf s.ct y <+: c) →
    s.window .bit = (codesOf s.ct xs ++ c).map bitByte → xs.length ≤ s.params.symCap →
    exec .decp s = .next { s with status := { err := .corruptStreamError, warnEmpty := false } }

/-- R181: the symbol that would be number SYM_CAP + 1 raises CapacityError, in either decoder, whatever
follows it, and nothing is committed. -/
def Obligations.DecodersReportCapacity : Prop :=
  (∀ (s : State) (leaves : Nat) (ps : List (Symbol × Code)) (rest : List Byte),
    ProperTree s.tree s.root s.nnodes leaves → (∀ p ∈ ps, LeafPath s.tree s.root p.1 p.2) →
    ps.length = s.params.symCap + 1 →
    s.window .bit = ps.flatMap (fun p => p.2.map bitByte) ++ rest →
    exec .dect s = .next { s with status := { err := .capacityError, warnEmpty := false } }) ∧
  (∀ (s : State) (x : Symbol) (f : Word) (bits rest : List Byte), s.root ≠ Config.nil →
    nodeAt s.tree s.root = .leaf x f → (∀ b ∈ bits, b = 0x30 ∨ b = 0x31) →
    bits.length = s.params.symCap + 1 → s.window .bit = bits ++ rest →
    exec .dect s = .next { s with status := { err := .capacityError, warnEmpty := false } }) ∧
  ∀ (s : State) (xs : List Symbol) (rest : List Byte), CodesHold s.ct →
    (∀ x ∈ xs, codeOf s.ct x ≠ []) → xs.length = s.params.symCap + 1 →
    s.window .bit = (codesOf s.ct xs).map bitByte ++ rest →
    exec .decp s = .next { s with status := { err := .capacityError, warnEmpty := false } }

/-- R179: with CT the table GEN derives from TREE, the two decoders leave the same state on every
content of BIT if the tree is proper; for a lone leaf they agree on every stream of `0` bytes, both
giving BITLEN copies of its symbol, and part on a stream of bits that holds a `1`; with no tree both
succeed on the empty stream and raise CorruptStreamError on any other. -/
def Obligations.DecodersAgree : Prop :=
  ∀ s g h : State, g.tree = s.tree → g.root = s.root → exec .gen g = .next h → h.ct = s.ct →
    (∀ leaves, ProperTree s.tree s.root s.nnodes leaves → exec .dect s = exec .decp s) ∧
    (LoneLeaf s.tree s.root s.nnodes → (∀ b ∈ s.window .bit, b = 0x30) →
      exec .dect s = exec .decp s ∧
      (s.params.wf = true → s.bitlen.toNat ≤ s.params.symCap →
        ∃ t, exec .decp s = .next t ∧ t.status.err = .ok ∧ t.symlen = s.bitlen ∧
          t.window .sym = List.replicate s.bitlen.toNat (slot s.tree 0).sym)) ∧
    (LoneLeaf s.tree s.root s.nnodes → (∀ b ∈ s.window .bit, b = 0x30 ∨ b = 0x31) →
      0x31 ∈ s.window .bit → s.params.wf = true → s.bitlen.toNat ≤ s.params.symCap →
      (∃ t, exec .dect s = .next t ∧ t.status.err = .ok ∧
        t.window .sym = List.replicate s.bitlen.toNat (slot s.tree 0).sym) ∧
      exec .decp s = .next { s with status := { err := .corruptStreamError, warnEmpty := false } }) ∧
    (NoTree s.tree s.root s.nnodes → exec .dect s = exec .decp s ∧
      (s.bitlen = 0 →
        exec .decp s = .next { s with symlen := 0, status := { err := .ok, warnEmpty := false } }) ∧
      (s.bitlen ≠ 0 →
        exec .decp s = .next { s with status := { err := .corruptStreamError, warnEmpty := false } }))

/-- R180: for every content of SYM[0..SYMLEN), after FREQ, BUILD, GEN and an ENC that does not raise
CapacityError, all four report OK and a following DECT, and equally a following DECP, restores it. -/
def Obligations.EncodeThenDecodeIsIdentity : Prop :=
  ∀ s a b c d : State, RangesHold s →
    exec .freq s = .next a → exec .build a = .next b → exec .gen b = .next c →
    exec .enc c = .next d → d.status.err ≠ .capacityError →
    a.status.err = .ok ∧ b.status.err = .ok ∧ c.status.err = .ok ∧ d.status.err = .ok ∧
    ∀ i, i = .dect ∨ i = .decp → ∃ t, exec i d = .next t ∧ t.status.err = .ok ∧
      t.symlen = s.symlen ∧ t.window .sym = s.window .sym

/-! ## SER and DESER -/

/-- R190, R191: SER writes one entry per present symbol, in ascending symbol value, and their length;
the tail of ART and everything else but STATUS stay as they were. -/
def Obligations.SerWritesEntriesInSymbolOrder : Prop :=
  ∀ (s : State) (xs : List Symbol), s.params.wf = true → ListsPresent s.ct xs →
    (xs.map (fun x => (codeOf s.ct x).length + 3)).sum ≤ s.params.artCap →
    ∃ t, exec .ser s = .next t ∧
      t.artlen.toNat = (xs.map (fun x => (codeOf s.ct x).length + 3)).sum ∧
      t.window .art = xs.flatMap (fun x =>
        [x, 0x3A] ++ (codeOf s.ct x).map (fun v => if v then 0x31 else 0x30) ++ [0x0A]) ∧
      (∀ a, t.artlen.toNat ≤ a → t.readBuf .art a = s.readBuf .art a) ∧
      t.status.word = 0 ∧ t = { s with art := t.art, artlen := t.artlen, status := t.status }

/-- R192: if the artifact would exceed ART_CAP bytes, SER raises CapacityError and commits nothing. -/
def Obligations.SerReportsCapacity : Prop :=
  ∀ (s : State) (xs : List Symbol), ListsPresent s.ct xs →
    s.params.artCap < (xs.map (fun x => (codeOf s.ct x).length + 3)).sum →
    exec .ser s = .next { s with status := { err := .capacityError, warnEmpty := false } }

/-- R193, R101: an artifact made of entries with codes of 1 to 255 bits, each symbol once and codes
pairwise apart, in any order, loads as exactly the table of those entries. -/
def Obligations.DeserLoadsEntriesInAnyOrder : Prop :=
  ∀ (s : State) (es : Entries), GoodEntries es → s.window .art = entriesBytes es →
    ∃ t, exec .deser s = .next t ∧ HoldsEntries t.ct es ∧ t.status.word = 0 ∧
      t = { s with ct := t.ct, status := t.status }

/-- R195: after a successful DESER the artifact was such a list of entries, CT holds them, and the
invariant of R36 holds. -/
def Obligations.DeserAcceptsOnlyGoodEntries : Prop :=
  ∀ s t : State, exec .deser s = .next t → t.status.err = .ok →
    (∃ es, GoodEntries es ∧ s.window .art = entriesBytes es ∧ HoldsEntries t.ct es) ∧ CodesHold t.ct

/-- R194: each of the six causes F1 to F6, after any number of good entries, raises FormatError; CT
keeps the table it had. -/
def Obligations.DeserRejectsMalformedArtifacts : Prop :=
  ∀ (s : State) (es : Entries) (bad : List Byte), GoodEntries es → Malformed es bad →
    s.window .art = entriesBytes es ++ bad →
    exec .deser s = .next { s with status := { err := .formatError, warnEmpty := false } }

/-- R198: DESER raises CapacityError on reading the 256th bit of a bitstring, whatever follows it. -/
def Obligations.DeserReportsLongCode : Prop :=
  ∀ (s : State) (es : Entries) (x : Symbol) (c : Code) (rest : List Byte), GoodEntries es →
    c.length = 256 → s.window .art = entriesBytes es ++ x :: 0x3A :: (c.map bitByte ++ rest) →
    exec .deser s = .next { s with status := { err := .capacityError, warnEmpty := false } }

/-- R197: ARTLEN = 0 loads as the empty table with ERR = OK. -/
def Obligations.DeserOfEmptyArtifact : Prop :=
  ∀ s : State, s.artlen = 0 → ∃ t, exec .deser s = .next t ∧ (∀ x : Symbol, codeOf t.ct x = []) ∧
    t.status.word = 0 ∧ t = { s with ct := t.ct, status := t.status }

/-- R200: for every CT value the hardware can hold, if SER succeeds a following DESER succeeds and
commits the same CT, and a following SER writes the same bytes again; conversely, SER after a
successful DESER succeeds and writes the same entries in ascending symbol order, byte-equal to the
artifact loaded exactly when that was already in this order. -/
def Obligations.SerializationRoundTrip : Prop :=
  (∀ s t : State, s.params.wf = true → CodesHold s.ct → exec .ser s = .next t → t.status.err = .ok →
    ∃ u v, exec .deser t = .next u ∧ u.status.err = .ok ∧ u.ct = s.ct ∧
      exec .ser u = .next v ∧ v.status.err = .ok ∧ v.window .art = t.window .art) ∧
  ∀ s t : State, RangesHold s → exec .deser s = .next t → t.status.err = .ok →
    ∃ es fs u, s.window .art = entriesBytes es ∧ fs.Perm es ∧
      fs.Pairwise (fun e d => e.1.toNat < d.1.toNat) ∧
      exec .ser t = .next u ∧ u.status.err = .ok ∧ u.window .art = entriesBytes fs ∧
      (u.window .art = s.window .art ↔ es.Pairwise (fun e d => e.1.toNat < d.1.toNat))

/-! ## Errors, purity, frames -/

/-- R232 (and R196): a command that raises an error changes nothing but STATUS, whose WARN_EMPTY it
clears. -/
def Obligations.ErrorsChangeOnlyStatus : Prop :=
  ∀ (i : Instr) (s t : State), exec i s = .next t → t.status.err ≠ .ok →
    t = { s with status := t.status } ∧ t.status.warnEmpty = false

/-- R221: the codes of the errors, and which commands raise each: UnknownSymbolError ENC,
CorruptStreamError DECT and DECP, FormatError DESER, CapacityError all but FREQ and GEN,
IllegalCommand no command, and FREQ and GEN none at all. -/
def Obligations.EachErrorIsRaisedByItsCommands : Prop :=
  (Err.ok.code = 0 ∧ Err.unknownSymbolError.code = 1 ∧ Err.corruptStreamError.code = 2 ∧
    Err.formatError.code = 3 ∧ Err.capacityError.code = 4 ∧ Err.illegalCommand.code = 5) ∧
  ∀ (i : Instr) (s t : State), exec i s = .next t →
    (t.status.err = .unknownSymbolError → i = .enc) ∧
    (t.status.err = .corruptStreamError → i = .dect ∨ i = .decp) ∧
    (t.status.err = .formatError → i = .deser) ∧ t.status.err ≠ .illegalCommand ∧
    (i = .freq ∨ i = .gen → t.status.err = .ok)

/-- R31: no command reads STATUS: its outcome is the same whatever STATUS held. -/
def Obligations.StatusIsNeverAnInput : Prop :=
  ∀ (i : Instr) (s : State) (st : Status), exec i { s with status := st } = exec i s

/-- R41 (with the inputs of R93 and R76): what a command commits, and the STATUS it leaves, depend on
the inputs R93 lists and on nothing else; on an error nothing is committed. The capacities are
parameters of the device. -/
def Obligations.CommandsDependOnlyOnTheirInputs : Prop :=
  ∀ s s' t t' : State,
    (s.window .sym = s'.window .sym → exec .freq s = .next t → exec .freq s' = .next t' →
      t.status = t'.status ∧ t.ft = t'.ft) ∧
    (s.ft = s'.ft → exec .build s = .next t → exec .build s' = .next t' →
      t.status = t'.status ∧
        (t.status.err = .ok → t.tree = t'.tree ∧ t.root = t'.root ∧ t.nnodes = t'.nnodes)) ∧
    (s.tree = s'.tree → s.root = s'.root → s.nnodes = s'.nnodes →
      exec .gen s = .next t → exec .gen s' = .next t' → t.status = t'.status ∧ t.ct = t'.ct) ∧
    (s.params = s'.params → s.window .sym = s'.window .sym → s.ct = s'.ct →
      exec .enc s = .next t → exec .enc s' = .next t' →
      t.status = t'.status ∧ (t.status.err = .ok → t.window .bit = t'.window .bit)) ∧
    (s.params = s'.params → s.window .bit = s'.window .bit → s.tree = s'.tree → s.root = s'.root →
      exec .dect s = .next t → exec .dect s' = .next t' →
      t.status = t'.status ∧ (t.status.err = .ok → t.window .sym = t'.window .sym)) ∧
    (s.params = s'.params → s.window .bit = s'.window .bit → s.ct = s'.ct →
      exec .decp s = .next t → exec .decp s' = .next t' →
      t.status = t'.status ∧ (t.status.err = .ok → t.window .sym = t'.window .sym)) ∧
    (s.params = s'.params → s.ct = s'.ct → exec .ser s = .next t → exec .ser s' = .next t' →
      t.status = t'.status ∧ (t.status.err = .ok → t.window .art = t'.window .art)) ∧
    (s.window .art = s'.window .art → exec .deser s = .next t → exec .deser s' = .next t' →
      t.status = t'.status ∧ (t.status.err = .ok → t.ct = t'.ct))

/-- R93, the frame of the commands that write a table: FREQ changes FT and STATUS, BUILD changes TREE,
ROOT, NNODES and STATUS, GEN and DESER change CT and STATUS; every element of every buffer reads as
before. -/
def Obligations.TableCommandFrames : Prop :=
  ∀ s t : State,
    (exec .freq s = .next t → t = { s with ft := t.ft, status := t.status } ∧
      ∀ b a, t.readBuf b a = s.readBuf b a) ∧
    (exec .build s = .next t →
      t = { s with tree := t.tree, root := t.root, nnodes := t.nnodes, status := t.status } ∧
      ∀ b a, t.readBuf b a = s.readBuf b a) ∧
    (exec .gen s = .next t → t = { s with ct := t.ct, status := t.status } ∧
      ∀ b a, t.readBuf b a = s.readBuf b a) ∧
    (exec .deser s = .next t → t = { s with ct := t.ct, status := t.status } ∧
      ∀ b a, t.readBuf b a = s.readBuf b a)

/-- R93, R77, R78, the frame of the commands that write a buffer: ENC changes BIT, BITLEN and STATUS,
DECT and DECP change SYM, SYMLEN and STATUS, SER changes ART, ARTLEN and STATUS; on success the elements
stored to are those below the new length, on an error there are none, and every other element of every
buffer reads as before. -/
def Obligations.BufferCommandFrames : Prop :=
  ∀ s t : State, s.params.wf = true →
    (exec .enc s = .next t → t = { s with bit := t.bit, bitlen := t.bitlen, status := t.status } ∧
      ∀ b a, ¬ (t.status.err = .ok ∧ b = .bit ∧ a < t.bitlen.toNat) →
        t.readBuf b a = s.readBuf b a) ∧
    (exec .dect s = .next t → t = { s with sym := t.sym, symlen := t.symlen, status := t.status } ∧
      ∀ b a, ¬ (t.status.err = .ok ∧ b = .sym ∧ a < t.symlen.toNat) →
        t.readBuf b a = s.readBuf b a) ∧
    (exec .decp s = .next t → t = { s with sym := t.sym, symlen := t.symlen, status := t.status } ∧
      ∀ b a, ¬ (t.status.err = .ok ∧ b = .sym ∧ a < t.symlen.toNat) →
        t.readBuf b a = s.readBuf b a) ∧
    (exec .ser s = .next t → t = { s with art := t.art, artlen := t.artlen, status := t.status } ∧
      ∀ b a, ¬ (t.status.err = .ok ∧ b = .art ∧ a < t.artlen.toNat) →
        t.readBuf b a = s.readBuf b a)

/-! ## The host's transactions and the whole machine -/

/-- R235: no state and no transaction stops the block: every step answers a next state. That a refused
access and an empty script are next states is the model's choice (log 1, 5). -/
def Obligations.EveryStepAnswersNext : Prop := ∀ s : State, ∃ t, step s = .next t

/-- R62: a host read within the indices of its space returns the current value of the element, CMD
reading 0, and changes no state. The script and the transcript are the model's choice (log 1, 2). -/
def Obligations.HostReadReturnsElement : Prop :=
  ∀ (s : State) (rest : List Transaction) (space i : Nat) (r : Response),
    s.script = .hrd space i :: rest →
    ((space = 0 ∧ ∃ w, r = .word w ∧
        ((i = 0 ∧ w = 0) ∨ (i = 1 ∧ w = s.status.word) ∨ (i = 2 ∧ w = s.symlen) ∨
          (i = 3 ∧ w = s.bitlen) ∨ (i = 4 ∧ w = s.artlen) ∨
          (i = 5 ∧ w.toNat = s.root.toNat) ∨ (i = 6 ∧ w.toNat = s.nnodes.toNat))) ∨
      (∃ b, space = spaceId b ∧ i < s.params.cap b ∧ r = .byte (s.readBuf b i)) ∨
      (∃ x : Symbol, space = 4 ∧ i = x.toNat ∧ r = .word (countOf s.ft x)) ∨
      (space = 5 ∧ i < 511 ∧ r = .packed (slot s.tree i).pack)) →
    step s = .next { s with script := rest, responses := s.responses ++ [r] }

/-- R63 (and R65): an accepted host write other than to CMD gives its one element the value and changes
nothing else, STATUS included; a write of a command's word to CMD executes that command. The script and
the transcript are the model's choice (log 1, 2). -/
def Obligations.HostWriteSetsOneElement : Prop :=
  ∀ (s : State) (rest : List Transaction) (space i v : Nat), s.script = .hwr space i v :: rest →
    (∀ b : Buffer, space = spaceId b → i < s.params.cap b → v < 256 →
      ∃ t, step s = .next t ∧ t.readBuf b i = BitVec.ofNat 8 v ∧
        (∀ d j, ¬ (d = b ∧ j = i) → t.readBuf d j = s.readBuf d j) ∧
        t = { s with sym := t.sym, bit := t.bit, art := t.art, script := rest,
                     responses := s.responses ++ [.done] }) ∧
    (space = 4 → i < 256 → v < 2 ^ 32 →
      ∃ t, step s = .next t ∧ countOf t.ft (BitVec.ofNat 8 i) = BitVec.ofNat 32 v ∧
        (∀ x : Symbol, x.toNat ≠ i → countOf t.ft x = countOf s.ft x) ∧
        t = { s with ft := t.ft, script := rest, responses := s.responses ++ [.done] }) ∧
    (∀ c : Instr, space = 0 → i = 0 → v < 2 ^ 32 → decode (BitVec.ofNat 32 v) = .ok c →
      ∃ t, exec c { s with script := rest } = .next t ∧
        step s = .next { t with responses := t.responses ++ [.done] }) ∧
    (∀ b : Buffer, space = 0 → i = lenCsr b → v < 2 ^ 32 → v ≤ s.params.cap b →
      ∃ t, step s = .next t ∧ t.len b = BitVec.ofNat 32 v ∧ (∀ d, d ≠ b → t.len d = s.len d) ∧
        t = { s with symlen := t.symlen, bitlen := t.bitlen, artlen := t.artlen, script := rest,
                     responses := s.responses ++ [.done] })

/-- R64: a host transaction is refused exactly when it fails the condition of R62 or R63; a refused one
changes no state, STATUS included, and its response says that it was refused. That this is a next state
of the block, with a reason in its transcript, is the model's choice (log 1, 2, 5, 6). -/
def Obligations.RefusedAccessChangesNothing : Prop :=
  ∀ (s : State) (tr : Transaction) (rest : List Transaction), s.script = tr :: rest →
    (¬ Accepted s.params tr →
      ∃ why, step s = .next { s with script := rest, responses := s.responses ++ [.refused why] }) ∧
    (Accepted s.params tr →
      ∃ t r, step s = .next t ∧ t.responses = s.responses ++ [r] ∧ ∀ why, r ≠ .refused why)

/-- R65: a host write to a length register is accepted only up to its buffer's capacity, and is refused
above it, leaving every length as it was. The transcript is the model's choice (log 2, 5). -/
def Obligations.LengthWritesRespectCapacity : Prop :=
  ∀ (s : State) (rest : List Transaction) (b : Buffer) (v : Nat), s.params.wf = true →
    s.script = .hwr 0 (lenCsr b) v :: rest →
    ∃ t, step s = .next t ∧ (∀ d, d ≠ b → t.len d = s.len d) ∧
      (v ≤ s.params.cap b → (t.len b).toNat = v ∧ t.responses = s.responses ++ [.done]) ∧
      (s.params.cap b < v → t.len b = s.len b ∧ ∃ why, t.responses = s.responses ++ [.refused why])

/-- R44: the range invariants hold after reset and are kept by every transaction; STATUS.ERR is one of
the codes 0 to 5; ROOT and NNODES are as R34 says. The canonical form of the buffers and the capacities
of State.reset are the model's choice (log 3, 4). -/
def Obligations.RangesHoldAfterEveryStep : Prop :=
  RangesHold State.reset ∧
  ∀ s t : State, RangesHold s → TreeShape s.tree s.root s.nnodes → step s = .next t →
    RangesHold t ∧ t.status.err.code.toNat ≤ 5 ∧ TreeShape t.tree t.root t.nnodes

/-- R34: after reset and after every transaction the TREE store is in one of three shapes. -/
def Obligations.TreeShapeHoldsAfterEveryStep : Prop :=
  TreeShape State.reset.tree State.reset.root State.reset.nnodes ∧
  ∀ s t : State, TreeShape s.tree s.root s.nnodes → step s = .next t →
    TreeShape t.tree t.root t.nnodes

/-- R36: after reset and after every transaction the present codes are pairwise distinct and
prefix-free, and have 1 to 255 bits. -/
def Obligations.CodeTableHoldsAfterEveryStep : Prop :=
  CodesHold State.reset.ct ∧
  ∀ s t : State, TreeShape s.tree s.root s.nnodes → CodesHold s.ct → step s = .next t → CodesHold t.ct

/-- R42, with R27, R28, R33, R35, R60 and R63: which transactions can change each store: TREE, ROOT and
NNODES change only by BUILD, CT only by GEN and DESER, FT only by FREQ and a host write to it, an element
of SYM and SYMLEN only by DECT, DECP and a host write to them, of BIT and BITLEN by ENC and a host write,
of ART and ARTLEN by SER and a host write, STATUS only by a write to CMD, and each of them by RESET. The
parameters never change, which is the model's choice (log 3). -/
def Obligations.StoresChangeOnlyByTheirWriters : Prop :=
  ∀ (s t : State) (tr : Transaction) (rest : List Transaction), s.script = tr :: rest →
    step s = .next t → tr ≠ .reset →
    (¬ IsCommand .build tr → t.tree = s.tree ∧ t.root = s.root ∧ t.nnodes = s.nnodes) ∧
    (¬ IsCommand .gen tr → ¬ IsCommand .deser tr → t.ct = s.ct) ∧
    (¬ IsCommand .freq tr → (∀ i v, tr ≠ .hwr 4 i v) → t.ft = s.ft) ∧
    (¬ IsCommand .dect tr → ¬ IsCommand .decp tr →
      (∀ a, (∀ v, tr ≠ .hwr 1 a v) → t.readBuf .sym a = s.readBuf .sym a) ∧
      ((∀ v, tr ≠ .hwr 0 2 v) → t.symlen = s.symlen)) ∧
    (¬ IsCommand .enc tr →
      (∀ a, (∀ v, tr ≠ .hwr 2 a v) → t.readBuf .bit a = s.readBuf .bit a) ∧
      ((∀ v, tr ≠ .hwr 0 3 v) → t.bitlen = s.bitlen)) ∧
    (¬ IsCommand .ser tr →
      (∀ a, (∀ v, tr ≠ .hwr 3 a v) → t.readBuf .art a = s.readBuf .art a) ∧
      ((∀ v, tr ≠ .hwr 0 4 v) → t.artlen = s.artlen)) ∧
    (¬ IsCmdWrite tr → t.status = s.status) ∧ t.params = s.params

/-- R23, R104: the STATUS word has ERR in [3:0], WARN_EMPTY in [4] and zeros above; the packed node word
has freq in [63:32], kind in [31:30], left in [29:21], right in [20:12], zero in [11:8], sym in [7:0]. -/
def Obligations.RegisterAndNodeLayouts : Prop :=
  (∀ st : Status, st.word.extractLsb' 5 27 = 0 ∧ st.word.getLsbD 4 = st.warnEmpty ∧
    st.word.extractLsb' 0 4 = st.err.code) ∧
  (∀ (x : Symbol) (f : Word), let p := (Node.leaf x f).pack
    p.extractLsb' 32 32 = f ∧ p.extractLsb' 30 2 = 1 ∧ p.extractLsb' 21 9 = 0x1FF ∧
    p.extractLsb' 12 9 = 0x1FF ∧ p.extractLsb' 8 4 = 0 ∧ p.extractLsb' 0 8 = x) ∧
  (∀ (f : Word) (l r : NodeIdx), let p := (Node.internal f l r).pack
    p.extractLsb' 32 32 = f ∧ p.extractLsb' 30 2 = 2 ∧ p.extractLsb' 21 9 = l ∧
    p.extractLsb' 12 9 = r ∧ p.extractLsb' 8 4 = 0 ∧ p.extractLsb' 0 8 = 0) ∧
  Node.free.pack = 0 ∧ (Node.leaf 0x61 3).pack = 0x000000037FFFF061 ∧
  (Node.internal 6 0 3).pack = 0x0000000680003000
end

