-- ==== Sys2Proof/Laws/State.lean ====
section
/-! SUPPORT. What every update of the state does to every field of it, so that no proof unfolds a record
update: one lemma per field per update, tagged for simp. -/

namespace Sys2Proof.Machine

open Sys2Proof

/-! raise -/

@[simp] theorem raise_status (e : Err) (s : State) : (raise e s).status = Status.failure e := rfl
@[simp] theorem raise_symlen (e : Err) (s : State) : (raise e s).symlen = s.symlen := rfl
@[simp] theorem raise_bitlen (e : Err) (s : State) : (raise e s).bitlen = s.bitlen := rfl
@[simp] theorem raise_artlen (e : Err) (s : State) : (raise e s).artlen = s.artlen := rfl
@[simp] theorem raise_root (e : Err) (s : State) : (raise e s).root = s.root := rfl
@[simp] theorem raise_nnodes (e : Err) (s : State) : (raise e s).nnodes = s.nnodes := rfl
@[simp] theorem raise_ft (e : Err) (s : State) : (raise e s).ft = s.ft := rfl
@[simp] theorem raise_tree (e : Err) (s : State) : (raise e s).tree = s.tree := rfl
@[simp] theorem raise_ct (e : Err) (s : State) : (raise e s).ct = s.ct := rfl
@[simp] theorem raise_sym (e : Err) (s : State) : (raise e s).sym = s.sym := rfl
@[simp] theorem raise_bit (e : Err) (s : State) : (raise e s).bit = s.bit := rfl
@[simp] theorem raise_art (e : Err) (s : State) : (raise e s).art = s.art := rfl
@[simp] theorem raise_params (e : Err) (s : State) : (raise e s).params = s.params := rfl
@[simp] theorem raise_epoch (e : Err) (s : State) : (raise e s).epoch = s.epoch := rfl
@[simp] theorem raise_script (e : Err) (s : State) : (raise e s).script = s.script := rfl
@[simp] theorem raise_responses (e : Err) (s : State) : (raise e s).responses = s.responses := rfl

/-! commitFreq -/

@[simp] theorem commitFreq_status (t : FreqTable) (s : State) : (commitFreq t s).status = Status.frequency s.symlen := rfl
@[simp] theorem commitFreq_symlen (t : FreqTable) (s : State) : (commitFreq t s).symlen = s.symlen := rfl
@[simp] theorem commitFreq_bitlen (t : FreqTable) (s : State) : (commitFreq t s).bitlen = s.bitlen := rfl
@[simp] theorem commitFreq_artlen (t : FreqTable) (s : State) : (commitFreq t s).artlen = s.artlen := rfl
@[simp] theorem commitFreq_root (t : FreqTable) (s : State) : (commitFreq t s).root = s.root := rfl
@[simp] theorem commitFreq_nnodes (t : FreqTable) (s : State) : (commitFreq t s).nnodes = s.nnodes := rfl
@[simp] theorem commitFreq_ft (t : FreqTable) (s : State) : (commitFreq t s).ft = t := rfl
@[simp] theorem commitFreq_tree (t : FreqTable) (s : State) : (commitFreq t s).tree = s.tree := rfl
@[simp] theorem commitFreq_ct (t : FreqTable) (s : State) : (commitFreq t s).ct = s.ct := rfl
@[simp] theorem commitFreq_sym (t : FreqTable) (s : State) : (commitFreq t s).sym = s.sym := rfl
@[simp] theorem commitFreq_bit (t : FreqTable) (s : State) : (commitFreq t s).bit = s.bit := rfl
@[simp] theorem commitFreq_art (t : FreqTable) (s : State) : (commitFreq t s).art = s.art := rfl
@[simp] theorem commitFreq_params (t : FreqTable) (s : State) : (commitFreq t s).params = s.params := rfl
@[simp] theorem commitFreq_epoch (t : FreqTable) (s : State) : (commitFreq t s).epoch = s.epoch := rfl
@[simp] theorem commitFreq_script (t : FreqTable) (s : State) : (commitFreq t s).script = s.script := rfl
@[simp] theorem commitFreq_responses (t : FreqTable) (s : State) : (commitFreq t s).responses = s.responses := rfl

/-! commitTree -/

@[simp] theorem commitTree_status (ns : List Node) (s : State) : (commitTree ns s).status = Status.success := rfl
@[simp] theorem commitTree_symlen (ns : List Node) (s : State) : (commitTree ns s).symlen = s.symlen := rfl
@[simp] theorem commitTree_bitlen (ns : List Node) (s : State) : (commitTree ns s).bitlen = s.bitlen := rfl
@[simp] theorem commitTree_artlen (ns : List Node) (s : State) : (commitTree ns s).artlen = s.artlen := rfl
@[simp] theorem commitTree_root (ns : List Node) (s : State) : (commitTree ns s).root = if ns.isEmpty then Config.nil else BitVec.ofNat 9 (ns.length - 1) := rfl
@[simp] theorem commitTree_nnodes (ns : List Node) (s : State) : (commitTree ns s).nnodes = BitVec.ofNat 9 ns.length := rfl
@[simp] theorem commitTree_ft (ns : List Node) (s : State) : (commitTree ns s).ft = s.ft := rfl
@[simp] theorem commitTree_tree (ns : List Node) (s : State) : (commitTree ns s).tree = tabulate 511 (fun k => ns.getD k .free) := rfl
@[simp] theorem commitTree_ct (ns : List Node) (s : State) : (commitTree ns s).ct = s.ct := rfl
@[simp] theorem commitTree_sym (ns : List Node) (s : State) : (commitTree ns s).sym = s.sym := rfl
@[simp] theorem commitTree_bit (ns : List Node) (s : State) : (commitTree ns s).bit = s.bit := rfl
@[simp] theorem commitTree_art (ns : List Node) (s : State) : (commitTree ns s).art = s.art := rfl
@[simp] theorem commitTree_params (ns : List Node) (s : State) : (commitTree ns s).params = s.params := rfl
@[simp] theorem commitTree_epoch (ns : List Node) (s : State) : (commitTree ns s).epoch = s.epoch := rfl
@[simp] theorem commitTree_script (ns : List Node) (s : State) : (commitTree ns s).script = s.script := rfl
@[simp] theorem commitTree_responses (ns : List Node) (s : State) : (commitTree ns s).responses = s.responses := rfl

/-! commitCodes -/

@[simp] theorem commitCodes_status (t : CodeTable) (s : State) : (commitCodes t s).status = Status.success := rfl
@[simp] theorem commitCodes_symlen (t : CodeTable) (s : State) : (commitCodes t s).symlen = s.symlen := rfl
@[simp] theorem commitCodes_bitlen (t : CodeTable) (s : State) : (commitCodes t s).bitlen = s.bitlen := rfl
@[simp] theorem commitCodes_artlen (t : CodeTable) (s : State) : (commitCodes t s).artlen = s.artlen := rfl
@[simp] theorem commitCodes_root (t : CodeTable) (s : State) : (commitCodes t s).root = s.root := rfl
@[simp] theorem commitCodes_nnodes (t : CodeTable) (s : State) : (commitCodes t s).nnodes = s.nnodes := rfl
@[simp] theorem commitCodes_ft (t : CodeTable) (s : State) : (commitCodes t s).ft = s.ft := rfl
@[simp] theorem commitCodes_tree (t : CodeTable) (s : State) : (commitCodes t s).tree = s.tree := rfl
@[simp] theorem commitCodes_ct (t : CodeTable) (s : State) : (commitCodes t s).ct = t := rfl
@[simp] theorem commitCodes_sym (t : CodeTable) (s : State) : (commitCodes t s).sym = s.sym := rfl
@[simp] theorem commitCodes_bit (t : CodeTable) (s : State) : (commitCodes t s).bit = s.bit := rfl
@[simp] theorem commitCodes_art (t : CodeTable) (s : State) : (commitCodes t s).art = s.art := rfl
@[simp] theorem commitCodes_params (t : CodeTable) (s : State) : (commitCodes t s).params = s.params := rfl
@[simp] theorem commitCodes_epoch (t : CodeTable) (s : State) : (commitCodes t s).epoch = s.epoch := rfl
@[simp] theorem commitCodes_script (t : CodeTable) (s : State) : (commitCodes t s).script = s.script := rfl
@[simp] theorem commitCodes_responses (t : CodeTable) (s : State) : (commitCodes t s).responses = s.responses := rfl

/-! respond -/

@[simp] theorem respond_status (r : Response) (s : State) : (respond r s).status = s.status := rfl
@[simp] theorem respond_symlen (r : Response) (s : State) : (respond r s).symlen = s.symlen := rfl
@[simp] theorem respond_bitlen (r : Response) (s : State) : (respond r s).bitlen = s.bitlen := rfl
@[simp] theorem respond_artlen (r : Response) (s : State) : (respond r s).artlen = s.artlen := rfl
@[simp] theorem respond_root (r : Response) (s : State) : (respond r s).root = s.root := rfl
@[simp] theorem respond_nnodes (r : Response) (s : State) : (respond r s).nnodes = s.nnodes := rfl
@[simp] theorem respond_ft (r : Response) (s : State) : (respond r s).ft = s.ft := rfl
@[simp] theorem respond_tree (r : Response) (s : State) : (respond r s).tree = s.tree := rfl
@[simp] theorem respond_ct (r : Response) (s : State) : (respond r s).ct = s.ct := rfl
@[simp] theorem respond_sym (r : Response) (s : State) : (respond r s).sym = s.sym := rfl
@[simp] theorem respond_bit (r : Response) (s : State) : (respond r s).bit = s.bit := rfl
@[simp] theorem respond_art (r : Response) (s : State) : (respond r s).art = s.art := rfl
@[simp] theorem respond_params (r : Response) (s : State) : (respond r s).params = s.params := rfl
@[simp] theorem respond_epoch (r : Response) (s : State) : (respond r s).epoch = s.epoch := rfl
@[simp] theorem respond_script (r : Response) (s : State) : (respond r s).script = s.script := rfl
@[simp] theorem respond_responses (r : Response) (s : State) : (respond r s).responses = s.responses ++ [r] := rfl

/-! takeTransaction -/

@[simp] theorem takeTransaction_status (rest : List Transaction) (s : State) : (takeTransaction rest s).status = s.status := rfl
@[simp] theorem takeTransaction_symlen (rest : List Transaction) (s : State) : (takeTransaction rest s).symlen = s.symlen := rfl
@[simp] theorem takeTransaction_bitlen (rest : List Transaction) (s : State) : (takeTransaction rest s).bitlen = s.bitlen := rfl
@[simp] theorem takeTransaction_artlen (rest : List Transaction) (s : State) : (takeTransaction rest s).artlen = s.artlen := rfl
@[simp] theorem takeTransaction_root (rest : List Transaction) (s : State) : (takeTransaction rest s).root = s.root := rfl
@[simp] theorem takeTransaction_nnodes (rest : List Transaction) (s : State) : (takeTransaction rest s).nnodes = s.nnodes := rfl
@[simp] theorem takeTransaction_ft (rest : List Transaction) (s : State) : (takeTransaction rest s).ft = s.ft := rfl
@[simp] theorem takeTransaction_tree (rest : List Transaction) (s : State) : (takeTransaction rest s).tree = s.tree := rfl
@[simp] theorem takeTransaction_ct (rest : List Transaction) (s : State) : (takeTransaction rest s).ct = s.ct := rfl
@[simp] theorem takeTransaction_sym (rest : List Transaction) (s : State) : (takeTransaction rest s).sym = s.sym := rfl
@[simp] theorem takeTransaction_bit (rest : List Transaction) (s : State) : (takeTransaction rest s).bit = s.bit := rfl
@[simp] theorem takeTransaction_art (rest : List Transaction) (s : State) : (takeTransaction rest s).art = s.art := rfl
@[simp] theorem takeTransaction_params (rest : List Transaction) (s : State) : (takeTransaction rest s).params = s.params := rfl
@[simp] theorem takeTransaction_epoch (rest : List Transaction) (s : State) : (takeTransaction rest s).epoch = s.epoch := rfl
@[simp] theorem takeTransaction_script (rest : List Transaction) (s : State) : (takeTransaction rest s).script = rest := rfl
@[simp] theorem takeTransaction_responses (rest : List Transaction) (s : State) : (takeTransaction rest s).responses = s.responses := rfl

/-! issueFirst -/

@[simp] theorem issueFirst_status (t : Transaction) (s : State) : (issueFirst t s).status = s.status := rfl
@[simp] theorem issueFirst_symlen (t : Transaction) (s : State) : (issueFirst t s).symlen = s.symlen := rfl
@[simp] theorem issueFirst_bitlen (t : Transaction) (s : State) : (issueFirst t s).bitlen = s.bitlen := rfl
@[simp] theorem issueFirst_artlen (t : Transaction) (s : State) : (issueFirst t s).artlen = s.artlen := rfl
@[simp] theorem issueFirst_root (t : Transaction) (s : State) : (issueFirst t s).root = s.root := rfl
@[simp] theorem issueFirst_nnodes (t : Transaction) (s : State) : (issueFirst t s).nnodes = s.nnodes := rfl
@[simp] theorem issueFirst_ft (t : Transaction) (s : State) : (issueFirst t s).ft = s.ft := rfl
@[simp] theorem issueFirst_tree (t : Transaction) (s : State) : (issueFirst t s).tree = s.tree := rfl
@[simp] theorem issueFirst_ct (t : Transaction) (s : State) : (issueFirst t s).ct = s.ct := rfl
@[simp] theorem issueFirst_sym (t : Transaction) (s : State) : (issueFirst t s).sym = s.sym := rfl
@[simp] theorem issueFirst_bit (t : Transaction) (s : State) : (issueFirst t s).bit = s.bit := rfl
@[simp] theorem issueFirst_art (t : Transaction) (s : State) : (issueFirst t s).art = s.art := rfl
@[simp] theorem issueFirst_params (t : Transaction) (s : State) : (issueFirst t s).params = s.params := rfl
@[simp] theorem issueFirst_epoch (t : Transaction) (s : State) : (issueFirst t s).epoch = s.epoch := rfl
@[simp] theorem issueFirst_script (t : Transaction) (s : State) : (issueFirst t s).script = t :: s.script := rfl
@[simp] theorem issueFirst_responses (t : Transaction) (s : State) : (issueFirst t s).responses = s.responses := rfl

/-! resetBlock -/

@[simp] theorem resetBlock_status (s : State) : (resetBlock s).status = State.reset.status := rfl
@[simp] theorem resetBlock_symlen (s : State) : (resetBlock s).symlen = State.reset.symlen := rfl
@[simp] theorem resetBlock_bitlen (s : State) : (resetBlock s).bitlen = State.reset.bitlen := rfl
@[simp] theorem resetBlock_artlen (s : State) : (resetBlock s).artlen = State.reset.artlen := rfl
@[simp] theorem resetBlock_root (s : State) : (resetBlock s).root = State.reset.root := rfl
@[simp] theorem resetBlock_nnodes (s : State) : (resetBlock s).nnodes = State.reset.nnodes := rfl
@[simp] theorem resetBlock_ft (s : State) : (resetBlock s).ft = State.reset.ft := rfl
@[simp] theorem resetBlock_tree (s : State) : (resetBlock s).tree = State.reset.tree := rfl
@[simp] theorem resetBlock_ct (s : State) : (resetBlock s).ct = State.reset.ct := rfl
@[simp] theorem resetBlock_sym (s : State) : (resetBlock s).sym = State.reset.sym := rfl
@[simp] theorem resetBlock_bit (s : State) : (resetBlock s).bit = State.reset.bit := rfl
@[simp] theorem resetBlock_art (s : State) : (resetBlock s).art = State.reset.art := rfl
@[simp] theorem resetBlock_params (s : State) : (resetBlock s).params = s.params := rfl
@[simp] theorem resetBlock_epoch (s : State) : (resetBlock s).epoch = s.epoch + 1 := rfl
@[simp] theorem resetBlock_script (s : State) : (resetBlock s).script = s.script := rfl
@[simp] theorem resetBlock_responses (s : State) : (resetBlock s).responses = s.responses := rfl

/-! setBuffer -/

@[simp] theorem setBuffer_status (s : State) (b : Buffer) (m : Memory) : (s.setBuffer b m).status = s.status := by
  cases b <;> rfl
@[simp] theorem setBuffer_symlen (s : State) (b : Buffer) (m : Memory) : (s.setBuffer b m).symlen = s.symlen := by
  cases b <;> rfl
@[simp] theorem setBuffer_bitlen (s : State) (b : Buffer) (m : Memory) : (s.setBuffer b m).bitlen = s.bitlen := by
  cases b <;> rfl
@[simp] theorem setBuffer_artlen (s : State) (b : Buffer) (m : Memory) : (s.setBuffer b m).artlen = s.artlen := by
  cases b <;> rfl
@[simp] theorem setBuffer_root (s : State) (b : Buffer) (m : Memory) : (s.setBuffer b m).root = s.root := by
  cases b <;> rfl
@[simp] theorem setBuffer_nnodes (s : State) (b : Buffer) (m : Memory) : (s.setBuffer b m).nnodes = s.nnodes := by
  cases b <;> rfl
@[simp] theorem setBuffer_ft (s : State) (b : Buffer) (m : Memory) : (s.setBuffer b m).ft = s.ft := by
  cases b <;> rfl
@[simp] theorem setBuffer_tree (s : State) (b : Buffer) (m : Memory) : (s.setBuffer b m).tree = s.tree := by
  cases b <;> rfl
@[simp] theorem setBuffer_ct (s : State) (b : Buffer) (m : Memory) : (s.setBuffer b m).ct = s.ct := by
  cases b <;> rfl
@[simp] theorem setBuffer_sym_sym (s : State) (m : Memory) : (s.setBuffer .sym m).sym = m := rfl
@[simp] theorem setBuffer_bit_sym (s : State) (m : Memory) : (s.setBuffer .bit m).sym = s.sym := rfl
@[simp] theorem setBuffer_art_sym (s : State) (m : Memory) : (s.setBuffer .art m).sym = s.sym := rfl
@[simp] theorem setBuffer_sym_bit (s : State) (m : Memory) : (s.setBuffer .sym m).bit = s.bit := rfl
@[simp] theorem setBuffer_bit_bit (s : State) (m : Memory) : (s.setBuffer .bit m).bit = m := rfl
@[simp] theorem setBuffer_art_bit (s : State) (m : Memory) : (s.setBuffer .art m).bit = s.bit := rfl
@[simp] theorem setBuffer_sym_art (s : State) (m : Memory) : (s.setBuffer .sym m).art = s.art := rfl
@[simp] theorem setBuffer_bit_art (s : State) (m : Memory) : (s.setBuffer .bit m).art = s.art := rfl
@[simp] theorem setBuffer_art_art (s : State) (m : Memory) : (s.setBuffer .art m).art = m := rfl
@[simp] theorem setBuffer_params (s : State) (b : Buffer) (m : Memory) : (s.setBuffer b m).params = s.params := by
  cases b <;> rfl
@[simp] theorem setBuffer_epoch (s : State) (b : Buffer) (m : Memory) : (s.setBuffer b m).epoch = s.epoch := by
  cases b <;> rfl
@[simp] theorem setBuffer_script (s : State) (b : Buffer) (m : Memory) : (s.setBuffer b m).script = s.script := by
  cases b <;> rfl
@[simp] theorem setBuffer_responses (s : State) (b : Buffer) (m : Memory) : (s.setBuffer b m).responses = s.responses := by
  cases b <;> rfl

/-! setLen -/

@[simp] theorem setLen_status (s : State) (b : Buffer) (n : Word) : (s.setLen b n).status = s.status := by
  cases b <;> rfl
@[simp] theorem setLen_sym_symlen (s : State) (n : Word) : (s.setLen .sym n).symlen = n := rfl
@[simp] theorem setLen_bit_symlen (s : State) (n : Word) : (s.setLen .bit n).symlen = s.symlen := rfl
@[simp] theorem setLen_art_symlen (s : State) (n : Word) : (s.setLen .art n).symlen = s.symlen := rfl
@[simp] theorem setLen_sym_bitlen (s : State) (n : Word) : (s.setLen .sym n).bitlen = s.bitlen := rfl
@[simp] theorem setLen_bit_bitlen (s : State) (n : Word) : (s.setLen .bit n).bitlen = n := rfl
@[simp] theorem setLen_art_bitlen (s : State) (n : Word) : (s.setLen .art n).bitlen = s.bitlen := rfl
@[simp] theorem setLen_sym_artlen (s : State) (n : Word) : (s.setLen .sym n).artlen = s.artlen := rfl
@[simp] theorem setLen_bit_artlen (s : State) (n : Word) : (s.setLen .bit n).artlen = s.artlen := rfl
@[simp] theorem setLen_art_artlen (s : State) (n : Word) : (s.setLen .art n).artlen = n := rfl
@[simp] theorem setLen_root (s : State) (b : Buffer) (n : Word) : (s.setLen b n).root = s.root := by
  cases b <;> rfl
@[simp] theorem setLen_nnodes (s : State) (b : Buffer) (n : Word) : (s.setLen b n).nnodes = s.nnodes := by
  cases b <;> rfl
@[simp] theorem setLen_ft (s : State) (b : Buffer) (n : Word) : (s.setLen b n).ft = s.ft := by
  cases b <;> rfl
@[simp] theorem setLen_tree (s : State) (b : Buffer) (n : Word) : (s.setLen b n).tree = s.tree := by
  cases b <;> rfl
@[simp] theorem setLen_ct (s : State) (b : Buffer) (n : Word) : (s.setLen b n).ct = s.ct := by
  cases b <;> rfl
@[simp] theorem setLen_sym (s : State) (b : Buffer) (n : Word) : (s.setLen b n).sym = s.sym := by
  cases b <;> rfl
@[simp] theorem setLen_bit (s : State) (b : Buffer) (n : Word) : (s.setLen b n).bit = s.bit := by
  cases b <;> rfl
@[simp] theorem setLen_art (s : State) (b : Buffer) (n : Word) : (s.setLen b n).art = s.art := by
  cases b <;> rfl
@[simp] theorem setLen_params (s : State) (b : Buffer) (n : Word) : (s.setLen b n).params = s.params := by
  cases b <;> rfl
@[simp] theorem setLen_epoch (s : State) (b : Buffer) (n : Word) : (s.setLen b n).epoch = s.epoch := by
  cases b <;> rfl
@[simp] theorem setLen_script (s : State) (b : Buffer) (n : Word) : (s.setLen b n).script = s.script := by
  cases b <;> rfl
@[simp] theorem setLen_responses (s : State) (b : Buffer) (n : Word) : (s.setLen b n).responses = s.responses := by
  cases b <;> rfl

/-! commitBuffer -/

@[simp] theorem commitBuffer_status (s : State) (b : Buffer) (out : List Byte) : (commitBuffer b out s).status = Status.success := by
  cases b <;> rfl
@[simp] theorem commitBuffer_sym_symlen (s : State) (out : List Byte) : (commitBuffer .sym out s).symlen = BitVec.ofNat 32 out.length := rfl
@[simp] theorem commitBuffer_bit_symlen (s : State) (out : List Byte) : (commitBuffer .bit out s).symlen = s.symlen := rfl
@[simp] theorem commitBuffer_art_symlen (s : State) (out : List Byte) : (commitBuffer .art out s).symlen = s.symlen := rfl
@[simp] theorem commitBuffer_sym_bitlen (s : State) (out : List Byte) : (commitBuffer .sym out s).bitlen = s.bitlen := rfl
@[simp] theorem commitBuffer_bit_bitlen (s : State) (out : List Byte) : (commitBuffer .bit out s).bitlen = BitVec.ofNat 32 out.length := rfl
@[simp] theorem commitBuffer_art_bitlen (s : State) (out : List Byte) : (commitBuffer .art out s).bitlen = s.bitlen := rfl
@[simp] theorem commitBuffer_sym_artlen (s : State) (out : List Byte) : (commitBuffer .sym out s).artlen = s.artlen := rfl
@[simp] theorem commitBuffer_bit_artlen (s : State) (out : List Byte) : (commitBuffer .bit out s).artlen = s.artlen := rfl
@[simp] theorem commitBuffer_art_artlen (s : State) (out : List Byte) : (commitBuffer .art out s).artlen = BitVec.ofNat 32 out.length := rfl
@[simp] theorem commitBuffer_root (s : State) (b : Buffer) (out : List Byte) : (commitBuffer b out s).root = s.root := by
  cases b <;> rfl
@[simp] theorem commitBuffer_nnodes (s : State) (b : Buffer) (out : List Byte) : (commitBuffer b out s).nnodes = s.nnodes := by
  cases b <;> rfl
@[simp] theorem commitBuffer_ft (s : State) (b : Buffer) (out : List Byte) : (commitBuffer b out s).ft = s.ft := by
  cases b <;> rfl
@[simp] theorem commitBuffer_tree (s : State) (b : Buffer) (out : List Byte) : (commitBuffer b out s).tree = s.tree := by
  cases b <;> rfl
@[simp] theorem commitBuffer_ct (s : State) (b : Buffer) (out : List Byte) : (commitBuffer b out s).ct = s.ct := by
  cases b <;> rfl
@[simp] theorem commitBuffer_sym_sym (s : State) (out : List Byte) : (commitBuffer .sym out s).sym = s.sym.writeSeq 0 out := rfl
@[simp] theorem commitBuffer_bit_sym (s : State) (out : List Byte) : (commitBuffer .bit out s).sym = s.sym := rfl
@[simp] theorem commitBuffer_art_sym (s : State) (out : List Byte) : (commitBuffer .art out s).sym = s.sym := rfl
@[simp] theorem commitBuffer_sym_bit (s : State) (out : List Byte) : (commitBuffer .sym out s).bit = s.bit := rfl
@[simp] theorem commitBuffer_bit_bit (s : State) (out : List Byte) : (commitBuffer .bit out s).bit = s.bit.writeSeq 0 out := rfl
@[simp] theorem commitBuffer_art_bit (s : State) (out : List Byte) : (commitBuffer .art out s).bit = s.bit := rfl
@[simp] theorem commitBuffer_sym_art (s : State) (out : List Byte) : (commitBuffer .sym out s).art = s.art := rfl
@[simp] theorem commitBuffer_bit_art (s : State) (out : List Byte) : (commitBuffer .bit out s).art = s.art := rfl
@[simp] theorem commitBuffer_art_art (s : State) (out : List Byte) : (commitBuffer .art out s).art = s.art.writeSeq 0 out := rfl
@[simp] theorem commitBuffer_params (s : State) (b : Buffer) (out : List Byte) : (commitBuffer b out s).params = s.params := by
  cases b <;> rfl
@[simp] theorem commitBuffer_epoch (s : State) (b : Buffer) (out : List Byte) : (commitBuffer b out s).epoch = s.epoch := by
  cases b <;> rfl
@[simp] theorem commitBuffer_script (s : State) (b : Buffer) (out : List Byte) : (commitBuffer b out s).script = s.script := by
  cases b <;> rfl
@[simp] theorem commitBuffer_responses (s : State) (b : Buffer) (out : List Byte) : (commitBuffer b out s).responses = s.responses := by
  cases b <;> rfl

/-! Buffers and length registers through their accessors -/

@[simp] theorem setBuffer_buffer (s : State) (b : Buffer) (m : Memory) : (s.setBuffer b m).buffer b = m := by
  cases b <;> rfl

theorem setBuffer_buffer_other (s : State) {b d : Buffer} (m : Memory) (h : d ≠ b) :
    (s.setBuffer b m).buffer d = s.buffer d := by
  cases b <;> cases d <;> simp_all [State.setBuffer, State.buffer]

@[simp] theorem setBuffer_len (s : State) (b d : Buffer) (m : Memory) : (s.setBuffer b m).len d = s.len d := by
  cases b <;> cases d <;> rfl

@[simp] theorem setLen_buffer (s : State) (b d : Buffer) (n : Word) : (s.setLen b n).buffer d = s.buffer d := by
  cases b <;> cases d <;> rfl

@[simp] theorem setLen_len (s : State) (b : Buffer) (n : Word) : (s.setLen b n).len b = n := by
  cases b <;> rfl

theorem setLen_len_other (s : State) {b d : Buffer} (n : Word) (h : d ≠ b) : (s.setLen b n).len d = s.len d := by
  cases b <;> cases d <;> simp_all [State.setLen, State.len]

@[simp] theorem commitBuffer_buffer (s : State) (b : Buffer) (out : List Byte) :
    (commitBuffer b out s).buffer b = (s.buffer b).writeSeq 0 out := by
  cases b <;> rfl

theorem commitBuffer_buffer_other (s : State) {b d : Buffer} (out : List Byte) (h : d ≠ b) :
    (commitBuffer b out s).buffer d = s.buffer d := by
  cases b <;> cases d <;> simp_all [commitBuffer, State.setBuffer, State.setLen, State.buffer]

@[simp] theorem commitBuffer_len (s : State) (b : Buffer) (out : List Byte) :
    (commitBuffer b out s).len b = BitVec.ofNat 32 out.length := by
  cases b <;> rfl

theorem commitBuffer_len_other (s : State) {b d : Buffer} (out : List Byte) (h : d ≠ b) :
    (commitBuffer b out s).len d = s.len d := by
  cases b <;> cases d <;> simp_all [commitBuffer, State.setBuffer, State.setLen, State.len]

/-! Reset -/

@[simp] theorem reset_buffer (b : Buffer) : State.reset.buffer b = [] := by cases b <;> rfl

@[simp] theorem reset_len (b : Buffer) : State.reset.len b = 0 := by cases b <;> rfl

end Sys2Proof.Machine
end

