-- ==== Sys2Proof/Laws/Memory.lean ====
section
/-! SUPPORT. The laws of the buffers: a read after a write, the canonical form kept by every write, the
elements a sequence write touches, and what a window reads. -/

namespace Sys2Proof.Machine

open Sys2Proof

/-! One element -/

theorem Memory.read?_write (m : Memory) (a k : Nat) (v : Byte) :
    (m.write a v).read? k = if k = a then some v else m.read? k := by
  induction m with
  | nil => simp [Memory.write, Memory.read?, eq_comm]
  | cons c m ih =>
    obtain ⟨i, w⟩ := c
    simp only [Memory.write]
    split
    · simp [Memory.read?, eq_comm]
    · split
      · subst_vars
        simp only [Memory.read?]
        split <;> simp_all [eq_comm]
      · simp only [Memory.read?, ih]
        by_cases hik : i = k
        · rw [if_pos hik, if_pos hik, if_neg (by omega)]
        · rw [if_neg hik, if_neg hik]

@[simp] theorem Memory.read?_write_same (m : Memory) (a : Nat) (v : Byte) :
    (m.write a v).read? a = some v := by simp [Memory.read?_write]

theorem Memory.read?_write_other (m : Memory) {a k : Nat} (v : Byte) (h : k ≠ a) :
    (m.write a v).read? k = m.read? k := by simp [Memory.read?_write, h]

/-- A write adds no index but its own. -/
theorem Memory.mem_write {m : Memory} {a : Nat} {v : Byte} {c : Host.Cell} (h : c ∈ m.write a v) :
    c = (a, v) ∨ c ∈ m := by
  induction m with
  | nil => simpa [Memory.write] using h
  | cons d m ih =>
    obtain ⟨i, w⟩ := d
    simp only [Memory.write] at h
    split at h
    · simpa using h
    · split at h
      · rcases List.mem_cons.1 h with h | h
        · exact .inl h
        · exact .inr (List.mem_cons_of_mem _ h)
      · rcases List.mem_cons.1 h with h | h
        · exact .inr (by simp [h])
        · rcases ih h with h | h
          · exact .inl h
          · exact .inr (List.mem_cons_of_mem _ h)

/-- Every write keeps the canonical form. -/
theorem Memory.wf_write {m : Memory} (h : m.wf) (a : Nat) (v : Byte) : (m.write a v).wf := by
  induction m with
  | nil => simp [Memory.write, Memory.wf]
  | cons c m ih =>
    obtain ⟨i, w⟩ := c
    have hhead := (List.pairwise_cons.1 h).1
    have htail := (List.pairwise_cons.1 h).2
    simp only [Memory.write]
    split
    · refine List.pairwise_cons.2 ⟨fun d hd => ?_, h⟩
      rcases List.mem_cons.1 hd with rfl | hd
      · assumption
      · exact lt_trans ‹_› (hhead d hd)
    · split
      · subst_vars
        exact List.pairwise_cons.2 ⟨hhead, htail⟩
      · refine List.pairwise_cons.2 ⟨fun d hd => ?_, ih htail⟩
        rcases Memory.mem_write hd with rfl | hd
        · show i < a
          omega
        · exact hhead d hd

/-! A sequence of elements -/

theorem Memory.read?_writeSeq (bs : List Byte) (m : Memory) (a k : Nat) :
    (m.writeSeq a bs).read? k =
      if a ≤ k ∧ k < a + bs.length then bs[k - a]? else m.read? k := by
  induction bs generalizing m a with
  | nil => simp [Memory.writeSeq]
  | cons b bs ih =>
    simp only [Memory.writeSeq, ih, Memory.read?_write, List.length_cons]
    by_cases hk : k = a
    · subst hk
      simp
    · by_cases hin : a + 1 ≤ k ∧ k < a + 1 + bs.length
      · have hs : k - a = (k - (a + 1)) + 1 := by omega
        rw [if_pos hin, if_pos (by omega), hs, List.getElem?_cons_succ]
      · rw [if_neg hin, if_neg hk, if_neg (by omega)]

theorem Memory.mem_writeSeq {bs : List Byte} {m : Memory} {a : Nat} {c : Host.Cell}
    (h : c ∈ m.writeSeq a bs) : (a ≤ c.1 ∧ c.1 < a + bs.length) ∨ c ∈ m := by
  induction bs generalizing m a with
  | nil => exact .inr h
  | cons b bs ih =>
    rcases ih h with hin | hm
    · exact .inl (by simp only [List.length_cons]; omega)
    · rcases Memory.mem_write hm with rfl | hm
      · exact .inl (by simp only [List.length_cons]; omega)
      · exact .inr hm

theorem Memory.wf_writeSeq (bs : List Byte) {m : Memory} (h : m.wf) (a : Nat) : (m.writeSeq a bs).wf := by
  induction bs generalizing m a with
  | nil => exact h
  | cons b bs ih => exact ih (Memory.wf_write h a b) (a + 1)

/-! Reads through the state -/

/-- What a commit to a buffer leaves in every element of every buffer (R77, R78). -/
theorem commitBuffer_readBuf (b d : Buffer) (out : List Byte) (s : State) (i : Nat) :
    (commitBuffer b out s).readBuf d i =
      if d = b ∧ i < out.length then out.getD i 0 else s.readBuf d i := by
  by_cases hd : d = b
  · subst hd
    by_cases hi : i < out.length
    · simp [State.readBuf, Memory.read?_writeSeq, hi]
    · simp [State.readBuf, Memory.read?_writeSeq, hi]
  · simp [State.readBuf, hd, commitBuffer_buffer_other s out hd]

/-- The window after a commit is the output, when its length fits a length register (R77). -/
theorem commitBuffer_window (b : Buffer) (out : List Byte) (s : State) (h : out.length < 2 ^ 32) :
    (commitBuffer b out s).window b = out := by
  have hlen : (BitVec.ofNat 32 out.length).toNat = out.length := by
    simp only [BitVec.toNat_ofNat]; omega
  refine List.ext_getElem (by simp [State.window, hlen]) fun i h₁ h₂ => ?_
  simp [State.window, commitBuffer_readBuf, h₂]

@[simp] theorem window_length (s : State) (b : Buffer) : (s.window b).length = (s.len b).toNat := by
  simp [State.window]

theorem window_getElem? (s : State) (b : Buffer) (i : Nat) :
    (s.window b)[i]? = if i < (s.len b).toNat then some (s.readBuf b i) else none := by
  by_cases h : i < (s.len b).toNat <;> simp [State.window, h]

end Sys2Proof.Machine
end

