-- ==== Sys2Proof/Laws/Ops.lean ====
section
/-! SUPPORT. The stores of fixed size, the formats, how a command ends, and what a step can do. -/

namespace Sys2Proof.Machine

open Sys2Proof

/-! Stores of fixed size -/

theorem tabulate_getElem {α : Type} (n : Nat) (f : Nat → α) (k : Nat) (h : k < n) :
    (tabulate n f)[k] = f k := by simp [tabulate]

theorem slot_tabulate (f : Nat → Node) (k : Nat) :
    slot (tabulate 511 f) k = if k < 511 then f k else .free := by
  by_cases h : k < 511 <;> simp [slot, tabulate, h]

/-- What BUILD's commit leaves in each slot (R130). -/
theorem commitTree_slot (ns : List Node) (s : State) (k : Nat) :
    slot (commitTree ns s).tree k = if k < 511 then ns.getD k .free else .free := by
  simp [slot_tabulate]

theorem nodeAt_nil (t : TreeStore) : nodeAt t Config.nil = .free := by
  simp [nodeAt, slot, Config.nil]

theorem countOf_setCount (t : FreqTable) (x y : Symbol) (v : Word) :
    countOf (setCount t x v) y = if y = x then v else countOf t y := by
  simp only [countOf, setCount, Vector.getElem_set, BitVec.toNat_inj, eq_comm]

theorem codeOf_setCode (t : CodeTable) (x y : Symbol) (c : Code) :
    codeOf (setCode t x c) y = if y = x then c else codeOf t y := by
  simp only [codeOf, setCode, Vector.getElem_set, BitVec.toNat_inj, eq_comm]

@[simp] theorem codeOf_emptyCodes (x : Symbol) : codeOf emptyCodes x = [] := by
  simp [codeOf, emptyCodes]

@[simp] theorem countOf_zero (x : Symbol) : countOf (Vector.replicate 256 0) x = 0 := by
  simp [countOf]

theorem codeTable_ext {t u : CodeTable} (h : ∀ x, codeOf t x = codeOf u x) : t = u := by
  refine Vector.ext fun i hi => ?_
  have := h (BitVec.ofNat 8 i)
  simpa [codeOf, Nat.mod_eq_of_lt hi] using this

theorem freqTable_ext {t u : FreqTable} (h : ∀ x, countOf t x = countOf u x) : t = u := by
  refine Vector.ext fun i hi => ?_
  have := h (BitVec.ofNat 8 i)
  simpa [countOf, Nat.mod_eq_of_lt hi] using this

/-! The symbols -/

theorem mem_allSymbols (x : Symbol) : x ∈ allSymbols :=
  List.mem_map.2 ⟨x.toNat, List.mem_range.2 x.isLt, by simp⟩

theorem allSymbols_sorted : allSymbols.Pairwise (fun x y => x.toNat < y.toNat) := by
  refine List.pairwise_map.2 (List.Pairwise.imp_of_mem ?_ List.pairwise_lt_range)
  intro i j hi hj hij
  have := List.mem_range.1 hi
  have := List.mem_range.1 hj
  simp only [BitVec.toNat_ofNat]
  omega

theorem allSymbols_nodup : allSymbols.Nodup :=
  allSymbols_sorted.imp (fun h heq => by simp [heq] at h)

/-! Formats -/

@[simp] theorem byteBit_bitByte (v : Bool) : byteBit (bitByte v) = some v := by cases v <;> rfl

theorem byteBit_eq_some {b : Byte} {v : Bool} (h : byteBit b = some v) : b = bitByte v := by
  unfold byteBit at h
  split at h
  · cases h; simpa [bitByte] using ‹_›
  · split at h
    · cases h; simpa [bitByte] using ‹_›
    · cases h

theorem byteBit_eq_none_iff (b : Byte) : byteBit b = none ↔ b ≠ 0x30 ∧ b ≠ 0x31 := by
  unfold byteBit
  split <;> simp_all

@[simp] theorem byteBit_lineFeed : byteBit lineFeed = none := rfl

/-- An entry is |c| + 3 bytes (R99). -/
@[simp] theorem entryBytes_length (x : Symbol) (c : Code) : (entryBytes x c).length = c.length + 3 := by
  simp [entryBytes]

/-! How a command ends -/

/-- A command raises its error or commits its result, and nothing else (R77, R232). -/
theorem conclude_next {α : Type} {r : Except Err α} {commit : α → State → State} {s t : State}
    (h : conclude r commit s = .next t) :
    (∃ e, r = .error e ∧ t = raise e s) ∨ (∃ a, r = .ok a ∧ t = commit a s) := by
  cases r with
  | error e => exact .inl ⟨e, rfl, by simpa [conclude] using h.symm⟩
  | ok a => exact .inr ⟨a, rfl, by simpa [conclude] using h.symm⟩

@[simp] theorem conclude_ok {α : Type} (a : α) (commit : α → State → State) (s : State) :
    conclude (.ok a) commit s = .next (commit a s) := rfl

@[simp] theorem conclude_error {α : Type} (e : Err) (commit : α → State → State) (s : State) :
    conclude (.error e) commit s = .next (raise e s) := rfl

/-- Every command ends in one of its commits or in an error (R93, R232). -/
theorem exec_cases {i : Instr} {s t : State} (h : exec i s = .next t) :
    (∃ e, i ≠ .freq ∧ i ≠ .gen ∧ t = raise e s) ∨
    (i = .freq ∧ t = commitFreq (tally (s.window .sym)) s) ∨
    (i = .build ∧ ∃ ns, buildNodes s.ft = .ok ns ∧ t = commitTree ns s) ∨
    (i = .gen ∧ t = commitCodes (genCodes s.tree s.root) s) ∨
    (i = .enc ∧ ∃ out, encLoop s.ct s.params.bitCap (s.window .sym) [] = .ok out ∧
      t = commitBuffer .bit (out.map bitByte) s) ∨
    (i = .dect ∧ ∃ out, dectLoop s.tree s.root s.params.symCap (s.window .bit) s.root [] = .ok out ∧
      t = commitBuffer .sym out s) ∨
    (i = .decp ∧ ∃ out, decpLoop s.ct s.params.symCap (s.window .bit) [] [] = .ok out ∧
      t = commitBuffer .sym out s) ∨
    (i = .ser ∧ ∃ out, serLoop s.ct s.params.artCap allSymbols [] = .ok out ∧
      t = commitBuffer .art out s) ∨
    (i = .deser ∧ ∃ u, deserLoop (s.window .art) .symbol emptyCodes = .ok u ∧
      t = commitCodes u s) := by
  have fails : ∀ {α : Type} {r : Except Err α} {commit : α → State → State},
      conclude r commit s = .next t → (∃ e, t = raise e s) ∨ ∃ a, r = .ok a ∧ t = commit a s :=
    fun hc => (conclude_next hc).imp (fun ⟨e, _, ht⟩ => ⟨e, ht⟩) id
  cases i with
  | freq =>
    obtain rfl : commitFreq (tally (s.window .sym)) s = t := by
      simpa only [exec, execFreq, conclude_ok, Host.Outcome.next.injEq] using h
    exact .inr (.inl ⟨rfl, rfl⟩)
  | build =>
    simp only [exec, execBuild] at h
    rcases fails h with ⟨e, ht⟩ | hok
    · exact .inl ⟨e, nofun, nofun, ht⟩
    · exact .inr (.inr (.inl ⟨rfl, hok⟩))
  | gen =>
    obtain rfl : commitCodes (genCodes s.tree s.root) s = t := by
      simpa only [exec, execGen, conclude_ok, Host.Outcome.next.injEq] using h
    exact .inr (.inr (.inr (.inl ⟨rfl, rfl⟩)))
  | enc =>
    simp only [exec, execEnc] at h
    rcases fails h with ⟨e, ht⟩ | hok
    · exact .inl ⟨e, nofun, nofun, ht⟩
    · exact .inr (.inr (.inr (.inr (.inl ⟨rfl, hok⟩))))
  | dect =>
    simp only [exec, execDect] at h
    rcases fails h with ⟨e, ht⟩ | hok
    · exact .inl ⟨e, nofun, nofun, ht⟩
    · exact .inr (.inr (.inr (.inr (.inr (.inl ⟨rfl, hok⟩)))))
  | decp =>
    simp only [exec, execDecp] at h
    rcases fails h with ⟨e, ht⟩ | hok
    · exact .inl ⟨e, nofun, nofun, ht⟩
    · exact .inr (.inr (.inr (.inr (.inr (.inr (.inl ⟨rfl, hok⟩))))))
  | ser =>
    simp only [exec, execSer] at h
    rcases fails h with ⟨e, ht⟩ | hok
    · exact .inl ⟨e, nofun, nofun, ht⟩
    · exact .inr (.inr (.inr (.inr (.inr (.inr (.inr (.inl ⟨rfl, hok⟩)))))))
  | deser =>
    simp only [exec, execDeser] at h
    rcases fails h with ⟨e, ht⟩ | hok
    · exact .inl ⟨e, nofun, nofun, ht⟩
    · exact .inr (.inr (.inr (.inr (.inr (.inr (.inr (.inr ⟨rfl, hok⟩)))))))

/-- A command leaves the parameters, the script and the transcript as they are. -/
theorem exec_keeps_host {i : Instr} {s t : State} (h : exec i s = .next t) :
    t.params = s.params ∧ t.epoch = s.epoch ∧ t.script = s.script ∧ t.responses = s.responses := by
  rcases exec_cases h with ⟨_, -, -, rfl⟩ | ⟨-, rfl⟩ | ⟨-, _, -, rfl⟩ | ⟨-, rfl⟩ | ⟨-, _, -, rfl⟩ |
    ⟨-, _, -, rfl⟩ | ⟨-, _, -, rfl⟩ | ⟨-, _, -, rfl⟩ | ⟨-, _, -, rfl⟩ <;> simp

/-! The host's accesses -/

/-- What an accepted host write is and changes: CMD stores nothing, a length register, an element of a
buffer, or an entry of FT (R63, R65). -/
theorem hostWrite_cases {s t : State} {space i v : Nat} (h : hostWrite s space i v = .ok t) :
    (space = 0 ∧ i = 0 ∧ v < 2 ^ 32 ∧ t = s) ∨
    (∃ b : Buffer, space = 0 ∧ i = lenCsr b ∧ v ≤ s.params.cap b ∧ v < 2 ^ 32 ∧
      t = s.setLen b (BitVec.ofNat 32 v)) ∨
    (∃ b : Buffer, space = spaceId b ∧ i < s.params.cap b ∧ v < 256 ∧
      t = s.setBuffer b ((s.buffer b).write i (BitVec.ofNat 8 v))) ∨
    (space = 4 ∧ i < 256 ∧ v < 2 ^ 32 ∧
      t = { s with ft := setCount s.ft (BitVec.ofNat 8 i) (BitVec.ofNat 32 v) }) := by
  have len : ∀ b, writeLen s b v = .ok t →
      v ≤ s.params.cap b ∧ v < 2 ^ 32 ∧ t = s.setLen b (BitVec.ofNat 32 v) := by
    intro b hb
    unfold writeLen at hb
    split at hb
    · split at hb
      · cases hb
        exact ⟨‹_›, ‹_›, rfl⟩
      · cases hb
    · cases hb
  unfold hostWrite at h
  split at h
  · unfold writeCsr at h
    split at h
    · split at h <;> cases h
      exact .inl ⟨rfl, rfl, ‹_›, rfl⟩
    · cases h
    · exact .inr (.inl ⟨.sym, rfl, rfl, len _ h⟩)
    · exact .inr (.inl ⟨.bit, rfl, rfl, len _ h⟩)
    · exact .inr (.inl ⟨.art, rfl, rfl, len _ h⟩)
    · cases h
    · cases h
    · cases h
  · unfold writeCount at h
    split at h
    · split at h <;> cases h
      exact .inr (.inr (.inr ⟨rfl, ‹_›, ‹_›, rfl⟩))
    · cases h
  · split at h <;> cases h
  · split at h
    · next b hb =>
      unfold writeElement at h
      split at h
      · split at h <;> cases h
        refine .inr (.inr (.inl ⟨b, ?_, ‹_›, ‹_›, rfl⟩))
        unfold bufferOfSpace at hb
        split at hb <;> cases hb <;> rfl
      · cases h
    · cases h

/-- Everything a host access other than a command can do to the state (R62 to R64, R250). -/
theorem hostAccess_cases (t : Transaction) (s : State) :
    (∃ r, hostAccess t s = respond r s) ∨
    (t = .reset ∧ hostAccess t s = respond .done (resetBlock s)) ∨
    (∃ space i v u, t = .hwr space i v ∧ hostWrite s space i v = .ok u ∧
      hostAccess t s = respond .done u) := by
  cases t with
  | hrd space i =>
    cases h : hostRead s space i with
    | ok r => exact .inl ⟨r, by simp [hostAccess, h]⟩
    | error why => exact .inl ⟨.refused why, by simp [hostAccess, h]⟩
  | hwr space i v =>
    cases h : hostWrite s space i v with
    | ok u => exact .inr (.inr ⟨space, i, v, u, rfl, h, by simp [hostAccess, h]⟩)
    | error why => exact .inl ⟨.refused why, by simp [hostAccess, h]⟩
  | reset => exact .inr (.inl ⟨rfl, rfl⟩)

/-! A step -/

/-- A transaction writes a word to CMD in one way only (R22). -/
theorem commandWord_eq_some {t : Transaction} {w : Word} (h : commandWord t = some w) :
    t = .hwr 0 0 w.toNat := by
  unfold commandWord at h
  split at h
  · split at h
    · cases h
      rename_i v hv
      simp only [BitVec.toNat_ofNat]
      rw [Nat.mod_eq_of_lt hv]
    · cases h
  · cases h

@[simp] theorem commandWord_commandWrite (w : Word) : commandWord (commandWrite w) = some w := by
  simp [commandWord, commandWrite, w.isLt]

@[simp] theorem complete_next (s : State) : complete (.next s) = .next (respond .done s) := rfl

/-- Everything a step can do: nothing, a host access, an illegal word, or a command. -/
theorem step_cases {s t : State} (h : step s = .next t) :
    (s.script = [] ∧ t = s) ∨
    ∃ tr rest, s.script = tr :: rest ∧
      ((commandWord tr = none ∧ t = hostAccess tr (takeTransaction rest s)) ∨
       (∃ w why, commandWord tr = some w ∧ decode w = .error why ∧
         t = illegalCommand (takeTransaction rest s)) ∨
       (∃ w i u, commandWord tr = some w ∧ decode w = .ok i ∧
         exec i (takeTransaction rest s) = .next u ∧ t = respond .done u)) := by
  unfold step at h
  split at h
  · next hs => exact .inl ⟨hs, by simpa using h.symm⟩
  · next tr rest hs =>
    refine .inr ⟨tr, rest, hs, ?_⟩
    split at h
    · next hc => exact .inl ⟨hc, by simpa using h.symm⟩
    · next w hc =>
      split at h
      · next i hd =>
        refine .inr (.inr ⟨w, i, ?_⟩)
        cases hx : exec i (takeTransaction rest s) with
        | next u => exact ⟨u, hc, hd, rfl, by simpa [hx] using h.symm⟩
        | fault r => cases r
        | refused r => simp [hx, complete] at h
      · next why hd => exact .inr (.inl ⟨w, why, hc, hd, by simpa using h.symm⟩)

end Sys2Proof.Machine
end

