-- ==== Sys2Proof/Laws/TreePaths.lean ====
section
/-! SUPPORT. Paths in a proper tree of R34: every record is reached from the root by exactly one path,
paths end at Leaves, and they are short. -/

namespace Sys2Proof.Machine

open Sys2Proof

theorem nodeAt_eq_slot (t : TreeStore) (k : NodeIdx) : nodeAt t k = slot t k.toNat := rfl

theorem slot_of_ge {t : TreeStore} {k : Nat} (h : 511 ≤ k) : slot t k = .free := by
  have : ¬ k < 511 := by omega
  simp [slot, this]

theorem Node.eq_internal {n : Node} (h : n.isInternal = true) :
    n = .internal n.freq n.left n.right := by
  cases n <;> simp_all [Node.isInternal, Node.freq, Node.left, Node.right]

theorem Node.eq_leaf {n : Node} (h : n.isLeaf = true) : n = .leaf n.sym n.freq := by
  cases n <;> simp_all [Node.isLeaf, Node.freq, Node.sym]

theorem Node.not_internal_of_leaf {n : Node} (h : n.isLeaf = true) : n.isInternal = false := by
  cases n <;> simp_all [Node.isLeaf, Node.isInternal]

theorem mem_parentsBelow {t : TreeStore} {bound j k : Nat} :
    k ∈ parentsBelow t bound j ↔ k < bound ∧ (slot t k).isInternal = true ∧
      ((slot t k).left.toNat = j ∨ (slot t k).right.toNat = j) := by
  simp [parentsBelow]

namespace ProperTree

variable {t : TreeStore} {root : NodeIdx} {nnodes : BitVec 9} {leaves : Nat}

theorem two_le (h : ProperTree t root nnodes leaves) : 2 ≤ leaves := h.1

theorem le_256 (h : ProperTree t root nnodes leaves) : leaves ≤ 256 := h.2.1

theorem root_eq (h : ProperTree t root nnodes leaves) : root.toNat = 2 * leaves - 2 := h.2.2.2.1

theorem leaf (h : ProperTree t root nnodes leaves) {k : Nat} (hk : k < leaves) :
    (slot t k).isLeaf = true := (h.2.2.2.2.1 k hk).1

theorem ascending (h : ProperTree t root nnodes leaves) {i j : Nat} (hij : i < j) (hj : j < leaves) :
    (slot t i).sym.toNat < (slot t j).sym.toNat := h.2.2.2.2.2.1 j hj i hij

theorem inner (h : ProperTree t root nnodes leaves) {k : Nat} (h1 : leaves ≤ k)
    (h2 : k < 2 * leaves - 1) :
    (slot t k).isInternal = true ∧ (slot t k).left.toNat < k ∧ (slot t k).right.toNat < k ∧
    (slot t k).left ≠ (slot t k).right ∧
    (slot t k).freq.toNat =
      (nodeAt t (slot t k).left).freq.toNat + (nodeAt t (slot t k).right).freq.toNat :=
  h.2.2.2.2.2.2.1 k h2 h1

theorem oneParent (h : ProperTree t root nnodes leaves) {j : Nat} (hj : j < 2 * leaves - 2) :
    (parentsBelow t 511 j).length = 1 := h.2.2.2.2.2.2.2.1 j hj

theorem free (h : ProperTree t root nnodes leaves) {k : Nat} (hk : 2 * leaves - 1 ≤ k) :
    slot t k = .free := by
  by_cases h511 : k < 511
  · exact h.2.2.2.2.2.2.2.2.2 k h511 hk
  · exact slot_of_ge (by omega)

/-- The Internal records are exactly those of slots L to 2L − 2. -/
theorem internal_iff (h : ProperTree t root nnodes leaves) (k : Nat) :
    (slot t k).isInternal = true ↔ leaves ≤ k ∧ k < 2 * leaves - 1 := by
  constructor
  · intro hk
    by_contra hno
    by_cases hl : k < leaves
    · simp [Node.not_internal_of_leaf (h.leaf hl)] at hk
    · simp [h.free (k := k) (by omega), Node.isInternal] at hk
  · intro hk
    exact (h.inner hk.1 hk.2).1

theorem leaf_iff (h : ProperTree t root nnodes leaves) (k : Nat) :
    (slot t k).isLeaf = true ↔ k < leaves := by
  refine ⟨fun hk => ?_, fun hk => h.leaf hk⟩
  by_contra hno
  by_cases hi : k < 2 * leaves - 1
  · have := (h.inner (by omega) hi).1
    simp [Node.not_internal_of_leaf hk] at this
  · simp [h.free (k := k) (by omega), Node.isLeaf] at hk

theorem root_inner (h : ProperTree t root nnodes leaves) : (nodeAt t root).isInternal = true := by
  have := h.two_le
  exact (h.internal_iff _).2 (by rw [h.root_eq]; omega)

theorem root_ne_nil (h : ProperTree t root nnodes leaves) : root ≠ Config.nil := by
  have := h.le_256
  have hr := h.root_eq
  rintro rfl
  simp [Config.nil] at hr
  omega

/-- A record of slot below 2L − 1 is a Leaf or an Internal record, and its index is not NIL. -/
theorem used (h : ProperTree t root nnodes leaves) {k : NodeIdx} (hk : k.toNat < 2 * leaves - 1) :
    k ≠ Config.nil ∧ nodeAt t k ≠ .free := by
  have := h.le_256
  refine ⟨?_, ?_⟩
  · rintro rfl
    simp [Config.nil] at hk
    omega
  · intro hf
    by_cases hl : k.toNat < leaves
    · have := h.leaf hl
      rw [← nodeAt_eq_slot, hf] at this
      simp [Node.isLeaf] at this
    · have := (h.inner (by omega) hk).1
      rw [← nodeAt_eq_slot, hf] at this
      simp [Node.isInternal] at this

/-- Both children of an Internal record exist (R174's test never fires, R34). -/
theorem children_used (h : ProperTree t root nnodes leaves) (k : NodeIdx)
    (hk : (nodeAt t k).isInternal = true) :
    ((nodeAt t k).left ≠ Config.nil ∧ nodeAt t (nodeAt t k).left ≠ .free) ∧
    ((nodeAt t k).right ≠ Config.nil ∧ nodeAt t (nodeAt t k).right ≠ .free) := by
  obtain ⟨h1, h2⟩ := (h.internal_iff _).1 hk
  obtain ⟨-, hl, hr, -, -⟩ := h.inner h1 h2
  exact ⟨h.used (by rw [nodeAt_eq_slot]; omega), h.used (by rw [nodeAt_eq_slot]; omega)⟩

end ProperTree

/-! Paths -/

theorem PathTo.append {t : TreeStore} {k m n : NodeIdx} {c d : Code} (h1 : PathTo t k c m)
    (h2 : PathTo t m d n) : PathTo t k (c ++ d) n := by
  induction h1 with
  | here => exact h2
  | left inner _ ih => exact .left inner (ih h2)
  | right inner _ ih => exact .right inner (ih h2)

/-- Where a path leads is determined, and a longer path goes on from there. -/
theorem PathTo.split {t : TreeStore} {k m n : NodeIdx} {c d : Code} (h1 : PathTo t k c m)
    (h2 : PathTo t k (c ++ d) n) : PathTo t m d n := by
  induction h1 with
  | here => exact h2
  | left _ _ ih => cases h2 with | left _ rest => exact ih rest
  | right _ _ ih => cases h2 with | right _ rest => exact ih rest

theorem PathTo.unique_end {t : TreeStore} {k m n : NodeIdx} {c : Code} (h1 : PathTo t k c m)
    (h2 : PathTo t k c n) : m = n := by
  have := PathTo.split (d := []) h1 (by simpa using h2)
  cases this
  rfl

/-- A path from a record that is not Internal is empty. -/
theorem PathTo.of_not_inner {t : TreeStore} {k m : NodeIdx} {c : Code} (h : PathTo t k c m)
    (hk : (nodeAt t k).isInternal = false) : c = [] ∧ m = k := by
  cases h with
  | here => exact ⟨rfl, rfl⟩
  | left inner _ => simp [hk] at inner
  | right inner _ => simp [hk] at inner

/-- The codes of two Leaves, one a prefix of the other, are the code of one Leaf (R156 (c)). -/
theorem LeafPath.eq_of_prefix {t : TreeStore} {root : NodeIdx} {x y : Symbol} {c d : Code}
    (hx : LeafPath t root x c) (hy : LeafPath t root y d) (hcd : c <+: d) : x = y ∧ c = d := by
  obtain ⟨k, f, hk, hkl⟩ := hx
  obtain ⟨m, g, hm, hml⟩ := hy
  obtain ⟨e, rfl⟩ := hcd
  obtain ⟨rfl, rfl⟩ := (hk.split hm).of_not_inner (by simp [hkl, Node.isInternal])
  rw [hkl] at hml
  cases hml
  exact ⟨rfl, by simp⟩

section

variable {t : TreeStore} {root : NodeIdx} {nnodes : BitVec 9} {leaves : Nat}

/-- Paths go down in index order, and stay among the used records. -/
theorem PathTo.index_le (h : ProperTree t root nnodes leaves) {k m : NodeIdx} {c : Code}
    (hp : PathTo t k c m) (hk : k.toNat < 2 * leaves - 1) :
    m.toNat ≤ k.toNat ∧ (c ≠ [] → m.toNat < k.toNat) := by
  induction hp with
  | here => simp
  | left inner _ ih =>
    obtain ⟨h1, h2⟩ := (h.internal_iff _).1 inner
    have := (h.inner h1 h2).2.1
    rw [nodeAt_eq_slot] at ih
    have := ih (by omega)
    exact ⟨by omega, fun _ => by omega⟩
  | right inner _ ih =>
    obtain ⟨h1, h2⟩ := (h.internal_iff _).1 inner
    have := (h.inner h1 h2).2.2.1
    rw [nodeAt_eq_slot] at ih
    have := ih (by omega)
    exact ⟨by omega, fun _ => by omega⟩

/-- A path from an Internal record k has at most k − L + 1 bits (R156 (b)). -/
theorem PathTo.length_le (h : ProperTree t root nnodes leaves) {k m : NodeIdx} {c : Code}
    (hp : PathTo t k c m) (hk : (nodeAt t k).isInternal = true) :
    c.length + leaves ≤ k.toNat + 1 := by
  have child : ∀ {k n m : NodeIdx} {c : Code}, (nodeAt t k).isInternal = true → n.toNat < k.toNat →
      PathTo t n c m → ((nodeAt t n).isInternal = true → c.length + leaves ≤ n.toNat + 1) →
      c.length + 1 + leaves ≤ k.toNat + 1 := by
    intro k n m c hk hn hp ih
    have hk' := ((h.internal_iff _).1 hk).1
    cases hi : (nodeAt t n).isInternal with
    | true => have := ih hi; omega
    | false =>
      obtain ⟨rfl, -⟩ := hp.of_not_inner hi
      simp; omega
  induction hp with
  | here => have := ((h.internal_iff _).1 hk).1; simp; omega
  | left inner rest ih =>
    obtain ⟨h1, h2⟩ := (h.internal_iff _).1 inner
    simpa using child inner (h.inner h1 h2).2.1 rest ih
  | right inner rest ih =>
    obtain ⟨h1, h2⟩ := (h.internal_iff _).1 inner
    simpa using child inner (h.inner h1 h2).2.2.1 rest ih

/-- Every path that is not empty has a last step, from the one Internal record that is the parent. -/
theorem PathTo.last_step {k m : NodeIdx} {c : Code} (hp : PathTo t k c m) (hc : c ≠ []) :
    ∃ p d v, c = d ++ [v] ∧ PathTo t k d p ∧ (nodeAt t p).isInternal = true ∧
      (if v then (nodeAt t p).right else (nodeAt t p).left) = m := by
  induction hp with
  | here => exact absurd rfl hc
  | @left k m c inner rest ih =>
    by_cases hc' : c = []
    · subst hc'
      cases rest
      exact ⟨k, [], false, rfl, .here k, inner, rfl⟩
    · obtain ⟨p, d, v, rfl, h1, h2, h3⟩ := ih hc'
      exact ⟨p, false :: d, v, rfl, .left inner h1, h2, h3⟩
  | @right k m c inner rest ih =>
    by_cases hc' : c = []
    · subst hc'
      cases rest
      exact ⟨k, [], true, rfl, .here k, inner, rfl⟩
    · obtain ⟨p, d, v, rfl, h1, h2, h3⟩ := ih hc'
      exact ⟨p, true :: d, v, rfl, .right inner h1, h2, h3⟩

/-- The one parent of a record below the root (R34). -/
theorem ProperTree.parent_unique (h : ProperTree t root nnodes leaves) {p q m : NodeIdx} {v w : Bool}
    (hp : (nodeAt t p).isInternal = true) (hq : (nodeAt t q).isInternal = true)
    (hpm : (if v then (nodeAt t p).right else (nodeAt t p).left) = m)
    (hqm : (if w then (nodeAt t q).right else (nodeAt t q).left) = m) : p = q ∧ v = w := by
  have := h.le_256
  have bounds := fun k => (h.internal_iff k).1
  have mem : ∀ {p : NodeIdx} {v : Bool}, (nodeAt t p).isInternal = true →
      (if v then (nodeAt t p).right else (nodeAt t p).left) = m →
      p.toNat ∈ parentsBelow t 511 m.toNat ∧ m.toNat < 2 * leaves - 2 := by
    intro p v hp hpm
    obtain ⟨h1, h2⟩ := bounds _ hp
    obtain ⟨-, hl, hr, -, -⟩ := h.inner h1 h2
    refine ⟨mem_parentsBelow.2 ⟨by omega, hp, ?_⟩, ?_⟩
    · cases v
      · exact .inl (congrArg BitVec.toNat hpm)
      · exact .inr (congrArg BitVec.toNat hpm)
    · rw [← nodeAt_eq_slot] at hl hr
      cases v
      · simp only [Bool.false_eq_true, if_false] at hpm; rw [← hpm]; omega
      · simp only [if_true] at hpm; rw [← hpm]; omega
  obtain ⟨hpmem, hm⟩ := mem hp hpm
  obtain ⟨hqmem, -⟩ := mem hq hqm
  obtain ⟨r, hr⟩ := List.length_eq_one_iff.1 (h.oneParent hm)
  rw [hr] at hpmem hqmem
  have hpq : p = q := BitVec.eq_of_toNat_eq
    ((List.mem_singleton.1 hpmem).trans (List.mem_singleton.1 hqmem).symm)
  subst hpq
  refine ⟨rfl, ?_⟩
  obtain ⟨h1, h2⟩ := bounds _ hp
  have hne := (h.inner h1 h2).2.2.2.1
  rw [← nodeAt_eq_slot] at hne
  cases v <;> cases w <;> simp_all

/-- Every record has at most one path from the root (R34: "by exactly one path"). -/
theorem PathTo.unique_path (h : ProperTree t root nnodes leaves) {m : NodeIdx} {c d : Code}
    (hc : PathTo t root c m) (hd : PathTo t root d m) : c = d := by
  have hroot : root.toNat < 2 * leaves - 1 := by have := h.two_le; rw [h.root_eq]; omega
  induction hn : c.length generalizing c d m with
  | zero =>
    obtain rfl := List.length_eq_zero_iff.1 hn
    cases hc
    by_contra hne
    have := (hd.index_le h hroot).2 (Ne.symm hne)
    omega
  | succ n ih =>
    have hcne : c ≠ [] := by rintro rfl; simp at hn
    have hdne : d ≠ [] := by
      rintro rfl
      cases hd
      have := (hc.index_le h hroot).2 hcne
      omega
    obtain ⟨p, c', v, rfl, hp1, hp2, hp3⟩ := hc.last_step hcne
    obtain ⟨q, d', w, rfl, hq1, hq2, hq3⟩ := hd.last_step hdne
    obtain ⟨rfl, rfl⟩ := h.parent_unique hp2 hq2 hp3 hq3
    rw [ih hp1 hq1 (by simpa using hn)]

/-- Every used record is reached from the root (R34). -/
theorem ProperTree.reached (h : ProperTree t root nnodes leaves) (m : NodeIdx)
    (hm : m.toNat ≤ 2 * leaves - 2) : ∃ c, PathTo t root c m := by
  have hL := h.le_256
  induction hn : 2 * leaves - 2 - m.toNat using Nat.strong_induction_on generalizing m with
  | _ n ih =>
    by_cases hroot : m.toNat = 2 * leaves - 2
    · obtain rfl : root = m := BitVec.eq_of_toNat_eq (by rw [h.root_eq, hroot])
      exact ⟨[], .here _⟩
    · obtain ⟨p, hp⟩ := List.length_eq_one_iff.1 (h.oneParent (j := m.toNat) (by omega))
      have hpm : p ∈ parentsBelow t 511 m.toNat := by simp [hp]
      obtain ⟨h511, hpi, hch⟩ := mem_parentsBelow.1 hpm
      obtain ⟨h1, h2⟩ := (h.internal_iff _).1 hpi
      obtain ⟨-, hl, hr, -, -⟩ := h.inner h1 h2
      have hpn : (BitVec.ofNat 9 p).toNat = p := by simp; omega
      have hat : nodeAt t (BitVec.ofNat 9 p) = slot t p := by rw [nodeAt_eq_slot, hpn]
      obtain ⟨c, hc⟩ := ih (2 * leaves - 2 - p) (by omega) (BitVec.ofNat 9 p) (by omega) (by rw [hpn])
      rcases hch with hch | hch
      · have hlm : (nodeAt t (BitVec.ofNat 9 p)).left = m := BitVec.eq_of_toNat_eq (by rw [hat, hch])
        exact ⟨c ++ [false], hc.append (.left (by rw [hat]; exact hpi) (hlm ▸ .here _))⟩
      · have hrm : (nodeAt t (BitVec.ofNat 9 p)).right = m := BitVec.eq_of_toNat_eq (by rw [hat, hch])
        exact ⟨c ++ [true], hc.append (.right (by rw [hat]; exact hpi) (hrm ▸ .here _))⟩

/-- A symbol has at most one path to a Leaf of its own. -/
theorem LeafPath.unique (h : ProperTree t root nnodes leaves) {x : Symbol} {c d : Code}
    (hc : LeafPath t root x c) (hd : LeafPath t root x d) : c = d := by
  obtain ⟨k, f, hk, hkl⟩ := hc
  obtain ⟨m, g, hm, hml⟩ := hd
  have hk' := (h.leaf_iff k.toNat).1 (by rw [← nodeAt_eq_slot, hkl]; rfl)
  have hm' := (h.leaf_iff m.toNat).1 (by rw [← nodeAt_eq_slot, hml]; rfl)
  have hkm : k.toNat = m.toNat := by
    rcases Nat.lt_trichotomy k.toNat m.toNat with hlt | heq | hlt
    · have := h.ascending hlt hm'
      rw [← nodeAt_eq_slot, ← nodeAt_eq_slot, hkl, hml] at this
      simp [Node.sym] at this
    · exact heq
    · have := h.ascending hlt hk'
      rw [← nodeAt_eq_slot, ← nodeAt_eq_slot, hkl, hml] at this
      simp [Node.sym] at this
  obtain rfl := BitVec.eq_of_toNat_eq hkm
  exact hk.unique_path h hm

end

end Sys2Proof.Machine
end

