-- ==== Sys2Proof/Laws/CodeGenerator.lean ====
section
/-! SUPPORT. What GEN's loop computes on a proper tree: the table of the root-to-leaf paths. -/

namespace Sys2Proof.Machine

open Sys2Proof

/-- The records below `k`, each with the path to it, in the order GEN pops them (R150). `fuel` bounds
the depth. -/
def subtree (t : TreeStore) : (fuel : Nat) → NodeIdx → List (Code × NodeIdx)
  | 0, _ => []
  | fuel + 1, k =>
    ([], k) :: if (nodeAt t k).isInternal then
      (subtree t fuel (nodeAt t k).left).map (fun e => (false :: e.1, e.2)) ++
        (subtree t fuel (nodeAt t k).right).map (fun e => (true :: e.1, e.2))
    else []

/-- Binds the paths of the Leaves among the records, each after the path `p`. -/
def bindLeaves (t : TreeStore) (p : Code) : List (Code × NodeIdx) → CodeTable → CodeTable
  | [], table => table
  | e :: es, table =>
    match nodeAt t e.2 with
    | .leaf x _ => bindLeaves t p es (setCode table x (p ++ e.1))
    | _ => bindLeaves t p es table

theorem bindLeaves_append (t : TreeStore) (p : Code) (es fs : List (Code × NodeIdx)) (u : CodeTable) :
    bindLeaves t p (es ++ fs) u = bindLeaves t p fs (bindLeaves t p es u) := by
  induction es generalizing u with
  | nil => rfl
  | cons e es ih =>
    simp only [List.cons_append, bindLeaves]
    split <;> exact ih _

theorem bindLeaves_map (t : TreeStore) (p : Code) (v : Bool) (es : List (Code × NodeIdx))
    (u : CodeTable) :
    bindLeaves t p (es.map (fun e => (v :: e.1, e.2))) u = bindLeaves t (p ++ [v]) es u := by
  induction es generalizing u with
  | nil => rfl
  | cons e es ih =>
    simp only [List.map_cons, bindLeaves]
    split <;> simp [ih]

section

variable {t : TreeStore} {root : NodeIdx} {nnodes : BitVec 9} {leaves : Nat}

/-- GEN's loop pops the records below `k` and binds their Leaves before it goes on (R150). -/
theorem genLoop_subtree (h : ProperTree t root nnodes leaves) (fuel : Nat) (k : NodeIdx)
    (hf : k.toNat < fuel) (hk : k.toNat < 2 * leaves - 1) (visits : Nat) (p : Code)
    (work : List (NodeIdx × Code)) (u : CodeTable) :
    genLoop t ((subtree t fuel k).length + visits) ((k, p) :: work) u =
      genLoop t visits work (bindLeaves t p (subtree t fuel k) u) := by
  induction fuel generalizing k visits p work u with
  | zero => omega
  | succ fuel ih =>
    cases hi : (nodeAt t k).isInternal with
    | false =>
      have hused := (h.used hk).2
      simp only [subtree, hi, Bool.false_eq_true, if_false, List.length_singleton]
      rw [Nat.add_comm]
      cases hn : nodeAt t k with
      | free => exact absurd hn hused
      | leaf x f => simp [genLoop, bindLeaves, hn]
      | internal f l r => simp [hn, Node.isInternal] at hi
    | true =>
      obtain ⟨h1, h2⟩ := (h.internal_iff _).1 hi
      obtain ⟨-, hl, hr, -, -⟩ := h.inner h1 h2
      rw [← nodeAt_eq_slot] at hl hr
      have hpop : ∀ n, genLoop t (n + 1) ((k, p) :: work) u =
          genLoop t n (((nodeAt t k).left, p ++ [false]) :: ((nodeAt t k).right, p ++ [true]) :: work)
            u := by
        intro n
        rw [Node.eq_internal hi]
        simp only [genLoop]
        rw [Node.eq_internal hi]
        rfl
      have hbind : ∀ es, bindLeaves t p (([], k) :: es) u = bindLeaves t p es u := by
        intro es
        rw [bindLeaves]
        simp only
        rw [Node.eq_internal hi]
      simp only [subtree, hi, if_true, List.length_cons, List.length_append, List.length_map]
      rw [show ∀ a b : Nat, a + b + 1 + visits = (a + (b + visits)) + 1 by omega, hpop, hbind,
        ih _ (by omega) (by omega), ih _ (by omega) (by omega), bindLeaves_append, bindLeaves_map,
        bindLeaves_map]

/-- The records below `k` are the ends of the paths from it. -/
theorem mem_subtree (h : ProperTree t root nnodes leaves) (fuel : Nat) (k : NodeIdx)
    (hf : k.toNat < fuel) (c : Code) (m : NodeIdx) :
    (c, m) ∈ subtree t fuel k ↔ PathTo t k c m := by
  induction fuel generalizing k c m with
  | zero => omega
  | succ fuel ih =>
    cases hi : (nodeAt t k).isInternal with
    | false =>
      simp only [subtree, hi, Bool.false_eq_true, if_false, List.mem_singleton, Prod.mk.injEq]
      exact ⟨by rintro ⟨rfl, rfl⟩; exact .here _, fun hp => hp.of_not_inner hi⟩
    | true =>
      obtain ⟨h1, h2⟩ := (h.internal_iff _).1 hi
      obtain ⟨-, hl, hr, -, -⟩ := h.inner h1 h2
      rw [← nodeAt_eq_slot] at hl hr
      simp only [subtree, hi, if_true, List.mem_cons, List.mem_append, List.mem_map, Prod.mk.injEq,
        Prod.exists]
      constructor
      · rintro (⟨rfl, rfl⟩ | ⟨d, n, hd, rfl, rfl⟩ | ⟨d, n, hd, rfl, rfl⟩)
        · exact .here _
        · exact .left hi ((ih _ (by omega) _ _).1 hd)
        · exact .right hi ((ih _ (by omega) _ _).1 hd)
      · intro hp
        cases hp with
        | here => exact .inl ⟨rfl, rfl⟩
        | left _ rest => exact .inr (.inl ⟨_, _, (ih _ (by omega) _ _).2 rest, rfl, rfl⟩)
        | right _ rest => exact .inr (.inr ⟨_, _, (ih _ (by omega) _ _).2 rest, rfl, rfl⟩)

/-- No path is listed twice. -/
theorem subtree_nodup (t : TreeStore) (fuel : Nat) (k : NodeIdx) :
    ((subtree t fuel k).map Prod.fst).Nodup := by
  induction fuel generalizing k with
  | zero => simp [subtree]
  | succ fuel ih =>
    have cons : ∀ (v : Bool) (n : NodeIdx),
        ((subtree t fuel n).map (fun e : Code × NodeIdx => (v :: e.1))).Nodup := by
      intro v n
      have := (ih n).map (f := fun c : Code => v :: c) (fun a b hab => by simpa using hab)
      rwa [List.map_map] at this
    simp only [subtree, List.map_cons, List.nodup_cons]
    split
    · simp only [List.map_append, List.map_map, Function.comp_def, List.mem_append, List.mem_map]
      refine ⟨by simp, List.Nodup.append (cons false _) (cons true _) ?_⟩
      rintro c hc hd
      simp only [List.mem_map] at hc hd
      obtain ⟨e, -, rfl⟩ := hc
      obtain ⟨d, -, hd⟩ := hd
      simp at hd
    · simp

/-- A proper tree has no more records below its root than it has slots used: GEN's bound of NODE_CAP
visits is never reached before its work-list is empty (log 8). -/
theorem subtree_root_length (h : ProperTree t root nnodes leaves) :
    (subtree t 512 root).length ≤ Config.nodeCap := by
  have hL := h.le_256
  have hroot : root.toNat < 512 := root.isLt
  have hends : ((subtree t 512 root).map (fun e => e.2.toNat)).Nodup := by
    have hfst := List.nodup_map_iff_inj_on (List.Nodup.of_map _ (subtree_nodup t 512 root)) |>.1
      (subtree_nodup t 512 root)
    refine (List.nodup_map_iff_inj_on (List.Nodup.of_map _ (subtree_nodup t 512 root))).2 ?_
    rintro ⟨c, m⟩ hc ⟨d, n⟩ hd hmn
    obtain rfl : m = n := BitVec.eq_of_toNat_eq hmn
    have := ((mem_subtree h 512 root hroot c m).1 hc).unique_path h
      ((mem_subtree h 512 root hroot d m).1 hd)
    rw [this]
  have hsub : (subtree t 512 root).map (fun e => e.2.toNat) ⊆ List.range 511 := by
    intro j hj
    obtain ⟨⟨c, m⟩, hc, rfl⟩ := List.mem_map.1 hj
    have := (((mem_subtree h 512 root hroot c m).1 hc).index_le h (by
      have := h.two_le; rw [h.root_eq]; omega)).1
    have hr := h.root_eq
    simp only [List.mem_range]
    omega
  have := (hends.subperm hsub).length_le
  simpa [Config.nodeCap] using this

/-- What binding leaves a symbol: the path of its Leaf, where the list holds one Leaf of the symbol. -/
theorem codeOf_bindLeaves (t : TreeStore) (p : Code) (es : List (Code × NodeIdx)) (u : CodeTable)
    (x : Symbol)
    (one : ∀ e ∈ es, ∀ d ∈ es, ∀ f g, nodeAt t e.2 = .leaf x f → nodeAt t d.2 = .leaf x g →
      e.1 = d.1) :
    (∀ e ∈ es, ∀ f, nodeAt t e.2 = .leaf x f → codeOf (bindLeaves t p es u) x = p ++ e.1) ∧
    ((∀ e ∈ es, ∀ f, nodeAt t e.2 ≠ .leaf x f) → codeOf (bindLeaves t p es u) x = codeOf u x) := by
  induction es generalizing u with
  | nil => simp [bindLeaves]
  | cons e es ih =>
    have ih' := fun u => ih u fun a ha b hb => one a (by simp [ha]) b (by simp [hb])
    constructor
    · intro d hd f hdf
      by_cases htail : ∃ a ∈ es, ∃ g, nodeAt t a.2 = .leaf x g
      · obtain ⟨a, ha, g, hag⟩ := htail
        have hda := one d hd a (by simp [ha]) f g hdf hag
        rw [bindLeaves]
        split <;> rw [(ih' _).1 a ha g hag, hda]
      · push Not at htail
        have hde : d = e := by
          rcases List.mem_cons.1 hd with rfl | hd
          · rfl
          · exact absurd hdf (htail d hd f)
        subst hde
        rw [bindLeaves, hdf]
        simp only
        rw [(ih' _).2 htail, codeOf_setCode, if_pos rfl]
    · intro hno
      have htail : ∀ a ∈ es, ∀ f, nodeAt t a.2 ≠ .leaf x f := fun a ha => hno a (by simp [ha])
      rw [bindLeaves]
      split
      · next y f hy =>
        have hxy : ¬ x = y := by
          rintro rfl
          exact hno e (by simp) f hy
        rw [(ih' _).2 htail, codeOf_setCode, if_neg hxy]
      · rw [(ih' _).2 htail]

/-- The table GEN derives from a proper tree binds the Leaves below the root (R150). -/
theorem genCodes_proper (h : ProperTree t root nnodes leaves) :
    genCodes t root = bindLeaves t [] (subtree t 512 root) emptyCodes := by
  have hroot : root.toNat < 2 * leaves - 1 := by have := h.two_le; rw [h.root_eq]; omega
  obtain ⟨rest, hrest⟩ := Nat.exists_eq_add_of_le (subtree_root_length h)
  have hgen : genCodes t root = genLoop t Config.nodeCap [(root, [])] emptyCodes := by
    rw [genCodes, if_neg h.root_ne_nil, Node.eq_internal h.root_inner]
  rw [hgen, hrest, genLoop_subtree h 512 root root.isLt hroot]
  cases rest <;> rfl

/-- The code GEN gives a symbol is its path from the root (R151). -/
theorem codeOf_genCodes_iff (h : ProperTree t root nnodes leaves) (x : Symbol) (c : Code)
    (hc : c ≠ []) : codeOf (genCodes t root) x = c ↔ LeafPath t root x c := by
  have mem := mem_subtree h 512 root root.isLt
  have hb := codeOf_bindLeaves t [] (subtree t 512 root) emptyCodes x (by
    rintro ⟨c, m⟩ hc ⟨d, n⟩ hd f g hf hg
    exact LeafPath.unique h (x := x) ⟨m, f, (mem c m).1 hc, hf⟩ ⟨n, g, (mem d n).1 hd, hg⟩)
  rw [genCodes_proper h]
  constructor
  · intro heq
    by_contra hno
    refine hc (heq ▸ ?_)
    rw [hb.2, codeOf_emptyCodes]
    rintro ⟨d, m⟩ hd f hf
    have hcd := hb.1 _ hd f hf
    simp only [List.nil_append] at hcd
    exact hno ⟨m, f, heq ▸ hcd ▸ (mem d m).1 hd, hf⟩
  · rintro ⟨m, f, hm, hf⟩
    simpa using hb.1 (c, m) ((mem c m).2 hm) f hf

/-- The path to a Leaf of a proper tree is not empty. -/
theorem LeafPath.ne_nil (h : ProperTree t root nnodes leaves) {x : Symbol} {c : Code}
    (hp : LeafPath t root x c) : c ≠ [] := by
  rintro rfl
  obtain ⟨m, f, hm, hf⟩ := hp
  cases hm
  have := h.root_inner
  simp [hf, Node.isInternal] at this

/-- A symbol has a code exactly when a Leaf holds it (R156 (a)). -/
theorem codeOf_genCodes_present (h : ProperTree t root nnodes leaves) (x : Symbol) :
    codeOf (genCodes t root) x ≠ [] ↔ ∃ k < leaves, (slot t k).sym = x := by
  have hL := h.le_256
  constructor
  · intro hx
    obtain ⟨m, f, -, hm⟩ := (codeOf_genCodes_iff h x _ hx).1 rfl
    refine ⟨m.toNat, (h.leaf_iff _).1 (by rw [← nodeAt_eq_slot, hm]; rfl), ?_⟩
    rw [← nodeAt_eq_slot, hm]
    rfl
  · rintro ⟨k, hk, rfl⟩
    have hkn : (BitVec.ofNat 9 k).toNat = k := by simp; omega
    obtain ⟨c, hc⟩ := h.reached (BitVec.ofNat 9 k) (by omega)
    have hp : LeafPath t root (slot t k).sym c := by
      refine ⟨_, (slot t k).freq, hc, ?_⟩
      rw [nodeAt_eq_slot, hkn]
      exact Node.eq_leaf (h.leaf hk)
    rw [(codeOf_genCodes_iff h _ c (hp.ne_nil h)).2 hp]
    exact hp.ne_nil h

/-- The codes of a proper tree with L leaves have at most L − 1 bits (R156 (b)). -/
theorem codeOf_genCodes_length (h : ProperTree t root nnodes leaves) (x : Symbol) :
    (codeOf (genCodes t root) x).length ≤ leaves - 1 := by
  by_cases hx : codeOf (genCodes t root) x = []
  · simp [hx]
  · obtain ⟨m, f, hm, -⟩ := (codeOf_genCodes_iff h x _ hx).1 rfl
    have := hm.length_le h h.root_inner
    have hr := h.root_eq
    omega

/-- The codes of a proper tree meet the invariant of R36 (R156 (c)). -/
theorem codesHold_genCodes_proper (h : ProperTree t root nnodes leaves) :
    CodesHold (genCodes t root) := by
  have path := fun x hx => (codeOf_genCodes_iff h x _ hx).1 rfl
  have apart : ∀ x y : Symbol, x ≠ y → codeOf (genCodes t root) x ≠ [] →
      ¬ codeOf (genCodes t root) x <+: codeOf (genCodes t root) y := by
    intro x y hxy hx hp
    have hy : codeOf (genCodes t root) y ≠ [] := fun h0 => hx (List.prefix_nil.1 (h0 ▸ hp))
    exact hxy (LeafPath.eq_of_prefix (path x hx) (path y hy) hp).1
  refine ⟨fun x => ?_, fun x y hxy hx heq => apart x y hxy hx (heq ▸ List.prefix_rfl), apart⟩
  have := codeOf_genCodes_length h x
  have := h.le_256
  omega

end

end Sys2Proof.Machine
end

