-- ==== Sys2Proof/Laws/Encoder.lean ====
section
/-! SUPPORT. What ENC's loop computes. -/

namespace Sys2Proof.Machine

open Sys2Proof

@[simp] theorem codesOf_nil (t : CodeTable) : codesOf t [] = [] := rfl

@[simp] theorem codesOf_cons (t : CodeTable) (x : Symbol) (xs : List Symbol) :
    codesOf t (x :: xs) = codeOf t x ++ codesOf t xs := rfl

theorem codesOf_append (t : CodeTable) (xs ys : List Symbol) :
    codesOf t (xs ++ ys) = codesOf t xs ++ codesOf t ys := List.flatMap_append

theorem codesOf_length (t : CodeTable) (xs : List Symbol) :
    (codesOf t xs).length = (xs.map (fun x => (codeOf t x).length)).sum := by
  simp [codesOf, List.length_flatMap]

/-- Symbols that have codes which fit are passed over, their codes appended (R160). -/
theorem encLoop_append (t : CodeTable) (cap : Nat) (xs ys : List Symbol) (out : Code)
    (coded : ∀ x ∈ xs, codeOf t x ≠ []) (fits : out.length + (codesOf t xs).length ≤ cap) :
    encLoop t cap (xs ++ ys) out = encLoop t cap ys (out ++ codesOf t xs) := by
  induction xs generalizing out with
  | nil => simp
  | cons x xs ih =>
    have hx : (codeOf t x).length ≠ 0 := by simpa using coded x (by simp)
    have hlen : out.length + (codeOf t x).length + (codesOf t xs).length ≤ cap := by
      simpa [Nat.add_assoc] using fits
    have hcap : ¬ out.length + (codeOf t x).length > cap := by omega
    simp only [List.cons_append, encLoop, if_neg hx, if_neg hcap]
    rw [ih _ (fun y hy => coded y (by simp [hy])) (by simpa using hlen)]
    simp

/-- ENC's loop succeeds only by appending the codes of all its symbols (R160). -/
theorem encLoop_ok {t : CodeTable} {cap : Nat} {xs : List Symbol} {out r : Code}
    (h : encLoop t cap xs out = .ok r) :
    (∀ x ∈ xs, codeOf t x ≠ []) ∧ r = out ++ codesOf t xs ∧ (out.length ≤ cap → r.length ≤ cap) := by
  induction xs generalizing out with
  | nil =>
    obtain rfl : out = r := by simpa [encLoop] using h
    simp
  | cons x xs ih =>
    simp only [encLoop] at h
    split at h
    · cases h
    · split at h
      · cases h
      · obtain ⟨h1, h2, h3⟩ := ih h
        refine ⟨?_, by simpa using h2, fun _ => h3 (by simp; omega)⟩
        intro y hy
        rcases List.mem_cons.1 hy with rfl | hy
        · simpa using ‹¬ (codeOf t y).length = 0›
        · exact h1 y hy

end Sys2Proof.Machine
end

