-- ==== Sys2Proof/Laws/Decoder.lean ====
section
/-! SUPPORT. What the decoders' loops do on a code, on a path and in general. -/

namespace Sys2Proof.Machine

open Sys2Proof

/-! Output -/

theorem emit_eq (cap : Nat) (out : List Symbol) (x : Symbol) :
    emit cap out x = if out.length = cap then .error .capacityError else .ok (out ++ [x]) := rfl

theorem emit_ok {cap : Nat} {out r : List Symbol} {x : Symbol} (h : emit cap out x = .ok r) :
    r = out ++ [x] ∧ out.length ≠ cap := by
  unfold emit at h
  split at h
  · cases h
  · cases h; exact ⟨rfl, ‹_›⟩

theorem emit_error {cap : Nat} {out : List Symbol} {x : Symbol} {e : Err}
    (h : emit cap out x = .error e) : e = .capacityError ∧ out.length = cap := by
  unfold emit at h
  split at h
  · cases h; exact ⟨rfl, ‹_›⟩
  · cases h

/-! DECP -/

theorem matchCode_some {t : CodeTable} {buf : Code} {x : Symbol} (h : matchCode t buf = some x) :
    codeOf t x = buf ∧ buf ≠ [] := by
  have := List.find?_some h
  simp only [Bool.and_eq_true, decide_eq_true_eq, beq_iff_eq] at this
  refine ⟨this.2, ?_⟩
  rintro rfl
  simp [this.2] at this

theorem matchCode_none {t : CodeTable} {buf : Code} (h : matchCode t buf = none) (hb : buf ≠ [])
    (x : Symbol) : codeOf t x ≠ buf := by
  have := List.find?_eq_none.1 h x (mem_allSymbols x)
  rintro rfl
  cases hc : codeOf t x <;> simp_all

/-- Under the invariant of R36 the matching symbol is the only one (R177). -/
theorem matchCode_codeOf {t : CodeTable} (ht : CodesHold t) {x : Symbol} (hx : codeOf t x ≠ []) :
    matchCode t (codeOf t x) = some x := by
  cases h : matchCode t (codeOf t x) with
  | none => exact absurd rfl (matchCode_none h hx x)
  | some y =>
    by_cases hxy : x = y
    · rw [hxy]
    · exact absurd (matchCode_some h).1.symm (ht.distinct x y hxy hx)

/-- A buffer that no code begins stays unmatched while it grows. -/
theorem decpLoop_grow (t : CodeTable) (cap : Nat) (c : Code) (bs : List Byte) (buf : Code)
    (out : List Symbol) (h : ∀ d, d ≠ [] → d <+: c → ∀ y : Symbol, codeOf t y ≠ buf ++ d) :
    decpLoop t cap (c.map bitByte ++ bs) buf out = decpLoop t cap bs (buf ++ c) out := by
  induction c generalizing buf with
  | nil => simp
  | cons v c ih =>
    have hnone : matchCode t (buf ++ [v]) = none := by
      cases hm : matchCode t (buf ++ [v]) with
      | none => rfl
      | some y => exact absurd (matchCode_some hm).1 (h [v] (by simp) ⟨c, rfl⟩ y)
    simp only [List.map_cons, List.cons_append, decpLoop, byteBit_bitByte, hnone]
    rw [ih (buf ++ [v]) ?_]
    · simp
    · intro d _ hd y
      simpa using h (v :: d) (by simp) (List.cons_prefix_cons.2 ⟨rfl, hd⟩) y

/-- The bytes of a code emit its symbol and empty the buffer (R176). -/
theorem decpLoop_code {t : CodeTable} (ht : CodesHold t) (cap : Nat) {x : Symbol}
    (hx : codeOf t x ≠ []) (bs : List Byte) (out : List Symbol) :
    decpLoop t cap ((codeOf t x).map bitByte ++ bs) [] out =
      match emit cap out x with
      | .error e => .error e
      | .ok out' => decpLoop t cap bs [] out' := by
  obtain ⟨c, v, hc⟩ : ∃ c v, codeOf t x = c ++ [v] :=
    ⟨_, _, (List.dropLast_append_getLast hx).symm⟩
  have hgrow : ∀ d, d ≠ [] → d <+: c → ∀ y : Symbol, codeOf t y ≠ [] ++ d := by
    intro d hd hdc y hy
    simp only [List.nil_append] at hy
    by_cases hyx : y = x
    · subst hyx
      have := hdc.length_le
      rw [hc] at hy
      simp [← hy] at this
    · refine ht.prefixFree y x hyx (hy ▸ hd) ?_
      rw [hy, hc]
      exact hdc.trans (List.prefix_append _ _)
  have hmatch : matchCode t (c ++ [v]) = some x := hc ▸ matchCode_codeOf ht hx
  rw [hc]
  simp only [List.map_append, List.append_assoc, List.map_cons, List.map_nil]
  rw [decpLoop_grow t cap c _ [] out hgrow]
  simp only [List.nil_append, List.singleton_append, decpLoop, byteBit_bitByte, hmatch]
  all_goals (cases emit cap out x <;> rfl)

/-- The bytes of a sequence of codes emit its symbols (R176). -/
theorem decpLoop_codes {t : CodeTable} (ht : CodesHold t) (cap : Nat) (xs : List Symbol)
    (hx : ∀ x ∈ xs, codeOf t x ≠ []) (bs : List Byte) (out : List Symbol)
    (fits : out.length + xs.length ≤ cap) :
    decpLoop t cap ((codesOf t xs).map bitByte ++ bs) [] out = decpLoop t cap bs [] (out ++ xs) := by
  induction xs generalizing out with
  | nil => simp
  | cons x xs ih =>
    simp only [List.length_cons] at fits
    simp only [codesOf_cons, List.map_append, List.append_assoc]
    rw [decpLoop_code ht cap (hx x (by simp)), emit_eq, if_neg (by omega)]
    simp only
    rw [ih (fun y hy => hx y (by simp [hy])) (out ++ [x]) (by simp; omega)]
    simp

/-! DECT -/

/-- A record from which a path leads to an existing record exists. -/
theorem PathTo.start_exists {tree : TreeStore} {k m : NodeIdx} {c : Code} (hp : PathTo tree k c m)
    (hm : nodeAt tree m ≠ .free) : k ≠ Config.nil ∧ nodeAt tree k ≠ .free := by
  have hk : nodeAt tree k ≠ .free := by
    cases hp with
    | here => exact hm
    | left inner _ => intro h; simp [h, Node.isInternal] at inner
    | right inner _ => intro h; simp [h, Node.isInternal] at inner
  exact ⟨fun h => hk (h ▸ nodeAt_nil tree), hk⟩

/-- Where the root is an Internal record, a path to an Internal record moves the cursor there, and a
path to a Leaf emits its symbol and moves the cursor to the root (R170). -/
theorem dectLoop_path {tree : TreeStore} {root : NodeIdx} (cap : Nat)
    (hroot : root ≠ Config.nil) (inner : (nodeAt tree root).isInternal = true)
    {k m : NodeIdx} {c : Code} (hp : PathTo tree k c m) (hm : nodeAt tree m ≠ .free) (bs : List Byte) (out : List Symbol) :
    ((nodeAt tree m).isInternal = true →
      dectLoop tree root cap (c.map bitByte ++ bs) k out = dectLoop tree root cap bs m out) ∧
    (∀ x f, c ≠ [] → nodeAt tree m = .leaf x f →
      dectLoop tree root cap (c.map bitByte ++ bs) k out =
        match emit cap out x with
        | .error e => .error e
        | .ok out' => dectLoop tree root cap bs root out') := by
  have hrl : ∀ x f, nodeAt tree root ≠ .leaf x f := by
    intro x f h
    simp [h, Node.isInternal] at inner
  -- one bit from an Internal record
  have stepTo : ∀ (k nxt : NodeIdx) (v : Bool) (rest : List Byte),
      (if v then (nodeAt tree k).right else (nodeAt tree k).left) = nxt →
      nxt ≠ Config.nil → nodeAt tree nxt ≠ .free →
      dectLoop tree root cap (bitByte v :: rest) k out =
        match nodeAt tree nxt with
        | .leaf x _ =>
          match emit cap out x with
          | .error e => .error e
          | .ok out' => dectLoop tree root cap rest root out'
        | _ => dectLoop tree root cap rest nxt out := by
    intro k nxt v rest hn h1 h2
    have hfree : (nodeAt tree nxt).isFree = false := by
      cases h : nodeAt tree nxt <;> simp_all [Node.isFree]
    cases hr : nodeAt tree root with
    | leaf x f => exact absurd hr (hrl x f)
    | free => simp [hr, Node.isInternal] at inner
    | internal f l r =>
      simp only [dectLoop, byteBit_bitByte, if_neg hroot, hr, hn]
      rw [if_neg (by simp [h1, hfree])]
      all_goals (cases nodeAt tree nxt <;> rfl)
  induction hp with
  | here k => exact ⟨fun _ => by simp, fun _ _ h => absurd rfl h⟩
  | @left k m c hk rest ih =>
    obtain ⟨h1, h2⟩ := rest.start_exists hm
    have ih := ih hm
    simp only [List.map_cons, List.cons_append]
    rw [stepTo k _ false _ rfl h1 h2]
    simp only [Bool.false_eq_true, if_false] at h1 h2 ⊢
    cases hl : nodeAt tree (nodeAt tree k).left with
    | free => exact absurd hl h2
    | leaf x f =>
      cases rest with
      | here =>
        refine ⟨fun h => by simp [hl, Node.isInternal] at h, fun y g _ hy => ?_⟩
        rw [hl] at hy
        cases hy
        simp
      | left inner' _ => simp [hl, Node.isInternal] at inner'
      | right inner' _ => simp [hl, Node.isInternal] at inner'
    | internal f l r =>
      refine ⟨ih.1, fun x g _ hx => ?_⟩
      refine ih.2 x g ?_ hx
      rintro rfl
      cases rest
      rw [hl] at hx
      cases hx
  | @right k m c hk rest ih =>
    obtain ⟨h1, h2⟩ := rest.start_exists hm
    have ih := ih hm
    simp only [List.map_cons, List.cons_append]
    rw [stepTo k _ true _ rfl h1 h2]
    simp only [if_true] at h1 h2 ⊢
    cases hl : nodeAt tree (nodeAt tree k).right with
    | free => exact absurd hl h2
    | leaf x f =>
      cases rest with
      | here =>
        refine ⟨fun h => by simp [hl, Node.isInternal] at h, fun y g _ hy => ?_⟩
        rw [hl] at hy
        cases hy
        simp
      | left inner' _ => simp [hl, Node.isInternal] at inner'
      | right inner' _ => simp [hl, Node.isInternal] at inner'
    | internal f l r =>
      refine ⟨ih.1, fun x g _ hx => ?_⟩
      refine ih.2 x g ?_ hx
      rintro rfl
      cases rest
      rw [hl] at hx
      cases hx

/-! Both -/

/-- DECT commits at most SYM_CAP symbols (R181). -/
theorem dectLoop_length {tree : TreeStore} {root : NodeIdx} {cap : Nat} {bs : List Byte}
    {cur : NodeIdx} {out r : List Symbol} (h : dectLoop tree root cap bs cur out = .ok r)
    (ho : out.length ≤ cap) : r.length ≤ cap := by
  induction bs generalizing cur out with
  | nil =>
    simp only [dectLoop] at h
    split at h
    · cases h
    · cases h; exact ho
  | cons b bs ih =>
    have emitted : ∀ {x : Symbol} {out' : List Symbol} {cur' : NodeIdx}, emit cap out x = .ok out' →
        dectLoop tree root cap bs cur' out' = .ok r → r.length ≤ cap := by
      intro x out' cur' he h
      obtain ⟨rfl, hne⟩ := emit_ok he
      exact ih h (by simp; omega)
    simp only [dectLoop] at h
    repeat' split at h
    all_goals first | cases h | exact emitted ‹_› h | exact ih h ho

/-- DECP commits at most SYM_CAP symbols (R181). -/
theorem decpLoop_length {t : CodeTable} {cap : Nat} {bs : List Byte} {buf : Code}
    {out r : List Symbol} (h : decpLoop t cap bs buf out = .ok r) (ho : out.length ≤ cap) :
    r.length ≤ cap := by
  induction bs generalizing buf out with
  | nil =>
    simp only [decpLoop] at h
    split at h
    · cases h
    · cases h; exact ho
  | cons b bs ih =>
    simp only [decpLoop] at h
    split at h
    · cases h
    · split at h
      · next x _ =>
        cases he : emit cap out x with
        | error e => simp [he] at h
        | ok out' =>
          obtain ⟨rfl, hne⟩ := emit_ok he
          simp only [he] at h
          exact ih h (by simp; omega)
      · exact ih h ho

end Sys2Proof.Machine
end

