-- ==== Sys2Proof/Laws/Frequency.lean ====
section
/-! SUPPORT. What FREQ's loop computes. -/

namespace Sys2Proof.Machine

open Sys2Proof

theorem countOf_countSymbol (t : FreqTable) (x y : Symbol) :
    countOf (countSymbol t x) y = if y = x then countOf t y + 1 else countOf t y := by
  simp only [countSymbol, countOf_setCount]
  split <;> simp_all

theorem countOf_foldl (input : List Symbol) (t : FreqTable) (x : Symbol) :
    countOf (input.foldl countSymbol t) x = countOf t x + BitVec.ofNat 32 (input.count x) := by
  induction input generalizing t with
  | nil => simp
  | cons y ys ih =>
    simp only [List.foldl_cons, ih, countOf_countSymbol, List.count_cons]
    by_cases h : y = x
    · subst h
      simp only [if_pos, beq_self_eq_true, BitVec.ofNat_add, BitVec.ofNat_eq_ofNat]
      ac_rfl
    · have h' : ¬ x = y := fun e => h e.symm
      simp [h, h']

/-- FREQ's table holds the number of occurrences, as long as the input is shorter than 2^32 (R120). -/
theorem countOf_tally (input : List Symbol) (x : Symbol) (h : input.length < 2 ^ 32) :
    (countOf (tally input) x).toNat = input.count x := by
  have := List.count_le_length (a := x) (l := input)
  rw [tally, countOf_foldl, countOf_zero, BitVec.ofNat_eq_ofNat, BitVec.zero_add, BitVec.toNat_ofNat]
  exact Nat.mod_eq_of_lt (by omega)

theorem sum_count_allSymbols (input : List Symbol) :
    (allSymbols.map (fun x => input.count x)).sum = input.length := by
  induction input with
  | nil => simp
  | cons y ys ih =>
    have one : ∀ l : List Symbol, l.Nodup → y ∈ l →
        (l.map (fun x => (y :: ys).count x)).sum = (l.map (fun x => ys.count x)).sum + 1 := by
      intro l
      induction l with
      | nil => simp
      | cons z l ihl =>
        intro hn hm
        obtain ⟨hz, hn⟩ := List.nodup_cons.1 hn
        by_cases hyz : y = z
        · subst hyz
          have hrest : l.map (fun x => (y :: ys).count x) = l.map (fun x => ys.count x) :=
            List.map_congr_left fun x hx => by
              have : ¬ y = x := fun e => hz (e ▸ hx)
              simp [this]
          simp only [List.map_cons, List.sum_cons, hrest, List.count_cons_self]
          omega
        · have hm' : y ∈ l := by simpa [hyz] using hm
          simp only [List.map_cons, List.sum_cons, ihl hn hm', List.count_cons_of_ne hyz]
          omega
    rw [one allSymbols allSymbols_nodup (mem_allSymbols y), ih]
    simp

/-- The counts of FREQ's table sum to the input's length (R121). -/
theorem total_tally (input : List Symbol) (h : input.length < 2 ^ 32) :
    total (tally input) = input.length := by
  rw [← sum_count_allSymbols input, total]
  exact congrArg List.sum (List.map_congr_left fun x _ => countOf_tally input x h)

end Sys2Proof.Machine
end

