-- ==== Sys2Proof/Laws/PerInstr.lean ====
section
/-! SUPPORT. One statement about every command as syntax: the shape of its word. -/

namespace Sys2Proof.Laws.WordShape

open Sys2Proof

/-- The command is well formed; its word has a zero ZERO field and an OP from 1 to 8; the decoder, and
the table's decoder, read the command back from it (spec/30_encoding.md R90 to R93). -/
def Statement (i : Instr) : Prop :=
  i.wf = true ∧ zeroField (encode i) = 0 ∧ opField (encode i) = encodeOp i ∧
    1 ≤ (encodeOp i).toNat ∧ (encodeOp i).toNat ≤ 8 ∧ decode (encode i) = .ok i ∧
    decodeTableWord 32 (encode i).toNat = some i

theorem freq : Statement .freq := by simp only [Statement]; decide

theorem build : Statement .build := by simp only [Statement]; decide

theorem gen : Statement .gen := by simp only [Statement]; decide

theorem enc : Statement .enc := by simp only [Statement]; decide

theorem dect : Statement .dect := by simp only [Statement]; decide

theorem decp : Statement .decp := by simp only [Statement]; decide

theorem ser : Statement .ser := by simp only [Statement]; decide

theorem deser : Statement .deser := by simp only [Statement]; decide

end Sys2Proof.Laws.WordShape
end

