-- ==== Sys2Proof/Laws/Serializer.lean ====
section
/-! SUPPORT. What the loops of SER and DESER compute. -/

namespace Sys2Proof.Machine

open Sys2Proof

/-! SER -/

/-- The entries SER writes for a sequence of symbols: those of the present ones (R190). -/
def presentEntries (t : CodeTable) (xs : List Symbol) : Entries :=
  (xs.filter (fun x => codeOf t x ≠ [])).map (fun x => (x, codeOf t x))

@[simp] theorem entriesBytes_nil : entriesBytes [] = [] := rfl

@[simp] theorem entriesBytes_cons (e : Symbol × Code) (es : Entries) :
    entriesBytes (e :: es) = entryBytes e.1 e.2 ++ entriesBytes es := rfl

theorem entriesBytes_append (es fs : Entries) :
    entriesBytes (es ++ fs) = entriesBytes es ++ entriesBytes fs := List.flatMap_append

theorem entriesBytes_length (es : Entries) :
    (entriesBytes es).length = (es.map (fun e => e.2.length + 3)).sum := by
  simp [entriesBytes, List.length_flatMap]

theorem entriesBytes_length_perm {es fs : Entries} (h : es.Perm fs) :
    (entriesBytes es).length = (entriesBytes fs).length := by
  rw [entriesBytes_length, entriesBytes_length]
  exact (h.map _).sum_eq

/-- SER's loop appends the entries of the present symbols, or raises CapacityError where they do not
fit (R190, R192). -/
theorem serLoop_eq (t : CodeTable) (cap : Nat) (xs : List Symbol) (out : List Byte)
    (ho : out.length ≤ cap) :
    serLoop t cap xs out =
      if out.length + (entriesBytes (presentEntries t xs)).length ≤ cap
      then .ok (out ++ entriesBytes (presentEntries t xs)) else .error .capacityError := by
  induction xs generalizing out with
  | nil => simp [serLoop, presentEntries, ho]
  | cons x xs ih =>
    by_cases hx : codeOf t x = []
    · have hp : presentEntries t (x :: xs) = presentEntries t xs := by simp [presentEntries, hx]
      simp only [serLoop, hx, List.length_nil, ge_iff_le, hp]
      exact ih out ho
    · have hp : presentEntries t (x :: xs) = (x, codeOf t x) :: presentEntries t xs := by
        simp [presentEntries, hx]
      have hlen : 1 ≤ (codeOf t x).length := List.length_pos_iff.2 hx
      simp only [serLoop, ge_iff_le, hlen, if_true, hp, entriesBytes_cons, List.length_append]
      split
      · rw [if_neg (by omega)]
      · rw [ih _ (by simp only [List.length_append]; omega)]
        simp only [List.length_append, List.append_assoc, Nat.add_assoc]

/-- The present symbols in ascending order are the ones SER goes through (R191). -/
theorem presentEntries_of_lists {t : CodeTable} {xs : List Symbol} (h : ListsPresent t xs) :
    presentEntries t allSymbols = xs.map (fun x => (x, codeOf t x)) := by
  have hs : (allSymbols.filter (fun x => codeOf t x ≠ [])).Pairwise
      (fun x y => x.toNat < y.toNat) := allSymbols_sorted.filter _
  have hperm : (allSymbols.filter (fun x => codeOf t x ≠ [])).Perm xs := by
    refine (List.perm_ext_iff_of_nodup (allSymbols_nodup.filter _) ?_).2 fun x => ?_
    · exact h.1.imp (fun hlt heq => by simp [heq] at hlt)
    · simp [mem_allSymbols, h.2]
  have heq := List.Perm.eq_of_pairwise (le := fun x y : Symbol => x.toNat < y.toNat)
    (fun a b _ _ h1 h2 => absurd h1 (by omega)) hs h.1 hperm
  rw [presentEntries, heq]

/-! DESER -/

theorem clashes_iff (t : CodeTable) (c : Code) :
    clashes t c = true ↔ ∃ y : Symbol, codeOf t y ≠ [] ∧ (codeOf t y <+: c ∨ c <+: codeOf t y) := by
  simp only [clashes, List.any_eq_true, Bool.and_eq_true, decide_eq_true_eq, Bool.or_eq_true,
    List.isPrefixOf_iff_prefix]
  constructor
  · rintro ⟨y, -, h1, h2⟩
    exact ⟨y, by rintro h; simp [h] at h1, h2⟩
  · rintro ⟨y, h1, h2⟩
    exact ⟨y, mem_allSymbols y, List.length_pos_iff.2 h1, h2⟩

/-- The bits of a bitstring are taken up while they fit (R193, R198). -/
theorem deserLoop_bits (c : Code) (bs : List Byte) (x : Symbol) (d : Code) (t : CodeTable)
    (h : d.length + c.length ≤ 255) :
    deserLoop (c.map bitByte ++ bs) (.bits x d) t = deserLoop bs (.bits x (d ++ c)) t := by
  induction c generalizing d with
  | nil => simp
  | cons v c ih =>
    simp only [List.length_cons] at h
    have hd : ¬ d.length = Config.codeMax := by simp only [Config.codeMax]; omega
    simp only [List.map_cons, List.cons_append, deserLoop, byteBit_bitByte, if_neg hd]
    rw [ih _ (by simp; omega)]
    simp

/-- The 256th bit of a bitstring raises CapacityError (R198). -/
theorem deserLoop_long (c : Code) (bs : List Byte) (x : Symbol) (d : Code) (t : CodeTable)
    (hd : d.length ≤ 255) (h : 255 < d.length + c.length) :
    deserLoop (c.map bitByte ++ bs) (.bits x d) t = .error .capacityError := by
  induction c generalizing d with
  | nil => simp at h; omega
  | cons v c ih =>
    simp only [List.length_cons] at h
    simp only [List.map_cons, List.cons_append, deserLoop, byteBit_bitByte]
    split
    · rfl
    · have : d.length ≠ 255 := by simpa [Config.codeMax] using ‹¬ d.length = Config.codeMax›
      exact ih _ (by simp; omega) (by simp; omega)

/-- One entry is loaded into the table, unless F5 or F6 holds (R193, R194). -/
theorem deserLoop_entry (x : Symbol) (c : Code) (bs : List Byte) (t : CodeTable)
    (h : 1 ≤ c.length ∧ c.length ≤ 255) :
    deserLoop (entryBytes x c ++ bs) .symbol t =
      if codeOf t x ≠ [] ∨ clashes t c = true then .error .formatError
      else deserLoop bs .symbol (setCode t x c) := by
  simp only [entryBytes, List.cons_append, List.append_assoc, deserLoop, if_true]
  rw [deserLoop_bits c _ x [] t (by simpa using h.2)]
  have hc : ¬ c.length = 0 := by omega
  simp only [List.nil_append, deserLoop, byteBit_lineFeed, ne_eq,
    not_true_eq_false, if_false, if_neg hc]
  by_cases hx : codeOf t x = []
  · simp [hx]
  · have : 1 ≤ (codeOf t x).length := List.length_pos_iff.2 hx
    simp [hx, this]

/-- Entries that are good beside those already loaded are loaded one after another (R193). -/
theorem deserLoop_entries {done todo : Entries} {t : CodeTable} (ht : HoldsEntries t done)
    (good : GoodEntries (done ++ todo)) (bs : List Byte) :
    ∃ u, HoldsEntries u (done ++ todo) ∧
      deserLoop (entriesBytes todo ++ bs) .symbol t = deserLoop bs .symbol u := by
  induction todo generalizing done t with
  | nil => exact ⟨t, by simpa using ht, by simp⟩
  | cons e todo ih =>
    have hpair := List.pairwise_append.1 good.2
    have hnew : ∀ d ∈ done, d.1 ≠ e.1 ∧ Apart d.2 e.2 := fun d hd => hpair.2.2 d hd e (by simp)
    have habsent : codeOf t e.1 = [] := ht.2 e.1 fun d hd => (hnew d hd).1
    have hclash : clashes t e.2 = false := by
      rw [Bool.eq_false_iff, ne_eq, clashes_iff]
      rintro ⟨y, hy, hor⟩
      by_cases hin : ∃ d ∈ done, d.1 = y
      · obtain ⟨d, hd, rfl⟩ := hin
        rw [ht.1 d hd] at hor
        exact hor.elim (hnew d hd).2.1 (hnew d hd).2.2
      · exact hy (ht.2 y fun d hd heq => hin ⟨d, hd, heq⟩)
    have hholds : HoldsEntries (setCode t e.1 e.2) (done ++ [e]) := by
      constructor
      · intro d hd
        rcases List.mem_append.1 hd with hd | hd
        · rw [codeOf_setCode, if_neg (hnew d hd).1, ht.1 d hd]
        · obtain rfl := List.mem_singleton.1 hd
          simp [codeOf_setCode]
      · intro x hx
        rw [codeOf_setCode, if_neg (fun h => hx e (by simp) h.symm)]
        exact ht.2 x fun d hd => hx d (by simp [hd])
    obtain ⟨u, hu, heq⟩ := ih hholds (by simpa using good)
    refine ⟨u, by simpa using hu, ?_⟩
    rw [entriesBytes_cons, List.append_assoc, deserLoop_entry _ _ _ _ (good.1 e (by simp)),
      if_neg (by simp [habsent, hclash]), heq]

theorem holdsEntries_empty : HoldsEntries emptyCodes [] := by simp [HoldsEntries]

/-- A bitstring is read up to its first byte that is no bit (R193). -/
theorem deserLoop_bits_ok {bs : List Byte} {x : Symbol} {d : Code} {t u : CodeTable}
    (hd : d.length ≤ 255) (h : deserLoop bs (.bits x d) t = .ok u) :
    ∃ c rest, bs = c.map bitByte ++ lineFeed :: rest ∧ 1 ≤ (d ++ c).length ∧ (d ++ c).length ≤ 255 ∧
      codeOf t x = [] ∧ clashes t (d ++ c) = false ∧
      deserLoop rest .symbol (setCode t x (d ++ c)) = .ok u := by
  induction bs generalizing d with
  | nil => simp [deserLoop] at h
  | cons b bs ih =>
    simp only [deserLoop] at h
    split at h
    · next v hv =>
      split at h
      · cases h
      · have hne : d.length ≠ 255 := by simpa [Config.codeMax] using ‹¬ d.length = Config.codeMax›
        obtain ⟨c, rest, rfl, h1, h2, h3, h4, h5⟩ := ih (by simp; omega) h
        refine ⟨v :: c, rest, by simp [byteBit_eq_some hv], ?_, ?_, h3, ?_, ?_⟩
        · simp; omega
        · simpa using h2
        · simpa using h4
        · simpa using h5
    · split at h
      · cases h
      · split at h
        · cases h
        · split at h
          · cases h
          · split at h
            · cases h
            · refine ⟨[], bs, ?_, ?_, ?_, ?_, ?_, ?_⟩
              · simpa using ‹¬ b ≠ lineFeed›
              · simp; omega
              · simpa using hd
              · have := ‹¬ (codeOf t x).length ≥ 1›
                exact List.length_eq_zero_iff.1 (by omega)
              · simpa using ‹¬ clashes t d = true›
              · simpa using h

/-- DESER accepts nothing but good entries (R193, R195). -/
theorem deserLoop_ok {bs : List Byte} {done : Entries} {t u : CodeTable} (ht : HoldsEntries t done)
    (good : GoodEntries done) (h : deserLoop bs .symbol t = .ok u) :
    ∃ es, bs = entriesBytes es ∧ GoodEntries (done ++ es) ∧ HoldsEntries u (done ++ es) := by
  induction hn : bs.length using Nat.strong_induction_on generalizing bs done t with
  | _ n ih =>
    cases bs with
    | nil =>
      obtain rfl : t = u := by simpa [deserLoop] using h
      exact ⟨[], rfl, by simpa using good, by simpa using ht⟩
    | cons x bs =>
      cases bs with
      | nil => simp [deserLoop] at h
      | cons k bs =>
        simp only [deserLoop] at h
        split at h
        · obtain ⟨c, rest, rfl, h1, h2, h3, h4, h5⟩ := deserLoop_bits_ok (by simp) h
          simp only [List.nil_append] at h1 h2 h4 h5
          subst_vars
          have hclash : ∀ y : Symbol, codeOf t y ≠ [] → Apart (codeOf t y) c := by
            intro y hy
            have := mt (clashes_iff t c).2 (by simp [h4])
            push Not at this
            exact this y hy
          have hgood : GoodEntries (done ++ [(x, c)]) := by
            refine ⟨?_, List.pairwise_append.2 ⟨good.2, List.pairwise_singleton _ _, ?_⟩⟩
            · intro e he
              rcases List.mem_append.1 he with he | he
              · exact good.1 e he
              · obtain rfl := List.mem_singleton.1 he
                exact ⟨h1, h2⟩
            · intro d hd e he
              obtain rfl := List.mem_singleton.1 he
              have hcode := ht.1 d hd
              have hne : codeOf t d.1 ≠ [] := by
                rw [hcode]
                exact List.length_pos_iff.1 (good.1 d hd).1
              exact ⟨fun heq => hne (by simpa [heq] using h3), hcode ▸ hclash d.1 hne⟩
          have hholds : HoldsEntries (setCode t x c) (done ++ [(x, c)]) := by
            constructor
            · intro d hd
              rcases List.mem_append.1 hd with hd | hd
              · have hne : codeOf t d.1 ≠ [] := by
                  rw [ht.1 d hd]
                  exact List.length_pos_iff.1 (good.1 d hd).1
                rw [codeOf_setCode, if_neg (fun heq => hne (by simpa [heq] using h3)), ht.1 d hd]
              · obtain rfl := List.mem_singleton.1 hd
                simp [codeOf_setCode]
            · intro y hy
              rw [codeOf_setCode, if_neg (fun heq => hy (x, c) (by simp) heq.symm)]
              exact ht.2 y fun d hd => hy d (by simp [hd])
          obtain ⟨es, rfl, hg, hh⟩ := ih _ (by simp; omega) hholds hgood h5 rfl
          refine ⟨(x, c) :: es, ?_, by simpa using hg, by simpa using hh⟩
          simp [entryBytes]
        · cases h

/-- A table that holds good entries meets the invariant of R36. -/
theorem codesHold_of_holdsEntries {t : CodeTable} {es : Entries} (good : GoodEntries es)
    (ht : HoldsEntries t es) : CodesHold t := by
  have listed : ∀ x : Symbol, codeOf t x ≠ [] → ∃ e ∈ es, e.1 = x ∧ codeOf t x = e.2 := by
    intro x hx
    by_contra hno
    push Not at hno
    exact hx (ht.2 x fun e he heq => hno e he heq (heq ▸ ht.1 e he))
  have apart : ∀ x y : Symbol, x ≠ y → codeOf t x ≠ [] → codeOf t y ≠ [] →
      Apart (codeOf t x) (codeOf t y) := by
    intro x y hxy hx hy
    obtain ⟨e, he, rfl, h1⟩ := listed x hx
    obtain ⟨d, hd, rfl, h2⟩ := listed y hy
    rw [h1, h2]
    have sym : ∀ a b : Symbol × Code, a.1 ≠ b.1 ∧ Apart a.2 b.2 → b.1 ≠ a.1 ∧ Apart b.2 a.2 :=
      fun a b h => ⟨h.1.symm, h.2.2, h.2.1⟩
    have hne : e ≠ d := fun h => hxy (by rw [h])
    exact (@List.Pairwise.forall _ _ _ ⟨sym⟩ good.2 _ he _ hd hne).2
  refine ⟨fun x => ?_, fun x y hxy hx heq => ?_, fun x y hxy hx hp => ?_⟩
  · by_cases hx : codeOf t x = []
    · simp [hx]
    · obtain ⟨e, he, -, h⟩ := listed x hx
      rw [h]
      exact (good.1 e he).2
  · exact (apart x y hxy hx (heq ▸ hx)).1 (heq ▸ List.prefix_rfl)
  · have hy : codeOf t y ≠ [] := by
      intro h
      rw [h] at hp
      exact hx (List.prefix_nil.1 hp)
    exact (apart x y hxy hx hy).1 hp

end Sys2Proof.Machine
end

