-- ==== Sys2Proof/Laws/TreeBuilder.lean ====
section
/-! SUPPORT. BUILD's rounds: what removing the least key does, and the one invariant that the seeds have
and every round keeps. -/

namespace Sys2Proof.Machine

open Sys2Proof

/-! Removing the least key -/

theorem Key.before_of_not_before {a b : Key} (h : ¬ a.before b = true) (hne : a.idx ≠ b.idx) :
    b.before a = true := by
  simp only [Key.before, Bool.or_eq_true, Bool.and_eq_true, decide_eq_true_eq] at *
  omega

theorem Key.before_trans {a b c : Key} (h1 : a.before b = true) (h2 : b.before c = true) :
    a.before c = true := by
  simp only [Key.before, Bool.or_eq_true, Bool.and_eq_true, decide_eq_true_eq] at *
  omega

theorem Key.freq_le {a b : Key} (h : a.before b = true) : a.freq ≤ b.freq := by
  simp only [Key.before, Bool.or_eq_true, Bool.and_eq_true, decide_eq_true_eq] at h
  omega

theorem popLeast_eq_none {q : List Key} : popLeast q = none ↔ q = [] := by
  cases q with
  | nil => simp [popLeast]
  | cons k ks =>
    simp only [popLeast, reduceCtorEq, iff_false]
    split
    · simp
    · split <;> simp

/-- The removed key is the least, and the rest are left (R130, R131). -/
theorem popLeast_spec {q rest : List Key} {m : Key} (h : popLeast q = some (m, rest))
    (nodup : (q.map Key.idx).Nodup) : q.Perm (m :: rest) ∧ ∀ x ∈ rest, m.before x = true := by
  induction q generalizing m rest with
  | nil => simp [popLeast] at h
  | cons k ks ih =>
    rw [List.map_cons, List.nodup_cons] at nodup
    rw [popLeast] at h
    split at h
    · next hnone =>
      rw [popLeast_eq_none] at hnone
      cases h
      subst hnone
      simp
    · next n r hpop =>
      obtain ⟨hperm, hleast⟩ := ih hpop nodup.2
      have hn : n ∈ ks := hperm.mem_iff.2 (by simp)
      split at h
      · next hkn =>
        cases h
        refine ⟨List.Perm.refl _, fun x hx => ?_⟩
        rcases List.mem_cons.1 (hperm.mem_iff.1 hx) with rfl | hx
        · exact hkn
        · exact Key.before_trans hkn (hleast x hx)
      · next hkn =>
        cases h
        refine ⟨(hperm.cons k).trans (List.Perm.swap _ _ _), fun x hx => ?_⟩
        rcases List.mem_cons.1 hx with rfl | hx
        · refine Key.before_of_not_before hkn fun heq => nodup.1 ?_
          exact heq ▸ List.mem_map_of_mem hn
        · exact hleast x hx

/-! The store of the records made so far -/

/-- The TREE store that BUILD commits for the records `ns`. -/
def storeOf (ns : List Node) : TreeStore := tabulate 511 (fun k => ns.getD k .free)

theorem slot_storeOf {ns : List Node} (h : ns.length ≤ 511) (k : Nat) :
    slot (storeOf ns) k = ns.getD k .free := by
  rw [storeOf, slot_tabulate]
  split
  · rfl
  · rw [List.getD_eq_default]
    omega

theorem slot_storeOf_append {ns : List Node} (h : ns.length < 511) (x : Node) (k : Nat) :
    slot (storeOf (ns ++ [x])) k = if k = ns.length then x else slot (storeOf ns) k := by
  rw [slot_storeOf (by simpa using h), slot_storeOf (by omega)]
  split
  · next hk => simp [hk]
  · next hk =>
    rw [List.getD_eq_getElem?_getD, List.getD_eq_getElem?_getD]
    by_cases hlt : k < ns.length
    · rw [List.getElem?_append_left hlt]
    · rw [List.getElem?_eq_none (by simp; omega), List.getElem?_eq_none (by omega)]

theorem parentsBelow_congr {t u : TreeStore} {bound : Nat} (h : ∀ k < bound, slot t k = slot u k)
    (j : Nat) : parentsBelow t bound j = parentsBelow u bound j := by
  refine List.filter_congr fun k hk => ?_
  rw [h k (List.mem_range.1 hk)]

theorem parentsBelow_succ (t : TreeStore) (bound j : Nat) :
    parentsBelow t (bound + 1) j = parentsBelow t bound j ++
      if (slot t bound).isInternal = true ∧
        ((slot t bound).left.toNat = j ∨ (slot t bound).right.toNat = j) then [bound] else [] := by
  simp only [parentsBelow, List.range_succ, List.filter_append, List.filter_cons, List.filter_nil,
    Bool.and_eq_true, Bool.or_eq_true, decide_eq_true_eq]

theorem slot_storeOf_free {ns : List Node} (h : ns.length ≤ 511) {k : Nat} (hk : ns.length ≤ k) :
    slot (storeOf ns) k = .free := by
  rw [slot_storeOf h, List.getD_eq_default _ _ hk]

/-- The Internal records of all 511 slots are those of the slots in use. -/
theorem parentsBelow_storeOf {ns : List Node} (h : ns.length ≤ 511) (j : Nat) :
    parentsBelow (storeOf ns) 511 j = parentsBelow (storeOf ns) ns.length j := by
  obtain ⟨d, hd⟩ := Nat.exists_eq_add_of_le h
  rw [hd]
  clear hd
  induction d with
  | zero => rfl
  | succ d ih =>
    rw [← Nat.add_assoc, parentsBelow_succ, ih, slot_storeOf_free h (by omega)]
    simp [Node.isInternal]

/-- Record `k` is the merge of the two least records then in Q (R131, R133). -/
abbrev LeastPair (t : TreeStore) (k : Nat) : Prop :=
  Available t k (slot t k).left.toNat ∧ Available t k (slot t k).right.toNat ∧
    (slot t k).left ≠ (slot t k).right ∧
    ∀ j, Available t k j → j ≠ (slot t k).left.toNat →
      KeyBefore t (slot t k).left.toNat j ∧
      (j ≠ (slot t k).right.toNat → KeyBefore t (slot t k).right.toNat j)

/-- What the seeds have and every round keeps: `f` is BUILD's forest for the table `ft`. -/
structure Grown (ft : FreqTable) (f : Forest) : Prop where
  count : f.nodes.length + f.queue.length = 2 * (presentSymbols ft).length
  started : (presentSymbols ft).length ≤ f.nodes.length
  seeds : ∀ (k : Nat) (x : Symbol), (presentSymbols ft)[k]? = some x →
    slot (storeOf f.nodes) k = .leaf x (countOf ft x)
  inner : ∀ k < f.nodes.length, (presentSymbols ft).length ≤ k →
    (slot (storeOf f.nodes) k).isInternal = true ∧
    (slot (storeOf f.nodes) k).freq.toNat =
      (nodeAt (storeOf f.nodes) (slot (storeOf f.nodes) k).left).freq.toNat +
        (nodeAt (storeOf f.nodes) (slot (storeOf f.nodes) k).right).freq.toNat ∧
    LeastPair (storeOf f.nodes) k
  keys : ∀ q ∈ f.queue, q.idx < f.nodes.length ∧ q.freq = (slot (storeOf f.nodes) q.idx).freq.toNat
  nodup : (f.queue.map Key.idx).Nodup
  waiting : ∀ j < f.nodes.length,
    j ∈ f.queue.map Key.idx ↔ parentsBelow (storeOf f.nodes) f.nodes.length j = []
  merged : ∀ j < f.nodes.length, j ∉ f.queue.map Key.idx →
    (parentsBelow (storeOf f.nodes) f.nodes.length j).length = 1
  sum : (f.queue.map Key.freq).sum = total ft
  rising : ∀ j k, (presentSymbols ft).length ≤ j → j ≤ k → k < f.nodes.length →
    (slot (storeOf f.nodes) j).freq.toNat ≤ (slot (storeOf f.nodes) k).freq.toNat
  bounded : ∀ k < f.nodes.length, (presentSymbols ft).length ≤ k → ∀ x ∈ f.queue, ∀ y ∈ f.queue,
    x.idx ≠ y.idx → (slot (storeOf f.nodes) k).freq.toNat ≤ x.freq + y.freq

theorem presentSymbols_length_le (ft : FreqTable) : (presentSymbols ft).length ≤ 256 :=
  (List.length_filter_le _ _).trans (by simp [allSymbols])

/-- Two removals and the record they make (R130): a round as one equation. -/
theorem mergeRound_eq {f : Forest} (h : 2 ≤ f.queue.length) :
    ∃ a b q rest, popLeast f.queue = some (a, q) ∧ popLeast q = some (b, rest) ∧
      mergeRound f = { nodes := f.nodes ++ [.internal (BitVec.ofNat 32 (a.freq + b.freq))
                         (BitVec.ofNat 9 a.idx) (BitVec.ofNat 9 b.idx)]
                       queue := rest ++ [{ freq := a.freq + b.freq, idx := f.nodes.length }] } := by
  have len : ∀ {q : List Key} {m : Key} {r : List Key}, popLeast q = some (m, r) →
      q.length = r.length + 1 := by
    intro q
    induction q with
    | nil => simp [popLeast]
    | cons k ks ih =>
      intro m r hp
      rw [popLeast] at hp
      split at hp
      · next hn => rw [popLeast_eq_none] at hn; cases hp; simp [hn]
      · next hn =>
        split at hp <;> cases hp
        · simp
        · simp [ih hn]
  cases ha : popLeast f.queue with
  | none => rw [popLeast_eq_none] at ha; simp [ha] at h
  | some p =>
    obtain ⟨a, q⟩ := p
    cases hb : popLeast q with
    | none =>
      rw [popLeast_eq_none] at hb
      have := len ha
      simp [hb] at this
      omega
    | some p =>
      obtain ⟨b, rest⟩ := p
      exact ⟨a, b, q, rest, rfl, hb, by simp [mergeRound, ha, hb]⟩

/-- A round keeps the invariant (R130, R131, R133, R134, R137). -/
theorem Grown.mergeRound {ft : FreqTable} {f : Forest} (h : Grown ft f) (hq : 2 ≤ f.queue.length)
    (hsum : total ft < 2 ^ 32) : Grown ft (mergeRound f) := by
  obtain ⟨a, b, q, rest, ha, hb, heq⟩ := mergeRound_eq hq
  rw [heq]
  obtain ⟨pa, la⟩ := popLeast_spec ha h.nodup
  have nq : (a.idx :: q.map Key.idx).Nodup := (pa.map Key.idx).nodup_iff.1 h.nodup
  obtain ⟨pb, lb⟩ := popLeast_spec hb (List.nodup_cons.1 nq).2
  have perm : f.queue.Perm (a :: b :: rest) := pa.trans (pb.cons a)
  have hnd : (a.idx :: b.idx :: rest.map Key.idx).Nodup := (perm.map Key.idx).nodup_iff.1 h.nodup
  simp only [List.nodup_cons, List.mem_cons, not_or] at hnd
  obtain ⟨⟨hab, har⟩, hbr, hrest⟩ := hnd
  have mem : ∀ x, x ∈ f.queue ↔ x = a ∨ x = b ∨ x ∈ rest := by
    intro x; rw [perm.mem_iff]; simp
  have memIdx : ∀ j, j ∈ f.queue.map Key.idx ↔ j = a.idx ∨ j = b.idx ∨ j ∈ rest.map Key.idx := by
    intro j; rw [(perm.map Key.idx).mem_iff]; simp
  have L := presentSymbols_length_le ft
  have hcount := h.count
  have hn : f.nodes.length < 511 := by omega
  obtain ⟨haN, haF⟩ := h.keys a ((mem a).2 (.inl rfl))
  obtain ⟨hbN, hbF⟩ := h.keys b ((mem b).2 (.inr (.inl rfl)))
  have hs : a.freq + (b.freq + (rest.map Key.freq).sum) = total ft := by
    rw [← h.sum, (perm.map Key.freq).sum_eq]
    simp
  have hF : (BitVec.ofNat 32 (a.freq + b.freq)).toNat = a.freq + b.freq := by
    simp; omega
  have hA : (BitVec.ofNat 9 a.idx).toNat = a.idx := by simp; omega
  have hB : (BitVec.ofNat 9 b.idx).toNat = b.idx := by simp; omega
  have hAB : BitVec.ofNat 9 a.idx ≠ BitVec.ofNat 9 b.idx := by
    intro h
    exact hab (by rw [← hA, ← hB, h])
  -- the new store, slot by slot
  have hslot := slot_storeOf_append hn (.internal (BitVec.ofNat 32 (a.freq + b.freq))
    (BitVec.ofNat 9 a.idx) (BitVec.ofNat 9 b.idx))
  generalize htt : storeOf (f.nodes ++ [.internal (BitVec.ofNat 32 (a.freq + b.freq))
    (BitVec.ofNat 9 a.idx) (BitVec.ofNat 9 b.idx)]) = t' at hslot ⊢
  have hold : ∀ k < f.nodes.length, slot t' k = slot (storeOf f.nodes) k := by
    intro k hk
    rw [hslot, if_neg (by omega)]
  have hnew : slot t' f.nodes.length = .internal (BitVec.ofNat 32 (a.freq + b.freq))
      (BitVec.ofNat 9 a.idx) (BitVec.ofNat 9 b.idx) := by
    rw [hslot, if_pos rfl]
  have hpar : ∀ k ≤ f.nodes.length, ∀ j, parentsBelow t' k j = parentsBelow (storeOf f.nodes) k j :=
    fun k hk j => parentsBelow_congr (fun i hi => hold i (by omega)) j
  have hparNew : ∀ j, parentsBelow t' (f.nodes.length + 1) j =
      parentsBelow (storeOf f.nodes) f.nodes.length j ++
        if a.idx = j ∨ b.idx = j then [f.nodes.length] else [] := by
    intro j
    rw [parentsBelow_succ, hpar _ (Nat.le_refl _), hnew]
    simp only [Node.isInternal, Node.left, Node.right, hA, hB, true_and]
  have hnone : parentsBelow (storeOf f.nodes) f.nodes.length f.nodes.length = [] := by
    rw [List.eq_nil_iff_forall_not_mem]
    intro k hk
    obtain ⟨hk, hi, hc⟩ := mem_parentsBelow.1 hk
    by_cases hkL : k < (presentSymbols ft).length
    · rw [h.seeds k _ (List.getElem?_eq_getElem hkL)] at hi
      simp [Node.isInternal] at hi
    · obtain ⟨-, -, ⟨hl, -⟩, ⟨hr, -⟩, -⟩ := h.inner k hk (by omega)
      omega
  have havail : ∀ j, Available t' f.nodes.length j ↔ j = a.idx ∨ j = b.idx ∨ j ∈ rest.map Key.idx := by
    intro j
    rw [Available, hpar _ (Nat.le_refl _), ← memIdx]
    constructor
    · rintro ⟨h1, h2⟩
      exact (h.waiting j h1).2 h2
    · intro hj
      obtain ⟨x, hx, rfl⟩ := List.mem_map.1 hj
      exact ⟨(h.keys x hx).1, (h.waiting _ (h.keys x hx).1).1 hj⟩
  have hkb : ∀ x ∈ f.queue, ∀ y ∈ f.queue, x.before y = true → KeyBefore t' x.idx y.idx := by
    intro x hx y hy hxy
    obtain ⟨hx1, hx2⟩ := h.keys x hx
    obtain ⟨hy1, hy2⟩ := h.keys y hy
    rw [KeyBefore, hold _ hx1, hold _ hy1, ← hx2, ← hy2]
    simpa only [Key.before, Bool.or_eq_true, Bool.and_eq_true, decide_eq_true_eq] using hxy
  have hafter : ∀ x ∈ rest, a.freq ≤ x.freq ∧ b.freq ≤ x.freq := fun x hx =>
    ⟨Key.freq_le (la x (pb.mem_iff.2 (by simp [hx]))), Key.freq_le (lb x hx)⟩
  refine ⟨?_, ?_, ?_, ?_, ?_, ?_, ?_, ?_, ?_, ?_, ?_⟩
  · have := perm.length_eq
    simp at this ⊢
    omega
  · have := h.started
    simp
    omega
  · intro k x hx
    have := (List.getElem?_eq_some_iff.1 hx).1
    have := h.started
    simp only [htt]
    rw [hold k (by omega), h.seeds k x hx]
  · intro k hk hkL
    simp only [htt]
    simp only [List.length_append, List.length_singleton] at hk
    by_cases hkn : k = f.nodes.length
    · subst hkn
      refine ⟨by rw [hnew]; rfl, ?_, ?_⟩
      · rw [hnew]
        simp only [Node.left, Node.right, nodeAt, hA, hB]
        rw [hold _ haN, hold _ hbN, ← haF, ← hbF]
        exact hF
      · rw [LeastPair, hnew]
        simp only [Node.left, Node.right, hA, hB]
        refine ⟨(havail _).2 (.inl rfl), (havail _).2 (.inr (.inl rfl)), hAB, fun j hj hja => ?_⟩
        rcases (havail j).1 hj with rfl | rfl | hj
        · exact absurd rfl hja
        · exact ⟨hkb a ((mem a).2 (.inl rfl)) b ((mem b).2 (.inr (.inl rfl)))
            (la b (pb.mem_iff.2 (by simp))), fun hb => absurd rfl hb⟩
        · obtain ⟨x, hx, rfl⟩ := List.mem_map.1 hj
          have hxq := (mem x).2 (.inr (.inr hx))
          exact ⟨hkb a ((mem a).2 (.inl rfl)) x hxq (la x (pb.mem_iff.2 (by simp [hx]))),
            fun _ => hkb b ((mem b).2 (.inr (.inl rfl))) x hxq (lb x hx)⟩
    · obtain ⟨h1, h2, h3⟩ := h.inner k (by omega) hkL
      have hl := h3.1.1
      have hr := h3.2.1.1
      rw [LeastPair, hold k (by omega)]
      refine ⟨h1, ?_, ?_⟩
      · rw [h2, nodeAt, nodeAt, nodeAt, nodeAt, hold _ (by omega), hold _ (by omega)]
      · have hav : ∀ j, Available t' k j ↔ Available (storeOf f.nodes) k j := by
          intro j
          rw [Available, Available, hpar k (by omega)]
        have hkey : ∀ i j, i < k → j < k → (KeyBefore t' i j ↔ KeyBefore (storeOf f.nodes) i j) := by
          intro i j hi hj
          rw [KeyBefore, KeyBefore, hold i (by omega), hold j (by omega)]
        refine ⟨(hav _).2 h3.1, (hav _).2 h3.2.1, h3.2.2.1, fun j hj hjl => ?_⟩
        have hj' := (hav j).1 hj
        rw [hkey _ _ hl hj'.1, hkey _ _ hr hj'.1]
        exact h3.2.2.2 j hj' hjl
  · intro x hx
    simp only [htt]
    simp only [List.mem_append, List.mem_singleton] at hx
    rcases hx with hx | rfl
    · obtain ⟨h1, h2⟩ := h.keys x ((mem x).2 (.inr (.inr hx)))
      rw [hold _ h1]
      refine ⟨?_, h2⟩
      simp
      omega
    · simp only [hnew, Node.freq, hF]
      simp
  · simp only [List.map_append, List.map_cons, List.map_nil]
    refine List.Nodup.append hrest (by simp) ?_
    intro j hj hjn
    obtain ⟨x, hx, rfl⟩ := List.mem_map.1 hj
    have := (h.keys x ((mem x).2 (.inr (.inr hx)))).1
    simp at hjn
    omega
  · intro j hj
    simp only [htt, List.length_append, List.length_singleton, List.map_append, List.map_cons,
      List.map_nil, List.mem_append, List.mem_singleton] at hj ⊢
    rw [hparNew, List.append_eq_nil_iff]
    by_cases hjn : j = f.nodes.length
    · subst hjn
      rw [if_neg (by omega)]
      simp [hnone]
    · rw [← h.waiting j (by omega), memIdx]
      constructor
      · rintro (hj | hj)
        · refine ⟨.inr (.inr hj), if_neg ?_⟩
          rintro (rfl | rfl)
          · exact har hj
          · exact hbr hj
        · exact absurd hj hjn
      · rintro ⟨hj, hif⟩
        rcases hj with rfl | rfl | hj
        · simp at hif
        · simp at hif
        · exact .inl hj
  · intro j hj hnot
    simp only [htt, List.length_append, List.length_singleton, List.map_append, List.map_cons,
      List.map_nil, List.mem_append, List.mem_singleton, not_or] at hj hnot ⊢
    rw [hparNew]
    by_cases hjab : a.idx = j ∨ b.idx = j
    · rw [if_pos hjab]
      have hjq : j ∈ f.queue.map Key.idx := (memIdx j).2 (by rcases hjab with h | h <;> simp [h])
      rw [(h.waiting j (by omega)).1 hjq]
      simp
    · rw [if_neg hjab, List.append_nil]
      refine h.merged j (by omega) fun hjq => ?_
      rcases (memIdx j).1 hjq with h | h | h
      · exact hjab (.inl h.symm)
      · exact hjab (.inr h.symm)
      · exact hnot.1 h
  · simp only [List.map_append, List.map_cons, List.map_nil, List.sum_append, List.sum_cons,
      List.sum_nil]
    omega
  · intro j k hj hjk hk
    simp only [htt]
    simp only [List.length_append, List.length_singleton] at hk
    by_cases hkn : k = f.nodes.length
    · by_cases hjn : j = f.nodes.length
      · rw [hjn, hkn]
      · have := h.bounded j (by omega) hj a ((mem a).2 (.inl rfl)) b ((mem b).2 (.inr (.inl rfl))) hab
        rw [hkn, hnew, hold j (by omega)]
        simp only [Node.freq, hF]
        exact this
    · rw [hold j (by omega), hold k (by omega)]
      exact h.rising j k hj hjk (by omega)
  · intro k hk hkL x hx y hy hxy
    simp only [htt]
    simp only [List.length_append, List.length_singleton] at hk
    have hk' : (slot t' k).freq.toNat ≤ a.freq + b.freq := by
      by_cases hkn : k = f.nodes.length
      · rw [hkn, hnew]
        simp only [Node.freq, hF]
        omega
      · rw [hold k (by omega)]
        exact h.bounded k (by omega) hkL a ((mem a).2 (.inl rfl)) b ((mem b).2 (.inr (.inl rfl))) hab
    simp only [List.mem_append, List.mem_singleton] at hx hy
    rcases hx with hx | rfl <;> rcases hy with hy | rfl
    · have := hafter x hx
      have := hafter y hy
      omega
    · simp only; omega
    · simp only; omega
    · exact absurd rfl hxy

/-! The seeds -/

theorem mem_presentSymbols (ft : FreqTable) (x : Symbol) :
    x ∈ presentSymbols ft ↔ countOf ft x ≠ 0 := by
  simp [presentSymbols, mem_allSymbols]

theorem presentSymbols_sorted (ft : FreqTable) :
    (presentSymbols ft).Pairwise (fun x y => x.toNat < y.toNat) :=
  allSymbols_sorted.sublist List.filter_sublist

/-- The keys listed in ascending order are what BUILD seeds (R32, R132). -/
theorem presentSymbols_of_lists {ft : FreqTable} {xs : List Symbol} (h : ListsKeys ft xs) :
    presentSymbols ft = xs := by
  refine List.Perm.eq_of_pairwise (le := fun x y : Symbol => x.toNat < y.toNat)
    (fun a b _ _ h1 h2 => by omega) (presentSymbols_sorted ft) h.1 ?_
  have nodup : ∀ {ys : List Symbol}, ys.Pairwise (fun x y => x.toNat < y.toNat) → ys.Nodup :=
    fun hp => hp.imp (fun h heq => by simp [heq] at h)
  refine (List.perm_ext_iff_of_nodup (nodup (presentSymbols_sorted ft)) (nodup h.1)).2 fun x => ?_
  rw [mem_presentSymbols, h.2]

/-- Absent symbols add nothing to the total (R32). -/
theorem total_eq (ft : FreqTable) :
    ((presentSymbols ft).map (fun x => (countOf ft x).toNat)).sum = total ft := by
  rw [total, presentSymbols]
  induction allSymbols with
  | nil => rfl
  | cons x xs ih =>
    rw [List.filter_cons, List.map_cons, List.sum_cons, ← ih]
    by_cases hx : countOf ft x = 0
    · simp [hx]
    · simp only [hx, ne_eq, not_false_eq_true, decide_true, if_true, List.map_cons, List.sum_cons]

/-- The seeds have the invariant (R132). -/
theorem grown_seed (ft : FreqTable) : Grown ft (seed ft) := by
  have L := presentSymbols_length_le ft
  have idx : (seed ft).queue.map Key.idx = List.range (presentSymbols ft).length := by
    simp only [seed, List.map_map]
    rw [show (Key.idx ∘ fun p : Symbol × Nat => Key.mk (countOf ft p.1).toNat p.2) = Prod.snd from rfl,
      ← List.unzip_snd, List.unzip_zipIdx_eq_prod, List.range_eq_range']
  have freq : (seed ft).queue.map Key.freq = (presentSymbols ft).map (fun x => (countOf ft x).toNat) := by
    simp only [seed, List.map_map]
    rw [show (Key.freq ∘ fun p : Symbol × Nat => Key.mk (countOf ft p.1).toNat p.2) =
        (fun x => (countOf ft x).toNat) ∘ Prod.fst from rfl,
      ← List.map_map, ← List.unzip_fst, List.unzip_zipIdx_eq_prod]
  have len : (seed ft).nodes.length = (presentSymbols ft).length := by simp [seed]
  have hslot : ∀ (k : Nat) (x : Symbol), (presentSymbols ft)[k]? = some x →
      slot (storeOf (seed ft).nodes) k = .leaf x (countOf ft x) := by
    intro k x hx
    rw [slot_storeOf (by omega), List.getD_eq_getElem?_getD]
    simp [seed, hx]
  have hnil : ∀ j, parentsBelow (storeOf (seed ft).nodes) (presentSymbols ft).length j = [] := by
    intro j
    rw [List.eq_nil_iff_forall_not_mem]
    intro k hk
    obtain ⟨hk, hi, -⟩ := mem_parentsBelow.1 hk
    rw [hslot k _ (List.getElem?_eq_getElem hk)] at hi
    simp [Node.isInternal] at hi
  refine ⟨?_, by omega, hslot, fun k hk hkL => by omega, ?_, ?_, ?_, ?_, ?_, ?_, ?_⟩
  · simp [seed]
    omega
  · intro q hq
    simp only [seed, List.mem_map] at hq
    obtain ⟨⟨x, k⟩, hp, rfl⟩ := hq
    rw [List.mem_zipIdx_iff_getElem?] at hp
    rw [hslot k x hp, len]
    exact ⟨(List.getElem?_eq_some_iff.1 hp).1, rfl⟩
  · rw [idx]
    exact List.nodup_range
  · intro j hj
    rw [idx, len, hnil]
    simp
    omega
  · intro j hj hno
    rw [idx, List.mem_range] at hno
    omega
  · rw [freq, total_eq]
  · intro j k hj hjk hk
    omega
  · intro k hk hkL
    omega

/-! All rounds -/

theorem grown_mergeRounds {ft : FreqTable} (hsum : total ft < 2 ^ 32) (k : Nat) {f : Forest}
    (h : Grown ft f) (hk : k + 1 ≤ f.queue.length) :
    Grown ft (mergeRounds k f) ∧ (mergeRounds k f).queue.length = f.queue.length - k := by
  induction k generalizing f with
  | zero => exact ⟨h, rfl⟩
  | succ k ih =>
    have hg := h.mergeRound (by omega) hsum
    have h1 := h.count
    have h2 := hg.count
    obtain ⟨a, b, q, rest, -, -, heq⟩ := mergeRound_eq (f := f) (by omega)
    have hn : (mergeRound f).nodes.length = f.nodes.length + 1 := by rw [heq]; simp
    obtain ⟨h3, h4⟩ := ih hg (by omega)
    exact ⟨h3, by rw [mergeRounds, h4]; omega⟩

/-- What BUILD makes of a table that has a key and whose total fits: one key is left in Q, the last
record's, and its frequency is the total (R130, R139). -/
theorem buildNodes_spec {ft : FreqTable} (hsum : total ft < 2 ^ 32) (hL : presentSymbols ft ≠ []) :
    ∃ f q, buildNodes ft = .ok f.nodes ∧ Grown ft f ∧ f.queue = [q] ∧
      f.nodes.length = 2 * (presentSymbols ft).length - 1 ∧ q.idx = f.nodes.length - 1 ∧
      q.freq = total ft := by
  have hpos := List.length_pos_iff.2 hL
  have hlen : (seed ft).queue.length = (presentSymbols ft).length := by simp [seed]
  obtain ⟨hg, hq⟩ := grown_mergeRounds hsum ((seed ft).queue.length - 1) (grown_seed ft) (by omega)
  have hcount := hg.count
  obtain ⟨q, hqq⟩ := List.length_eq_one_iff.1 (show _ = 1 by rw [hq]; omega)
  refine ⟨_, q, by rw [buildNodes, if_neg]; simpa [Config.freqBound] using hsum, hg, hqq, by omega, ?_,
    ?_⟩
  · have hlast : parentsBelow (storeOf (mergeRounds ((seed ft).queue.length - 1) (seed ft)).nodes)
        (mergeRounds ((seed ft).queue.length - 1) (seed ft)).nodes.length
        ((mergeRounds ((seed ft).queue.length - 1) (seed ft)).nodes.length - 1) = [] := by
      rw [List.eq_nil_iff_forall_not_mem]
      intro k hk
      obtain ⟨hk, hi, hc⟩ := mem_parentsBelow.1 hk
      by_cases hkL : k < (presentSymbols ft).length
      · rw [hg.seeds k _ (List.getElem?_eq_getElem hkL)] at hi
        simp [Node.isInternal] at hi
      · obtain ⟨-, -, ⟨hl, -⟩, ⟨hr, -⟩, -⟩ := hg.inner k hk (by omega)
        omega
    have := (hg.waiting _ (by omega)).2 hlast
    rw [hqq, List.map_singleton, List.mem_singleton] at this
    exact this.symm
  · have := hg.sum
    rw [hqq] at this
    simpa using this

/-- A forest with one key left and at least two seeds is a proper tree (R34, R139). -/
theorem Grown.properTree {ft : FreqTable} {f : Forest} (h : Grown ft f) (hq : f.queue.length = 1)
    (hL : 2 ≤ (presentSymbols ft).length) :
    ProperTree (storeOf f.nodes) (BitVec.ofNat 9 (f.nodes.length - 1))
      (BitVec.ofNat 9 f.nodes.length) (presentSymbols ft).length := by
  have L := presentSymbols_length_le ft
  have hcount := h.count
  have leaf : ∀ k (hk : k < (presentSymbols ft).length),
      slot (storeOf f.nodes) k = .leaf (presentSymbols ft)[k] (countOf ft (presentSymbols ft)[k]) :=
    fun k hk => h.seeds k _ (List.getElem?_eq_getElem hk)
  have free : ∀ k, f.nodes.length ≤ k → slot (storeOf f.nodes) k = .free :=
    fun k hk => slot_storeOf_free (by omega) hk
  have all := parentsBelow_storeOf (ns := f.nodes) (by omega)
  have last : parentsBelow (storeOf f.nodes) f.nodes.length (f.nodes.length - 1) = [] := by
    rw [List.eq_nil_iff_forall_not_mem]
    intro k hk
    obtain ⟨hk, hi, hc⟩ := mem_parentsBelow.1 hk
    by_cases hkL : k < (presentSymbols ft).length
    · rw [leaf k hkL] at hi
      simp [Node.isInternal] at hi
    · obtain ⟨-, -, ⟨hl, -⟩, ⟨hr, -⟩, -⟩ := h.inner k hk (by omega)
      omega
  obtain ⟨q, hqq⟩ := List.length_eq_one_iff.1 hq
  have hqi : q.idx = f.nodes.length - 1 := by
    have := (h.waiting _ (by omega)).2 last
    rw [hqq, List.map_singleton, List.mem_singleton] at this
    exact this.symm
  have hn : f.nodes.length = 2 * (presentSymbols ft).length - 1 := by omega
  refine ⟨hL, L, by simp; omega, by simp; omega, ?_, ?_, ?_, ?_, ?_, ?_⟩
  · intro k hk
    rw [leaf k hk]
    refine ⟨rfl, ?_⟩
    have hne := (mem_presentSymbols ft _).1 (List.getElem_mem hk)
    have : (countOf ft (presentSymbols ft)[k]).toNat ≠ 0 := fun h0 => hne (BitVec.eq_of_toNat_eq h0)
    simp only [Node.freq]
    omega
  · intro j hj i hij
    rw [leaf j hj, leaf i (by omega)]
    exact List.pairwise_iff_getElem.1 (presentSymbols_sorted ft) i j _ _ hij
  · intro k hk hkL
    obtain ⟨h1, h2, h3⟩ := h.inner k (by omega) hkL
    exact ⟨h1, h3.1.1, h3.2.1.1, h3.2.2.1, h2⟩
  · intro j hj
    rw [all]
    refine h.merged j (by omega) ?_
    rw [hqq]
    simp
    omega
  · rw [all, ← last]
    congr 1
    omega
  · intro k _ hk
    exact free k (by omega)

/-- The empty table makes no record (R136). -/
theorem buildNodes_empty {ft : FreqTable} (h : presentSymbols ft = []) : buildNodes ft = .ok [] := by
  have ht : total ft = 0 := by rw [← total_eq, h]; rfl
  rw [buildNodes, if_neg (by rw [ht]; decide)]
  simp [seed, h, mergeRounds]

end Sys2Proof.Machine
end

