-- ==== Sys2Proof/Tests/Slice0.lean ====
section
/-! SUPPORT. Tests on the spec's own vectors (spec/95_test_vectors.md), the refusals of ill-formed
parameters, and for every statement with hypotheses a witness that meets them all together. -/

namespace Sys2Proof.Tests

open Sys2Proof Sys2Proof.Machine

/-! ## Helpers -/

/-- A state whose buffer holds the bytes, its length set to their number. -/
def holding (b : Buffer) (bytes : List Byte) (s : State) : State := commitBuffer b bytes s

/-- Whether the command answers a next state of which `p` is true. -/
def after (i : Instr) (s : State) (p : State → Bool) : Bool :=
  match exec i s with
  | .next t => p t
  | .fault _ => false
  | .refused _ => false

/-- Whether a step answers a next state of which `p` is true. -/
def afterStep (s : State) (p : State → Bool) : Bool :=
  match step s with
  | .next t => p t
  | .fault _ => false
  | .refused _ => false

theorem exists_of_after {i : Instr} {s : State} {p : State → Bool} (h : after i s p = true) :
    ∃ t, exec i s = .next t ∧ p t = true := by
  rw [after] at h
  split at h
  · next t ht => exact ⟨t, ht, h⟩
  · exact absurd h (by decide)
  · exact absurd h (by decide)

theorem exists_of_afterStep {s : State} {p : State → Bool} (h : afterStep s p = true) :
    ∃ t, step s = .next t ∧ p t = true := by
  rw [afterStep] at h
  split at h
  · next t ht => exact ⟨t, ht, h⟩
  · exact absurd h (by decide)
  · exact absurd h (by decide)

/-- The bits of `0` and `1` characters. -/
abbrev z : Bool := false

/-- The bit 1. -/
abbrev u : Bool := true

/-- FT of vector X1: a 3, b 2, c 1. -/
def x1Freq : FreqTable :=
  setCount (setCount (setCount (Vector.replicate 256 0) 0x61 3) 0x62 2) 0x63 1

/-- CT of vector X1: a "0", b "11", c "10". -/
def x1Codes : CodeTable :=
  setCode (setCode (setCode emptyCodes 0x61 [z]) 0x62 [u, u]) 0x63 [u, z]

/-- The entries of X1's table. -/
def x1Entries : Entries := [(0x61, [z]), (0x62, [u, u]), (0x63, [u, z])]

/-- The state of vector X1 after GEN, with empty buffers. -/
def x1 : State :=
  { commitTree [.leaf 0x61 3, .leaf 0x62 2, .leaf 0x63 1, .internal 3 2 1, .internal 6 0 3]
      State.reset with ft := x1Freq, ct := x1Codes }

/-- The state of vector X5 after GEN: the lone leaf a, with count 4. -/
def x5 : State :=
  { commitTree [.leaf 0x61 4] State.reset with
    ft := setCount (Vector.replicate 256 0) 0x61 4
    ct := setCode emptyCodes 0x61 [z] }

/-- `s` on a device with other capacities. -/
def sized (sym bit art : Nat) (s : State) : State :=
  { s with params := { symCap := sym, bitCap := bit, artCap := art } }

/-- `s` with the host about to issue one transaction. -/
def issuing (t : Transaction) (s : State) : State := { s with script := [t] }

/-! ## Ill-formed parameters are refused (00_scope.md R5) -/

theorem test_wf_params : Config.vectorParams.wf = true := by decide
theorem test_ill_symCap_zero : (Params.mk 0 32768 65536).wf = false := by decide
theorem test_ill_symCap_large : (Params.mk (2 ^ 32) 32768 65536).wf = false := by decide
theorem test_ill_bitCap_zero : (Params.mk 4096 0 65536).wf = false := by decide
theorem test_ill_bitCap_large : (Params.mk 4096 (2 ^ 32) 65536).wf = false := by decide
theorem test_ill_artCap_zero : (Params.mk 4096 32768 0).wf = false := by decide
theorem test_ill_artCap_large : (Params.mk 4096 32768 (2 ^ 32)).wf = false := by decide
theorem test_wf_params_bounds : (Params.mk 1 (2 ^ 32 - 1) 1).wf = true := by decide

/-! ## Words, bit by bit: ZERO [31:4], OP [3:0] (30_encoding.md R90, R91; vectors H11, H12) -/

theorem test_word_freq : decode 0b00000000000000000000000000000001#32 = .ok .freq := by decide
theorem test_word_build : decode 0b00000000000000000000000000000010#32 = .ok .build := by decide
theorem test_word_gen : decode 0b00000000000000000000000000000011#32 = .ok .gen := by decide
theorem test_word_enc : decode 0b00000000000000000000000000000100#32 = .ok .enc := by decide
theorem test_word_dect : decode 0b00000000000000000000000000000101#32 = .ok .dect := by decide
theorem test_word_decp : decode 0b00000000000000000000000000000110#32 = .ok .decp := by decide
theorem test_word_ser : decode 0b00000000000000000000000000000111#32 = .ok .ser := by decide
theorem test_word_deser : decode 0b00000000000000000000000000001000#32 = .ok .deser := by decide
theorem test_word_zero : decode 0 = .error (.reservedOp 0) := by decide
theorem test_word_bit4 : decode 0b00000000000000000000000000010010#32 = .error .nonZeroField := by
  decide
theorem test_word_bit31 : decode 0b10000000000000000000000000000010#32 = .error .nonZeroField := by
  decide
theorem test_table_words : (List.range 16).filterMap (decodeTableWord 32) =
    [.freq, .build, .gen, .enc, .dect, .decp, .ser, .deser] := by decide
theorem test_table_word_zero_above : decodeTableWord 4 0xF2 = some .build := by decide
theorem test_table_word_too_long : decodeTableWord 40 0x0100000002 = none := by decide

/-! ## Commands (95_test_vectors.md part 2) -/

/-- A1. -/
theorem test_freq_a1 : after .freq (holding .sym [0x61, 0x61, 0x61, 0x62, 0x62, 0x63] State.reset)
    (fun t => countOf t.ft 0x61 = 3 && countOf t.ft 0x62 = 2 && countOf t.ft 0x64 = 0 &&
      t.status.word = 0) = true := by decide +kernel

/-- A2, on a table left by an earlier command. -/
theorem test_freq_a2 : after .freq x1
    (fun t => countOf t.ft 0x61 = 0 && t.status.word = 0x10) = true := by decide +kernel

/-- B6: two Leaves go before the Internal node of the same frequency. -/
theorem test_build_b6 : after .build { State.reset with
      ft := setCount (setCount (setCount (setCount (Vector.replicate 256 0) 0x61 1) 0x62 1) 0x63 2)
        0x64 2 }
    (fun t => slot t.tree 4 = .internal 2 0 1 && slot t.tree 5 = .internal 4 2 3 &&
      slot t.tree 6 = .internal 6 4 5 && slot t.tree 7 = .free && t.root = 6 && t.nnodes = 7) =
    true := by decide +kernel

/-- X1. -/
theorem test_build_x1 : after .build { State.reset with ft := x1Freq }
    (fun t => slot t.tree 3 = .internal 3 2 1 && slot t.tree 4 = .internal 6 0 3 && t.root = 4) =
    true := by decide +kernel

/-- G1. -/
theorem test_gen_g1 : after .gen { x1 with ct := emptyCodes } 
    (fun t => codeOf t.ct 0x61 = [z] && codeOf t.ct 0x62 = [u, u] && codeOf t.ct 0x63 = [u, z]) =
    true := by decide +kernel

/-- G8, and what an earlier table held is gone (G10). -/
theorem test_gen_g8 : after .gen { x5 with ct := x1Codes } 
    (fun t => codeOf t.ct 0x61 = [z] && codeOf t.ct 0x62 = []) = true := by decide +kernel

/-- E2. -/
theorem test_enc_e2 : after .enc (holding .sym [0x63, 0x61, 0x62] x1)
    (fun t => t.window .bit = [0x31, 0x30, 0x30, 0x31, 0x31] && t.bitlen = 5 && t.status.word = 0) =
    true := by decide +kernel

/-- E11: the ninth symbol overflows before the unknown one is reached. -/
theorem test_enc_e11 : after .enc
    (sized 4096 8 65536 (holding .sym (List.replicate 9 0x61 ++ [0x64]) x1))
    (fun t => t.bitlen = 0 && t.status.word = 4) = true := by decide +kernel

/-- T5. -/
theorem test_dect_t5 : after .dect (holding .bit [0x30, 0x31, 0x30, 0x31, 0x31] x1)
    (fun t => t.window .sym = [0x61, 0x63, 0x62] && t.status.word = 0) = true := by decide +kernel

/-- T17: on the lone leaf the bit value is not used. -/
theorem test_dect_t17 : after .dect (holding .bit [0x30, 0x31, 0x30, 0x31] x5)
    (fun t => t.window .sym = [0x61, 0x61, 0x61, 0x61] && t.status.word = 0) = true := by
  decide +kernel

/-- T6. -/
theorem test_decp_t6 : after .decp
    (holding .bit [0x30, 0x30, 0x30, 0x31, 0x31, 0x31, 0x31, 0x31, 0x30] x1)
    (fun t => t.window .sym = [0x61, 0x61, 0x61, 0x62, 0x62, 0x63] && t.status.word = 0) = true := by
  decide +kernel

/-- T17. -/
theorem test_decp_t17 : after .decp (holding .bit [0x30, 0x31, 0x30, 0x31] x5)
    (fun t => t.symlen = 0 && t.status.word = 2) = true := by decide +kernel

/-- Q1. -/
theorem test_ser_q1 : after .ser x1
    (fun t => t.window .art = [0x61, 0x3A, 0x30, 0x0A, 0x62, 0x3A, 0x31, 0x31, 0x0A, 0x63, 0x3A, 0x31,
      0x30, 0x0A] && t.artlen = 14 && t.status.err = .ok) = true := by decide +kernel

/-- Q7: one byte short. -/
theorem test_ser_q7 : after .ser (sized 4096 32768 13 x1)
    (fun t => t.artlen = 0 && t.status.word = 4) = true := by decide +kernel

/-- D17: the delimiters as symbols. -/
theorem test_deser_d17 : after .deser
    (holding .art [0x3A, 0x3A, 0x30, 0x0A, 0x0A, 0x3A, 0x31, 0x0A] x1)
    (fun t => codeOf t.ct 0x3A = [z] && codeOf t.ct 0x0A = [u] && codeOf t.ct 0x61 = []) = true := by
  decide +kernel

/-- D7: "0" is a prefix of "01"; the table of before is still there. -/
theorem test_deser_d7 : after .deser
    (holding .art [0x61, 0x3A, 0x30, 0x0A, 0x62, 0x3A, 0x30, 0x31, 0x0A] x1)
    (fun t => codeOf t.ct 0x63 = [u, z] && t.status.word = 3) = true := by decide +kernel

/-! ## The host's transactions (part 2.9) -/

/-- H4. -/
theorem test_read_tree : afterStep (issuing (.hrd 5 4) x1)
    (fun t => t.responses = [.packed 0x0000000680003000]) = true := by decide +kernel

/-- H8. -/
theorem test_write_root_refused : afterStep (issuing (.hwr 0 5 0) x1)
    (fun t => t.root = 4 && t.responses = [.refused .readOnly]) = true := by decide +kernel

/-- H10. -/
theorem test_write_symlen_refused : afterStep (issuing (.hwr 0 2 4097) x1)
    (fun t => t.symlen = 0 && t.responses = [.refused .lengthBeyondCapacity]) = true := by
  decide +kernel

/-- H12. -/
theorem test_illegal_word : afterStep (issuing (.hwr 0 0 0x12) x1)
    (fun t => t.status.word = 5 && slot t.tree 4 = .internal 6 0 3) = true := by decide +kernel

/-- H15. -/
theorem test_reset : afterStep (issuing .reset x1)
    (fun t => t.root = 0x1FF && slot t.tree 0 = .free && codeOf t.ct 0x61 = []) = true := by
  decide +kernel

/-- A fetched word runs as the next step: BUILD's word on X1's table. -/
theorem test_withFetchWord : afterStep (State.withFetchWord { State.reset with ft := x1Freq } 32 2)
    (fun t => slot t.tree 4 = .internal 6 0 3 && t.script = []) = true := by decide +kernel

/-! ## Facts about the vectors' states -/

theorem exec_answers (i : Instr) (s : State) : ∃ t, exec i s = .next t := by
  have h : ∀ {α : Type} (r : Except Err α) (c : α → State → State), ∃ t, conclude r c s = .next t := by
    intro α r c
    cases r <;> exact ⟨_, rfl⟩
  cases i <;> simp only [exec, execFreq, execBuild, execGen, execEnc, execDect, execDecp, execSer,
    execDeser] <;> exact h _ _

theorem holding_window (b : Buffer) (bytes : List Byte) (s : State) (h : bytes.length < 2 ^ 32) :
    (holding b bytes s).window b = bytes := commitBuffer_window b bytes s h

theorem sized_window (sym bit art : Nat) (s : State) (b : Buffer) :
    (sized sym bit art s).window b = s.window b := by cases b <;> rfl

theorem x1_lists : ListsKeys x1.ft [0x61, 0x62, 0x63] := by
  refine ⟨by decide, fun x => ?_⟩
  simp only [x1, x1Freq, countOf_setCount, countOf_zero]
  by_cases h1 : x = 0x63 <;> by_cases h2 : x = 0x62 <;> by_cases h3 : x = 0x61 <;> simp_all

theorem x1_total : (allSymbols.map (fun x => (countOf x1.ft x).toNat)).sum = 6 := by
  have h := total_eq x1.ft
  rw [presentSymbols_of_lists x1_lists] at h
  exact h.symm

theorem x1_codes (x : Symbol) : codeOf x1.ct x =
    if x = 0x63 then [u, z] else if x = 0x62 then [u, u] else if x = 0x61 then [z] else [] := by
  simp only [x1, x1Codes, codeOf_setCode, codeOf_emptyCodes]

theorem x1_present : ListsPresent x1.ct [0x61, 0x62, 0x63] := by
  refine ⟨by decide, fun x => ?_⟩
  rw [x1_codes]
  by_cases h1 : x = 0x63 <;> by_cases h2 : x = 0x62 <;> by_cases h3 : x = 0x61 <;> simp_all

theorem x1_entries : GoodEntries x1Entries ∧ HoldsEntries x1.ct x1Entries := by
  refine ⟨by decide, ?_, fun x hx => ?_⟩
  · simp [x1Entries, x1_codes]
  · rw [x1_codes]
    simp only [x1Entries, List.forall_mem_cons] at hx
    rw [if_neg (Ne.symm hx.2.2.1), if_neg (Ne.symm hx.2.1), if_neg (Ne.symm hx.1)]

theorem x1_codesHold : CodesHold x1.ct := codesHold_of_holdsEntries x1_entries.1 x1_entries.2

/-- X1's tree is a proper tree with three leaves. -/
theorem x1_proper : ProperTree x1.tree x1.root x1.nnodes 3 := by
  have h : x1.tree = storeOf [.leaf 0x61 3, .leaf 0x62 2, .leaf 0x63 1, .internal 3 2 1,
    .internal 6 0 3] := rfl
  rw [h]
  refine ⟨by decide, by decide, by decide, by decide, ?_, ?_, ?_, ?_, ?_, ?_⟩
  · decide +kernel
  · decide +kernel
  · decide +kernel
  · intro j hj
    rw [parentsBelow_storeOf (by decide)]
    revert j
    decide +kernel
  · rw [parentsBelow_storeOf (by decide)]
    decide +kernel
  · exact fun k _ hk => slot_storeOf_free (by decide) hk

theorem x1_right : (nodeAt x1.tree x1.root).isInternal = true ∧
    (nodeAt x1.tree x1.root).right = 3 := by decide +kernel

/-- The paths of X1's tree: a "0", b "11", c "10". -/
theorem x1_paths : LeafPath x1.tree x1.root 0x61 [z] ∧ LeafPath x1.tree x1.root 0x62 [u, u] ∧
    LeafPath x1.tree x1.root 0x63 [u, z] := by
  have left4 : (nodeAt x1.tree x1.root).left = 0 := by decide +kernel
  have left3 : (nodeAt x1.tree 3).left = 2 := by decide +kernel
  have right3 : (nodeAt x1.tree 3).right = 1 := by decide +kernel
  have inner3 : (nodeAt x1.tree 3).isInternal = true := by decide +kernel
  refine ⟨⟨0, 3, .left x1_right.1 (by rw [left4]; exact .here _), by decide +kernel⟩,
    ⟨1, 2, .right x1_right.1 ?_, by decide +kernel⟩,
    ⟨2, 1, .right x1_right.1 ?_, by decide +kernel⟩⟩ <;> rw [x1_right.2]
  · exact .right inner3 (by rw [right3]; exact .here _)
  · exact .left inner3 (by rw [left3]; exact .here _)

theorem x5_lone : LoneLeaf x5.tree x5.root x5.nnodes := by
  refine ⟨rfl, rfl, by decide +kernel, by decide +kernel, fun k _ hk => ?_⟩
  have h : x5.tree = storeOf [.leaf 0x61 4] := rfl
  rw [h]
  exact slot_storeOf_free (by simp) (by simpa using hk)

theorem x5_leaf : nodeAt x5.tree x5.root = .leaf 0x61 4 := by decide +kernel

theorem x5_entries : GoodEntries [(0x61, [z])] ∧ HoldsEntries x5.ct [(0x61, [z])] := by
  refine ⟨by decide, ?_, fun x hx => ?_⟩
  · simp [x5, codeOf_setCode]
  · simp only [List.forall_mem_cons] at hx
    rw [x5, codeOf_setCode, if_neg (Ne.symm hx.1), codeOf_emptyCodes]

theorem reset_noTree : NoTree State.reset.tree State.reset.root State.reset.nnodes :=
  ⟨rfl, rfl, fun k hk => by simp [State.reset, slot, hk]⟩

theorem rangesHold_reset : RangesHold State.reset where
  params := by decide
  lens b := by cases b <;> decide
  canonical b := by cases b <;> decide
  inside b := by cases b <;> decide

/-- The input `aab` in SYM. -/
theorem rangesHold_aab : RangesHold (holding .sym [0x61, 0x61, 0x62] State.reset) where
  params := by decide
  lens b := by cases b <;> decide
  canonical b := by cases b <;> decide
  inside b := by cases b <;> decide

/-! ## Witnesses: states and operands that meet a statement's hypotheses together -/

theorem witness_ResetTransactionRestoresResetValues : (issuing .reset x1).script = .reset :: [] := rfl

theorem witness_StepRunsDecodedCommand :
    (issuing (.hwr 0 0 2) x1).script = .hwr 0 0 2 :: [] ∧ 2 < 2 ^ 32 ∧
    decode (BitVec.ofNat 32 2) = .ok .build ∧ Instr.build.wf = true := ⟨rfl, by decide, by decide, rfl⟩

/-- The boundary words 0, 9 and 2^32 − 1. -/
theorem witness_IllegalWordOnlySetsStatus : ∀ v ∈ [0, 9, 2 ^ 32 - 1],
    (issuing (.hwr 0 0 v) x1).script = .hwr 0 0 v :: [] ∧ v < 2 ^ 32 ∧ (v = 0 ∨ 9 ≤ v) := by
  intro v hv
  exact ⟨rfl, by revert v; decide, by revert v; decide⟩

theorem witness_OnlyFreqOnEmptyInputWarns :
    (∃ t, exec .freq State.reset = .next t) ∧ State.reset.symlen = 0 := ⟨⟨_, rfl⟩, rfl⟩

/-- B11: a total of 2^32. -/
theorem witness_BuildChecksTotalFrequency_above :
    2 ^ 32 ≤ (allSymbols.map (fun x => (countOf (setCount (setCount (Vector.replicate 256 0) 0x61
      0xFFFFFFFF) 0x62 1) x).toNat)).sum := by
  have h := total_eq (setCount (setCount (Vector.replicate 256 0) 0x61 0xFFFFFFFF) 0x62 1)
  rw [presentSymbols_of_lists (xs := [0x61, 0x62]) ⟨by decide, fun x => by
    simp only [countOf_setCount, countOf_zero]
    by_cases h1 : x = 0x62 <;> by_cases h2 : x = 0x61 <;> simp_all⟩] at h
  exact le_of_eq h

/-- B9: a total of 2^32 − 1. -/
theorem witness_BuildChecksTotalFrequency_below :
    (allSymbols.map (fun x => (countOf (setCount (setCount (Vector.replicate 256 0) 0x61
      0xFFFFFFFE) 0x62 1) x).toNat)).sum < 2 ^ 32 := by
  have h := total_eq (setCount (setCount (Vector.replicate 256 0) 0x61 0xFFFFFFFE) 0x62 1)
  rw [presentSymbols_of_lists (xs := [0x61, 0x62]) ⟨by decide, fun x => by
    simp only [countOf_setCount, countOf_zero]
    by_cases h1 : x = 0x62 <;> by_cases h2 : x = 0x61 <;> simp_all⟩] at h
  exact lt_of_eq_of_lt h.symm (by decide)

theorem witness_BuildChecksTotalFrequency_freq :
    ∃ t u, exec .freq (holding .sym [0x61, 0x62] x1) = .next t ∧ exec .build t = .next u := by
  obtain ⟨t, ht⟩ := exec_answers .freq (holding .sym [0x61, 0x62] x1)
  obtain ⟨u, hu⟩ := exec_answers .build t
  exact ⟨t, u, ht, hu⟩

theorem witness_BuildOfEmptyTableIsNoTree : ∀ x : Symbol, countOf State.reset.ft x = 0 :=
  fun x => countOf_zero x

/-- B14's shape: one symbol. -/
theorem witness_BuildOfOneSymbolIsLoneLeaf : ∀ y : Symbol, countOf x5.ft y ≠ 0 ↔ y = 0x61 := by
  intro y
  simp only [x5, countOf_setCount, countOf_zero]
  split <;> simp_all

theorem witness_BuildSeedsLeavesInSymbolOrder : ListsKeys x1.ft [0x61, 0x62, 0x63] ∧
    (allSymbols.map (fun x => (countOf x1.ft x).toNat)).sum < 2 ^ 32 ∧
    [(0x61 : Symbol), 0x62, 0x63][2]? = some 0x63 :=
  ⟨x1_lists, by rw [x1_total]; decide, rfl⟩

/-- X1 with its records, ready to be built. -/
theorem x1_build : ∃ t, exec .build x1 = .next t ∧ t.status.err = .ok ∧
    (slot t.tree 4).isInternal = true := by
  obtain ⟨t, ht, hp⟩ := exists_of_after (i := .build) (s := x1)
    (p := fun t => t.status.err = .ok && (slot t.tree 4).isInternal) (by decide +kernel)
  exact ⟨t, ht, by simpa using hp⟩

theorem witness_BuildMergesTheTwoLeast : ∃ t, exec .build x1 = .next t ∧ t.status.err = .ok ∧
    (slot t.tree 4).isInternal = true := x1_build

theorem witness_BuildMakesProperTree : ListsKeys x1.ft [0x61, 0x62, 0x63] ∧
    2 ≤ [(0x61 : Symbol), 0x62, 0x63].length ∧
    (allSymbols.map (fun x => (countOf x1.ft x).toNat)).sum < 2 ^ 32 :=
  ⟨x1_lists, by decide, by rw [x1_total]; decide⟩

theorem witness_GenCodesAreTreePaths : ProperTree x1.tree x1.root x1.nnodes 3 ∧ [z] ≠ [] :=
  ⟨x1_proper, by decide⟩

theorem witness_GenOfLoneLeafAndOfNoTree :
    LoneLeaf x5.tree x5.root x5.nnodes ∧ State.reset.root = Config.nil := ⟨x5_lone, rfl⟩

/-- The three shapes. -/
theorem witness_GenCodesArePrefixFree : ∀ s ∈ [x1, x5, State.reset],
    TreeShape s.tree s.root s.nnodes ∧ ∃ t, exec .gen s = .next t := by
  intro s hs
  refine ⟨?_, exec_answers _ _⟩
  simp only [List.mem_cons, List.not_mem_nil, or_false] at hs
  rcases hs with rfl | rfl | rfl
  · exact .inr (.inr x1_proper)
  · exact .inr (.inl x5_lone)
  · exact .inl reset_noTree

theorem witness_GenCodesAreComplete : ProperTree x1.tree x1.root x1.nnodes 3 ∧
    ∃ t, exec .gen x1 = .next t := ⟨x1_proper, exec_answers _ _⟩

theorem witness_WeightedLengthIsInternalSum : ∃ t u, ListsKeys x1.ft [0x61, 0x62, 0x63] ∧
    2 ≤ [(0x61 : Symbol), 0x62, 0x63].length ∧ exec .build x1 = .next t ∧ t.status.err = .ok ∧
    exec .gen t = .next u := by
  obtain ⟨t, ht, hok, -⟩ := x1_build
  obtain ⟨u, hu⟩ := exec_answers .gen t
  exact ⟨t, u, x1_lists, by decide, ht, hok, hu⟩

/-- E2 on a device whose BIT holds exactly the output. -/
theorem witness_EncConcatenatesCodes :
    (sized 4096 5 65536 (holding .sym [0x63, 0x61, 0x62] x1)).params.wf = true ∧
    (∀ x ∈ (sized 4096 5 65536 (holding .sym [0x63, 0x61, 0x62] x1)).window .sym,
      codeOf x1.ct x ≠ []) ∧
    (codesOf x1.ct ((sized 4096 5 65536 (holding .sym [0x63, 0x61, 0x62] x1)).window .sym)).length ≤
      5 := by
  have hw : (sized 4096 5 65536 (holding .sym [0x63, 0x61, 0x62] x1)).window .sym =
    [0x63, 0x61, 0x62] := by rw [sized_window, holding_window _ _ _ (by decide)]
  rw [hw]
  simp [codesOf, x1_codes]
  decide

/-- E4, the unknown symbol, after symbols that fit. -/
theorem witness_EncReportsFirstError_unknown :
    (holding .sym [0x61, 0x62, 0x64] x1).window .sym = [0x61, 0x62] ++ 0x64 :: [] ∧
    (∀ y ∈ [0x61, 0x62], codeOf x1.ct y ≠ []) ∧ (codesOf x1.ct [0x61, 0x62]).length ≤ 32768 ∧
    codeOf x1.ct 0x64 = [] := by
  refine ⟨holding_window _ _ _ (by decide), ?_, ?_, ?_⟩ <;> simp [codesOf, x1_codes]

/-- E8's shape: the last code passes BIT_CAP by one bit. -/
theorem witness_EncReportsFirstError_capacity :
    (sized 4096 2 65536 (holding .sym [0x61, 0x62] x1)).window .sym = [0x61] ++ 0x62 :: [] ∧
    (∀ y ∈ [0x61], codeOf x1.ct y ≠ []) ∧ (codesOf x1.ct [0x61]).length ≤ 2 ∧
    codeOf x1.ct 0x62 ≠ [] ∧ 2 < (codesOf x1.ct ([0x61] ++ [0x62])).length := by
  refine ⟨by rw [sized_window, holding_window _ _ _ (by decide)]; rfl, ?_, ?_, ?_, ?_⟩ <;>
    simp [codesOf, x1_codes]

/-- A device whose BIT holds any encoding of its SYM. -/
theorem witness_EncReportsFirstError_noCapacity : RangesHold (sized 1 255 1 x1) ∧
    CodesHold (sized 1 255 1 x1).ct ∧
    255 * (sized 1 255 1 x1).params.symCap ≤ (sized 1 255 1 x1).params.bitCap ∧
    ∃ t, exec .enc (sized 1 255 1 x1) = .next t := by
  refine ⟨⟨by decide, fun b => ?_, fun b => ?_, fun b => ?_⟩, x1_codesHold, by decide, exec_answers _ _⟩
  · cases b <;> exact Nat.zero_le _
  · cases b <;> exact List.Pairwise.nil
  · cases b <;> exact fun _ h => absurd h List.not_mem_nil

theorem witness_EncOfEmptyInput : x1.symlen = 0 := rfl

/-- E12: `ab`, then `c`. -/
theorem witness_EncOfConcatenatedInput : ∃ a' b' c',
    (holding .sym [0x61, 0x62, 0x63] x1).window .sym =
      (holding .sym [0x61, 0x62] x1).window .sym ++ (holding .sym [0x63] x1).window .sym ∧
    exec .enc (holding .sym [0x61, 0x62] x1) = .next a' ∧
    exec .enc (holding .sym [0x63] x1) = .next b' ∧
    exec .enc (holding .sym [0x61, 0x62, 0x63] x1) = .next c' ∧
    a'.status.err = .ok ∧ b'.status.err = .ok ∧ c'.status.err = .ok ∧ x1.params.wf = true := by
  have run : ∀ xs ∈ [[0x61, 0x62], [0x63], [0x61, 0x62, 0x63]],
      ∃ t, exec .enc (holding .sym xs x1) = .next t ∧ t.status.err = .ok := by
    intro xs hxs
    have hloop : encLoop (holding .sym xs x1).ct (holding .sym xs x1).params.bitCap xs [] =
        .ok (codesOf x1.ct xs) := by
      have hct : (holding .sym xs x1).ct = x1.ct := rfl
      have hcap : (holding .sym xs x1).params.bitCap = 32768 := rfl
      simp only [List.mem_cons, List.not_mem_nil, or_false] at hxs
      rw [hct, hcap]
      rcases hxs with rfl | rfl | rfl <;> simp [encLoop, codesOf, x1_codes]
    have hw : (holding .sym xs x1).window .sym = xs := holding_window _ _ _ (by revert xs; decide)
    exact ⟨commitBuffer .bit ((codesOf x1.ct xs).map bitByte) (holding .sym xs x1),
      by rw [exec, execEnc, hw, hloop, conclude_ok], rfl⟩
  obtain ⟨a', ha, ha'⟩ := run [0x61, 0x62] (by simp)
  obtain ⟨b', hb, hb'⟩ := run [0x63] (by simp)
  obtain ⟨c', hc, hc'⟩ := run [0x61, 0x62, 0x63] (by simp)
  refine ⟨a', b', c', ?_, ha, hb, hc, ha', hb', hc', by decide⟩
  rw [holding_window _ _ _ (by decide), holding_window _ _ _ (by decide),
    holding_window _ _ _ (by decide)]
  rfl

/-- T5: `acb` as three paths. -/
theorem witness_DectDecodesTreePaths :
    (holding .bit [0x30, 0x31, 0x30, 0x31, 0x31] x1).params.wf = true ∧
    ProperTree x1.tree x1.root x1.nnodes 3 ∧
    (∀ p ∈ [((0x61 : Symbol), [z]), (0x63, [u, z]), (0x62, [u, u])],
      LeafPath x1.tree x1.root p.1 p.2) ∧
    (holding .bit [0x30, 0x31, 0x30, 0x31, 0x31] x1).window .bit =
      [((0x61 : Symbol), [z]), (0x63, [u, z]), (0x62, [u, u])].flatMap (fun p => p.2.map bitByte) ∧
    [((0x61 : Symbol), [z]), (0x63, [u, z]), (0x62, [u, u])].length ≤ 4096 := by
  refine ⟨by decide, x1_proper, ?_, holding_window _ _ _ (by decide), by decide⟩
  have h := x1_paths
  exact List.forall_mem_cons.2 ⟨h.1, List.forall_mem_cons.2 ⟨h.2.2, List.forall_mem_singleton.2 h.2.1⟩⟩

/-- T17 on a device that holds exactly four symbols, and T18. -/
theorem witness_DectOfLoneLeaf : x5.root ≠ Config.nil ∧ nodeAt x5.tree x5.root = .leaf 0x61 4 ∧
    (sized 4 32768 65536 (holding .bit [0x30, 0x31, 0x30, 0x31] x5)).params.wf = true ∧
    (∀ b ∈ (sized 4 32768 65536 (holding .bit [0x30, 0x31, 0x30, 0x31] x5)).window .bit,
      b = 0x30 ∨ b = 0x31) ∧
    (sized 4 32768 65536 (holding .bit [0x30, 0x31, 0x30, 0x31] x5)).bitlen.toNat ≤ 4 ∧
    (holding .bit [0x30, 0x31, 0x78] x5).window .bit = [0x30, 0x31] ++ 0x78 :: [] ∧
    (∀ d ∈ [(0x30 : Byte), 0x31], d = 0x30 ∨ d = 0x31) := by
  refine ⟨by decide, x5_leaf, by decide, ?_, by decide, holding_window _ _ _ (by decide), by decide⟩
  rw [sized_window, holding_window _ _ _ (by decide)]
  decide

/-- T19 and T20. -/
theorem witness_DectWithoutTree : State.reset.root = Config.nil ∧ State.reset.bitlen = 0 ∧
    (holding .bit [0x30] State.reset).root = Config.nil ∧
    (holding .bit [0x30] State.reset).bitlen ≠ 0 := ⟨rfl, rfl, rfl, by decide⟩

/-- T8's shape: one bit after a whole code. -/
theorem witness_DectRejectsStreamEndingMidCode : ProperTree x1.tree x1.root x1.nnodes 3 ∧
    (∀ p ∈ [((0x61 : Symbol), [z])], LeafPath x1.tree x1.root p.1 p.2) ∧ [u] ≠ [] ∧
    PathTo x1.tree x1.root [u] 3 ∧ (nodeAt x1.tree 3).isInternal = true ∧
    (holding .bit [0x30, 0x31] x1).window .bit =
      [((0x61 : Symbol), [z])].flatMap (fun p => p.2.map bitByte) ++ [u].map bitByte := by
  refine ⟨x1_proper, List.forall_mem_singleton.2 x1_paths.1, by decide, .right x1_right.1 ?_, by decide +kernel,
    holding_window _ _ _ (by decide)⟩
  rw [x1_right.2]
  exact .here _

/-- An Internal root whose children are NIL, and one whose children are Free, at the first step. -/
theorem witness_DectRejectsMissingChild : ∀ child ∈ [Config.nil, 5], ∀ v : Bool,
    let s := holding .bit [bitByte v] (commitTree [.internal 1 child child] State.reset)
    s.root ≠ Config.nil ∧ (nodeAt s.tree s.root).isInternal = true ∧ PathTo s.tree s.root [] s.root ∧
    s.window .bit = [] ++ ([].map bitByte ++ bitByte v :: []) ∧
    (let c := if v then (nodeAt s.tree s.root).right else (nodeAt s.tree s.root).left
     c = Config.nil ∨ nodeAt s.tree c = .free) := by
  intro child hc v
  refine ⟨?_, ?_, .here _, holding_window _ _ _ (by simp), ?_⟩
  · exact (by decide : (0 : NodeIdx) ≠ Config.nil)
  · revert v child
    decide +kernel
  · revert v child
    decide +kernel

/-- A whole code `10`, then a step to record 3, whose right child is NIL. -/
theorem witness_DectRejectsMissingChild_later :
    let s := holding .bit [0x31, 0x30, 0x31, 0x31]
      (commitTree [.leaf 0x61 3, .leaf 0x62 2, .leaf 0x63 1, .internal 3 2 Config.nil,
        .internal 6 0 3] State.reset)
    s.root ≠ Config.nil ∧ (nodeAt s.tree s.root).isInternal = true ∧
    (∀ p ∈ [((0x63 : Symbol), [u, z])], LeafPath s.tree s.root p.1 p.2) ∧
    PathTo s.tree s.root [u] 3 ∧ (nodeAt s.tree 3).isInternal = true ∧
    s.window .bit = [((0x63 : Symbol), [u, z])].flatMap (fun p => p.2.map bitByte) ++
      ([u].map bitByte ++ bitByte u :: []) ∧ (nodeAt s.tree 3).right = Config.nil := by
  intro s
  have root : (nodeAt s.tree s.root).isInternal = true ∧ (nodeAt s.tree s.root).right = 3 := by
    decide +kernel
  have three : (nodeAt s.tree 3).isInternal = true ∧ (nodeAt s.tree 3).left = 2 ∧
    (nodeAt s.tree 3).right = Config.nil := by decide +kernel
  have path : PathTo s.tree s.root [u] 3 := .right root.1 (by rw [root.2]; exact .here _)
  refine ⟨?_, root.1, List.forall_mem_singleton.2 ⟨2, 1, ?_, by decide +kernel⟩, path, three.1,
    holding_window _ _ _ (by decide), three.2.2⟩
  · exact (by decide : (4 : NodeIdx) ≠ Config.nil)
  · refine .right root.1 ?_
    rw [root.2]
    exact .left three.1 (by rw [three.2.1]; exact .here _)

theorem witness_DectRejectsMissingChild_never : ProperTree x1.tree x1.root x1.nnodes 3 ∧
    (nodeAt x1.tree 3).isInternal = true := ⟨x1_proper, by decide +kernel⟩

/-- T12. -/
theorem witness_DecodersRejectNonBits :
    (holding .bit [0x30, 0x78, 0x30] x1).window .bit = [0x30] ++ 0x78 :: [0x30] ∧
    (0x78 : Byte) ≠ 0x30 ∧ (0x78 : Byte) ≠ 0x31 ∧ [(0x30 : Byte)].length ≤ 4096 :=
  ⟨holding_window _ _ _ (by decide), by decide, by decide, by decide⟩

/-- T26: the bytes before the bad one, alone, pass SYM_CAP by one symbol. -/
theorem witness_DecodersRejectNonBits_capacity :
    (sized 4 32768 65536 (holding .bit (List.replicate 5 0x30 ++ [0x78]) x5)).window .bit =
      List.replicate 5 0x30 ++ 0x78 :: [] ∧
    after .dect (sized 4 32768 65536 (holding .bit (List.replicate 5 0x30) x5))
      (fun t => t.status.err = .capacityError) = true := by
  refine ⟨?_, ?_⟩
  · rw [sized_window, holding_window _ _ _ (by decide)]
  · rw [after, exec, execDect, sized_window, holding_window _ _ _ (by decide)]
    decide +kernel

/-- More than SYM_CAP bytes before the bad one, and only SYM_CAP symbols: `11111111x` with SYM_CAP = 4. -/
theorem witness_DecodersRejectNonBits_multiBit :
    (sized 4 32768 65536 (holding .bit (List.replicate 8 0x31 ++ [0x78]) x1)).window .bit =
      List.replicate 8 0x31 ++ 0x78 :: [] ∧
    after .dect (sized 4 32768 65536 (holding .bit (List.replicate 8 0x31) x1))
      (fun t => t.status.err = .ok) = true := by
  refine ⟨?_, ?_⟩
  · rw [sized_window, holding_window _ _ _ (by decide)]
  · rw [after, exec, execDect, sized_window, holding_window _ _ _ (by decide)]
    decide +kernel

/-- T5. -/
theorem witness_DecpDecodesCodes :
    (holding .bit [0x30, 0x31, 0x30, 0x31, 0x31] x1).params.wf = true ∧ CodesHold x1.ct ∧
    (∀ x ∈ [0x61, 0x63, 0x62], codeOf x1.ct x ≠ []) ∧
    (holding .bit [0x30, 0x31, 0x30, 0x31, 0x31] x1).window .bit =
      (codesOf x1.ct [0x61, 0x63, 0x62]).map bitByte ∧
    [(0x61 : Symbol), 0x63, 0x62].length ≤ 4096 := by
  refine ⟨by decide, x1_codesHold, ?_, ?_, by decide⟩
  · simp [x1_codes]
  · rw [holding_window _ _ _ (by decide)]
    simp [codesOf, x1_codes, bitByte]

/-- T8's shape. -/
theorem witness_DecpRejectsLeftoverBits : CodesHold x1.ct ∧ (∀ x ∈ [0x61], codeOf x1.ct x ≠ []) ∧
    [u] ≠ [] ∧ (∀ y : Symbol, codeOf x1.ct y ≠ [] → ¬ codeOf x1.ct y <+: [u]) ∧
    (holding .bit [0x30, 0x31] x1).window .bit = (codesOf x1.ct [0x61] ++ [u]).map bitByte := by
  refine ⟨x1_codesHold, by simp [x1_codes], by decide, fun y => ?_, ?_⟩
  · rw [x1_codes]
    repeat' split
    all_goals decide
  · rw [holding_window _ _ _ (by decide)]
    simp [codesOf, x1_codes, bitByte]

/-- Two symbols where one fits. -/
theorem witness_DecodersReportCapacity :
    let s := sized 1 32768 65536 (holding .bit [0x30, 0x30, 0x78] x1)
    ProperTree s.tree s.root s.nnodes 3 ∧
    (∀ p ∈ [((0x61 : Symbol), [z]), (0x61, [z])], LeafPath s.tree s.root p.1 p.2) ∧
    [((0x61 : Symbol), [z]), (0x61, [z])].length = s.params.symCap + 1 ∧
    s.window .bit =
      [((0x61 : Symbol), [z]), (0x61, [z])].flatMap (fun p => p.2.map bitByte) ++ [0x78] ∧
    CodesHold s.ct ∧ (∀ x ∈ [0x61, 0x61], codeOf s.ct x ≠ []) ∧
    [(0x61 : Symbol), 0x61].length = s.params.symCap + 1 ∧
    s.window .bit = (codesOf s.ct [0x61, 0x61]).map bitByte ++ [0x78] := by
  have hw : (sized 1 32768 65536 (holding .bit [0x30, 0x30, 0x78] x1)).window .bit =
    [0x30, 0x30, 0x78] := by rw [sized_window, holding_window _ _ _ (by decide)]
  have hct : (sized 1 32768 65536 (holding .bit [0x30, 0x30, 0x78] x1)).ct = x1.ct := rfl
  have two : ∀ p ∈ [((0x61 : Symbol), [z]), (0x61, [z])], LeafPath x1.tree x1.root p.1 p.2 :=
    List.forall_mem_cons.2 ⟨x1_paths.1, List.forall_mem_singleton.2 x1_paths.1⟩
  refine ⟨x1_proper, two, rfl, hw, x1_codesHold, ?_, rfl, ?_⟩
  · rw [hct]
    simp [x1_codes]
  · rw [hw, hct]
    simp [codesOf, x1_codes, bitByte]

/-- Two bits on the lone leaf where one symbol fits. -/
theorem witness_DecodersReportCapacity_lone : x5.root ≠ Config.nil ∧
    nodeAt x5.tree x5.root = .leaf 0x61 4 ∧ (∀ b ∈ [(0x30 : Byte), 0x31], b = 0x30 ∨ b = 0x31) ∧
    [(0x30 : Byte), 0x31].length = 1 + 1 ∧
    (sized 1 32768 65536 (holding .bit [0x30, 0x31, 0x78] x5)).window .bit = [0x30, 0x31] ++ [0x78] :=
  ⟨by decide, x5_leaf, by decide, rfl, by rw [sized_window, holding_window _ _ _ (by decide)]; rfl⟩

/-- The table GEN derives from X1's tree, from no tree, and from X5's lone leaf on a stream of zeros
and on one that holds a 1. -/
theorem witness_DecodersAgree :
    (∃ s g h : State, g.tree = s.tree ∧ g.root = s.root ∧ exec .gen g = .next h ∧ h.ct = s.ct ∧
      ProperTree s.tree s.root s.nnodes 3) ∧
    (∃ s g h : State, g.tree = s.tree ∧ g.root = s.root ∧ exec .gen g = .next h ∧ h.ct = s.ct ∧
      NoTree s.tree s.root s.nnodes) ∧
    ∀ bs ∈ [[(0x30 : Byte), 0x30], [0x30, 0x31]], ∃ s g h : State, g.tree = s.tree ∧ g.root = s.root ∧
      exec .gen g = .next h ∧ h.ct = s.ct ∧ LoneLeaf s.tree s.root s.nnodes ∧ s.window .bit = bs ∧
      s.bitlen.toNat ≤ s.params.symCap ∧ s.params.wf = true := by
  have gen : ∀ g : State, ∃ h, exec .gen g = .next h ∧ h.tree = g.tree ∧ h.root = g.root ∧
      h.nnodes = g.nnodes ∧ h.ct = genCodes g.tree g.root :=
    fun g => ⟨commitCodes (genCodes g.tree g.root) g, by rw [exec, execGen, conclude_ok], rfl, rfl, rfl,
      rfl⟩
  refine ⟨?_, ?_, ?_⟩
  · obtain ⟨h, hh, h1, h2, h3, h4⟩ := gen x1
    exact ⟨h, x1, h, h1.symm, h2.symm, hh, rfl, by rw [h1, h2, h3]; exact x1_proper⟩
  · obtain ⟨h, hh, h1, h2, h3, h4⟩ := gen State.reset
    exact ⟨h, .reset, h, h1.symm, h2.symm, hh, rfl, by rw [h1, h2, h3]; exact reset_noTree⟩
  · intro bs hbs
    obtain ⟨h, hh, h1, h2, h3, h4⟩ := gen x5
    have hlen : (BitVec.ofNat 32 bs.length).toNat ≤ 4096 := by revert bs; decide
    exact ⟨holding .bit bs (sized 4096 32768 65536 h), x5, h, h1.symm, h2.symm, hh, rfl,
      by show LoneLeaf h.tree h.root h.nnodes; rw [h1, h2, h3]; exact x5_lone,
      holding_window _ _ _ (by revert bs; decide), hlen, rfl⟩

/-- The input `aab`. -/
theorem witness_EncodeThenDecodeIsIdentity : ∃ a b c d,
    RangesHold (holding .sym [0x61, 0x61, 0x62] State.reset) ∧
    exec .freq (holding .sym [0x61, 0x61, 0x62] State.reset) = .next a ∧ exec .build a = .next b ∧
    exec .gen b = .next c ∧ exec .enc c = .next d ∧ d.status.err ≠ .capacityError := by
  have h : after .freq (holding .sym [0x61, 0x61, 0x62] State.reset) (fun a => after .build a
    (fun b => after .gen b (fun c => after .enc c (fun d => d.status.err ≠ .capacityError)))) = true := by
    decide +kernel
  obtain ⟨a, ha, h⟩ := exists_of_after h
  obtain ⟨b, hb, h⟩ := exists_of_after h
  obtain ⟨c, hc, h⟩ := exists_of_after h
  obtain ⟨d, hd, h⟩ := exists_of_after h
  exact ⟨a, b, c, d, rangesHold_aab, ha, hb, hc, hd, by simpa using h⟩

/-- Q8: ART holds exactly the artifact. -/
theorem witness_SerWritesEntriesInSymbolOrder : (sized 4096 32768 14 x1).params.wf = true ∧
    ListsPresent x1.ct [0x61, 0x62, 0x63] ∧
    ([0x61, 0x62, 0x63].map (fun x => (codeOf x1.ct x).length + 3)).sum ≤ 14 :=
  ⟨by decide, x1_present, by simp [x1_codes]⟩

/-- Q7. -/
theorem witness_SerReportsCapacity : ListsPresent x1.ct [0x61, 0x62, 0x63] ∧
    13 < ([0x61, 0x62, 0x63].map (fun x => (codeOf x1.ct x).length + 3)).sum :=
  ⟨x1_present, by simp [x1_codes]⟩

/-- D3: any order. -/
theorem witness_DeserLoadsEntriesInAnyOrder :
    GoodEntries [(0x63, [u, u]), (0x61, [z]), (0x62, [u, z])] ∧
    (holding .art [0x63, 0x3A, 0x31, 0x31, 0x0A, 0x61, 0x3A, 0x30, 0x0A, 0x62, 0x3A, 0x31, 0x30, 0x0A]
      x1).window .art = entriesBytes [(0x63, [u, u]), (0x61, [z]), (0x62, [u, z])] :=
  ⟨by decide, holding_window _ _ _ (by decide)⟩

/-- D2, from any state. -/
theorem deser_d2 (s : State) : ∃ t, exec .deser (holding .art [0x61, 0x3A, 0x30, 0x0A] s) = .next t ∧
    t.status.err = .ok := by
  have hw : (holding .art [0x61, 0x3A, 0x30, 0x0A] s).window .art = entryBytes 0x61 [z] ++ [] :=
    holding_window _ _ _ (by decide)
  refine ⟨commitCodes (setCode emptyCodes 0x61 [z]) (holding .art [0x61, 0x3A, 0x30, 0x0A] s), ?_, rfl⟩
  rw [exec, execDeser, hw, deserLoop_entry 0x61 [z] [] emptyCodes ⟨by decide, by decide⟩]
  simp [clashes, deserLoop]

theorem witness_DeserAcceptsOnlyGoodEntries :
    ∃ t, exec .deser (holding .art [0x61, 0x3A, 0x30, 0x0A] x1) = .next t ∧ t.status.err = .ok :=
  deser_d2 x1

/-- Each cause, after the entry `a:0`; one list for each. -/
theorem witness_DeserRejectsMalformedArtifacts : GoodEntries [(0x61, [z])] ∧
    ∀ bad ∈ [[0x62], [0x62, 0x63], [0x62, 0x3A, 0x31], [0x62, 0x3A, 0x31, 0x20, 0x0A],
        [0x62, 0x3A, 0x0A], [0x61, 0x3A, 0x31, 0x0A], [0x62, 0x3A, 0x30, 0x31, 0x0A]],
      Malformed [(0x61, [z])] bad ∧ (holding .art (entriesBytes [(0x61, [z])] ++ bad) x1).window .art =
        entriesBytes [(0x61, [z])] ++ bad := by
  refine ⟨by decide, List.forall_mem_cons.2 ⟨⟨.noColonEnd _, ?_⟩, List.forall_mem_cons.2
    ⟨⟨.noColon _ _ _ (by decide), ?_⟩, List.forall_mem_cons.2 ⟨⟨.noLineFeed _ [u] (by decide), ?_⟩,
    List.forall_mem_cons.2 ⟨⟨.badByte _ [u] 0x20 _ (by decide) (by decide), ?_⟩, List.forall_mem_cons.2
    ⟨⟨.emptyCode _ _, ?_⟩, List.forall_mem_cons.2 ⟨⟨.symbolTwice _ [u] [] (by decide) (by decide), ?_⟩,
    List.forall_mem_singleton.2 ⟨.codeClash _ [z, u] [] (by decide) (by decide), ?_⟩⟩⟩⟩⟩⟩⟩⟩ <;>
    exact holding_window _ _ _ (by simp [entriesBytes, entryBytes])

/-- D30. -/
theorem witness_DeserReportsLongCode : ∃ c : Code, GoodEntries [] ∧ c.length = 256 ∧
    (holding .art (entriesBytes [] ++ 0x61 :: 0x3A :: (c.map bitByte ++ [])) x1).window .art =
      entriesBytes [] ++ 0x61 :: 0x3A :: (c.map bitByte ++ []) := by
  obtain ⟨c, hc⟩ : ∃ c : Code, c.length = 256 := ⟨List.replicate 256 z, List.length_replicate⟩
  exact ⟨c, by decide, hc, holding_window _ _ _ (by simp [entriesBytes, hc])⟩

theorem witness_DeserOfEmptyArtifact : x1.artlen = 0 := rfl

theorem witness_SerializationRoundTrip :
    (∃ t, x1.params.wf = true ∧ CodesHold x1.ct ∧ exec .ser x1 = .next t ∧ t.status.err = .ok) ∧
    ∃ t, RangesHold (holding .art [0x61, 0x3A, 0x30, 0x0A] State.reset) ∧
      exec .deser (holding .art [0x61, 0x3A, 0x30, 0x0A] State.reset) = .next t ∧
      t.status.err = .ok := by
  refine ⟨?_, ?_⟩
  · obtain ⟨t, ht, hp⟩ := exists_of_after test_ser_q1
    exact ⟨t, by decide, x1_codesHold, ht, by simp at hp; exact hp.2⟩
  · obtain ⟨t, ht, hok⟩ := deser_d2 State.reset
    refine ⟨t, ⟨by decide, ?_, ?_, ?_⟩, ht, hok⟩ <;> intro b <;> cases b <;> decide

/-- T20. -/
theorem witness_ErrorsChangeOnlyStatus :
    ∃ t, exec .dect (holding .bit [0x30] State.reset) = .next t ∧ t.status.err ≠ .ok := by
  refine ⟨raise .corruptStreamError (holding .bit [0x30] State.reset), ?_, by decide⟩
  rw [exec, execDect, holding_window _ _ _ (by decide)]
  rfl

theorem witness_EachErrorIsRaisedByItsCommands : ∃ t,
    exec .dect (holding .bit [0x30] State.reset) = .next t ∧ t.status.err = .corruptStreamError := by
  refine ⟨raise .corruptStreamError (holding .bit [0x30] State.reset), ?_, rfl⟩
  rw [exec, execDect, holding_window _ _ _ (by decide)]
  rfl

/-- Two states that differ in STATUS, in a tail beyond a length, and in the transcript. -/
theorem witness_CommandsDependOnlyOnTheirInputs :
    let s' := { x1 with status := Status.failure .formatError, sym := [(5, 7)], responses := [.done] }
    s' ≠ x1 ∧ x1.params = s'.params ∧ x1.ft = s'.ft ∧ x1.tree = s'.tree ∧ x1.root = s'.root ∧
    x1.nnodes = s'.nnodes ∧ x1.ct = s'.ct ∧ (∀ b, x1.window b = s'.window b) ∧
    ∀ i, (∃ t, exec i x1 = .next t) ∧ ∃ t', exec i s' = .next t' := by
  refine ⟨fun h => ?_, rfl, rfl, rfl, rfl, rfl, rfl, fun b => by cases b <;> rfl,
    fun i => ⟨exec_answers _ _, exec_answers _ _⟩⟩
  have := congrArg State.sym h
  revert this
  decide

theorem witness_TableCommandFrames : ∀ i ∈ [Instr.freq, .build, .gen, .deser],
    ∃ t, exec i x1 = .next t := fun i _ => exec_answers i x1

theorem witness_BufferCommandFrames : x1.params.wf = true ∧
    ∀ i ∈ [Instr.enc, .dect, .decp, .ser], ∃ t, exec i x1 = .next t :=
  ⟨by decide, fun i _ => exec_answers i x1⟩

/-- CSR 0 and 6, the last element of SYM, FT and TREE. -/
theorem witness_HostReadReturnsElement :
    (issuing (.hrd 0 0) x1).script = [.hrd 0 0] ∧ (issuing (.hrd 0 6) x1).script = [.hrd 0 6] ∧
    (5 : Word).toNat = x1.nnodes.toNat ∧
    (issuing (.hrd 1 4095) x1).script = [.hrd 1 4095] ∧ 1 = spaceId .sym ∧
    4095 < x1.params.cap .sym ∧
    (issuing (.hrd 4 255) x1).script = [.hrd 4 255] ∧ 255 = (0xFF : Symbol).toNat ∧
    (issuing (.hrd 5 510) x1).script = [.hrd 5 510] ∧ 510 < 511 :=
  ⟨rfl, rfl, rfl, rfl, rfl, by decide, rfl, rfl, rfl, by decide⟩

/-- The last element and the largest value of each clause. -/
theorem witness_HostWriteSetsOneElement :
    (issuing (.hwr 2 32767 255) x1).script = [.hwr 2 32767 255] ∧ 2 = spaceId .bit ∧
    32767 < x1.params.cap .bit ∧ 255 < 256 ∧
    (issuing (.hwr 4 255 (2 ^ 32 - 1)) x1).script = [.hwr 4 255 (2 ^ 32 - 1)] ∧ 2 ^ 32 - 1 < 2 ^ 32 ∧
    (issuing (.hwr 0 4 65536) x1).script = [.hwr 0 4 65536] ∧ 4 = lenCsr .art ∧
    65536 ≤ x1.params.cap .art :=
  ⟨rfl, rfl, by decide, by decide, rfl, by decide, rfl, rfl, by decide⟩

/-- Refused at each boundary: H7, H8, H10, H19, an unknown space; and one that is accepted. -/
theorem witness_RefusedAccessChangesNothing :
    (∀ t ∈ [Transaction.hrd 5 511, .hrd 4 256, .hrd 0 7, .hrd 1 4096, .hrd 6 0, .hwr 5 0 0, .hwr 0 1 0,
        .hwr 0 5 0, .hwr 0 6 0, .hwr 0 2 4097, .hwr 1 0 256, .hwr 0 0 (2 ^ 32)],
      (issuing t x1).script = t :: [] ∧ ¬ Accepted x1.params t) ∧
    (issuing (.hwr 1 4095 255) x1).script = .hwr 1 4095 255 :: [] ∧
    Accepted x1.params (.hwr 1 4095 255) := by
  have hb : ∀ p : Buffer → Prop, (∃ b, p b) ↔ p .sym ∨ p .bit ∨ p .art := fun p =>
    ⟨fun ⟨b, h⟩ => by cases b <;> simp [h], fun h => by rcases h with h | h | h <;> exact ⟨_, h⟩⟩
  have hp : x1.params = ⟨4096, 32768, 65536⟩ := rfl
  refine ⟨fun t ht => ⟨rfl, ?_⟩, rfl, ?_⟩
  · rw [hp]
    simp only [List.mem_cons, List.not_mem_nil, or_false] at ht
    rcases ht with rfl | rfl | rfl | rfl | rfl | rfl | rfl | rfl | rfl | rfl | rfl | rfl <;>
      simp [Accepted, hb, spaceId, lenCsr, Params.cap]
  · rw [hp]
    simp [Accepted, hb, spaceId, lenCsr, Params.cap]

/-- H9 and H10. -/
theorem witness_LengthWritesRespectCapacity : x1.params.wf = true ∧
    (issuing (.hwr 0 2 4096) x1).script = .hwr 0 (lenCsr .sym) 4096 :: [] ∧
    4096 ≤ x1.params.cap .sym ∧
    (issuing (.hwr 0 2 4097) x1).script = .hwr 0 (lenCsr .sym) 4097 :: [] ∧
    x1.params.cap .sym < 4097 := ⟨by decide, rfl, by decide, rfl, by decide⟩

/-- X1's state with a command to run, and with a host write to perform. -/
theorem witness_invariants : ∀ tr ∈ [cmd .gen, .hwr 4 0x61 5],
    Inv (issuing tr x1) ∧ ∃ t, step (issuing tr x1) = .next t := by
  intro tr htr
  have h3 : (x1.nnodes.toNat + 1) / 2 = 3 := rfl
  have hshape : TreeShape x1.tree x1.root x1.nnodes := by
    rw [TreeShape, h3]
    exact .inr (.inr x1_proper)
  refine ⟨⟨⟨rfl, fun b => ?_, fun b => ?_, fun b => ?_⟩, hshape, x1_codesHold⟩, ?_⟩
  · cases b <;> exact Nat.zero_le _
  · cases b <;> exact List.Pairwise.nil
  · cases b <;> exact fun _ h => absurd h List.not_mem_nil
  · simp only [List.mem_cons, List.not_mem_nil, or_false] at htr
    rcases htr with rfl | rfl
    · obtain ⟨t, ht⟩ := exec_answers .gen { x1 with script := [] }
      refine ⟨respond .done t, ?_⟩
      show complete (exec .gen { x1 with script := [] }) = _
      rw [ht]
      rfl
    · exact ⟨_, rfl⟩

theorem witness_RangesHoldAfterEveryStep : ∃ s t, RangesHold s ∧ TreeShape s.tree s.root s.nnodes ∧
    step s = .next t := by
  obtain ⟨h, t, ht⟩ := witness_invariants (cmd .gen) (by simp)
  exact ⟨_, t, h.ranges, h.treeShape, ht⟩

theorem witness_TreeShapeHoldsAfterEveryStep : ∃ s t, TreeShape s.tree s.root s.nnodes ∧
    step s = .next t := by
  obtain ⟨h, t, ht⟩ := witness_invariants (cmd .gen) (by simp)
  exact ⟨_, t, h.treeShape, ht⟩

theorem witness_CodeTableHoldsAfterEveryStep : ∃ s t, TreeShape s.tree s.root s.nnodes ∧
    CodesHold s.ct ∧ step s = .next t := by
  obtain ⟨h, t, ht⟩ := witness_invariants (cmd .gen) (by simp)
  exact ⟨_, t, h.treeShape, h.codes, ht⟩

theorem witness_StoresChangeOnlyByTheirWriters :
    (issuing (.hrd 0 1) x1).script = .hrd 0 1 :: [] ∧ (∃ t, step (issuing (.hrd 0 1) x1) = .next t) ∧
    Transaction.hrd 0 1 ≠ .reset ∧ (∀ i, ¬ IsCommand i (.hrd 0 1)) ∧
    (∀ space i v, Transaction.hrd 0 1 ≠ .hwr space i v) ∧ ¬ IsCmdWrite (.hrd 0 1) :=
  ⟨rfl, ⟨_, rfl⟩, by decide, by simp [IsCommand], by simp, by simp [IsCmdWrite]⟩

/-- A write of BIT:0, which may change that element and no other, nor SYM, nor ART, nor a length. -/
theorem witness_StoresChangeOnlyByTheirWriters_element :
    (issuing (.hwr 2 0 0x30) x1).script = .hwr 2 0 0x30 :: [] ∧
    (∃ t, step (issuing (.hwr 2 0 0x30) x1) = .next t) ∧ Transaction.hwr 2 0 0x30 ≠ .reset ∧
    (∀ i, ¬ IsCommand i (.hwr 2 0 0x30)) ∧ (∀ v, Transaction.hwr 2 0 0x30 ≠ .hwr 2 1 v) ∧
    (∀ a v, Transaction.hwr 2 0 0x30 ≠ .hwr 1 a v ∧ Transaction.hwr 2 0 0x30 ≠ .hwr 3 a v ∧
      Transaction.hwr 2 0 0x30 ≠ .hwr 0 a v) :=
  ⟨rfl, ⟨_, rfl⟩, by decide, by simp [IsCommand], by simp, by simp⟩

end Sys2Proof.Tests
end

section
/-! The frames of the commands, of the host's writes and of a step: what each leaves as it was
(30_encoding.md R93, 20_memory.md R63, 10_state.md R42). -/

namespace Sys2Proof.Machine

open Sys2Proof

/-! Buffers and lengths through the updates that do not touch them -/

/- The worker threads that wait for the kernel to check the tests above hold a stack each, and the check
bounds the memory of all stacks together: this lemma is elaborated in line, so that all of them are free
again before the rest of this text starts more. -/
set_option Elab.async false in
@[simp] theorem raise_buffer (e : Err) (s : State) (b : Buffer) : (raise e s).buffer b = s.buffer b := by
  cases b <;> rfl
@[simp] theorem raise_len (e : Err) (s : State) (b : Buffer) : (raise e s).len b = s.len b := by
  cases b <;> rfl
@[simp] theorem commitFreq_buffer (t : FreqTable) (s : State) (b : Buffer) :
    (commitFreq t s).buffer b = s.buffer b := by cases b <;> rfl
@[simp] theorem commitFreq_len (t : FreqTable) (s : State) (b : Buffer) :
    (commitFreq t s).len b = s.len b := by cases b <;> rfl
@[simp] theorem commitTree_buffer (ns : List Node) (s : State) (b : Buffer) :
    (commitTree ns s).buffer b = s.buffer b := by cases b <;> rfl
@[simp] theorem commitTree_len (ns : List Node) (s : State) (b : Buffer) :
    (commitTree ns s).len b = s.len b := by cases b <;> rfl
@[simp] theorem commitCodes_buffer (t : CodeTable) (s : State) (b : Buffer) :
    (commitCodes t s).buffer b = s.buffer b := by cases b <;> rfl
@[simp] theorem commitCodes_len (t : CodeTable) (s : State) (b : Buffer) :
    (commitCodes t s).len b = s.len b := by cases b <;> rfl
@[simp] theorem respond_buffer (r : Response) (s : State) (b : Buffer) :
    (respond r s).buffer b = s.buffer b := by cases b <;> rfl
@[simp] theorem respond_len (r : Response) (s : State) (b : Buffer) :
    (respond r s).len b = s.len b := by cases b <;> rfl
@[simp] theorem takeTransaction_buffer (rest : List Transaction) (s : State) (b : Buffer) :
    (takeTransaction rest s).buffer b = s.buffer b := by cases b <;> rfl
@[simp] theorem takeTransaction_len (rest : List Transaction) (s : State) (b : Buffer) :
    (takeTransaction rest s).len b = s.len b := by cases b <;> rfl
@[simp] theorem resetBlock_buffer (s : State) (b : Buffer) : (resetBlock s).buffer b = [] := by
  cases b <;> rfl
@[simp] theorem resetBlock_len (s : State) (b : Buffer) : (resetBlock s).len b = 0 := by
  cases b <;> rfl

/-- What an element reads as rests on its buffer and on the number of resets (log 4). -/
theorem readBuf_congr {s t : State} {b : Buffer} (hb : t.buffer b = s.buffer b)
    (he : t.epoch = s.epoch) (a : Nat) : t.readBuf b a = s.readBuf b a := by
  rw [State.readBuf, State.readBuf, hb, he]

/-! The commands, each as one `conclude` -/

theorem exec_freq (s : State) :
    exec .freq s = conclude (.ok (tally (s.window .sym))) commitFreq s := rfl

theorem exec_build (s : State) : exec .build s = conclude (buildNodes s.ft) commitTree s := rfl

theorem exec_gen (s : State) :
    exec .gen s = conclude (.ok (genCodes s.tree s.root)) commitCodes s := rfl

theorem exec_enc (s : State) :
    exec .enc s = conclude (encLoop s.ct s.params.bitCap (s.window .sym) [])
      (fun out => commitBuffer .bit (out.map bitByte)) s := rfl

theorem exec_dect (s : State) :
    exec .dect s = conclude (dectLoop s.tree s.root s.params.symCap (s.window .bit) s.root [])
      (commitBuffer .sym) s := rfl

theorem exec_decp (s : State) :
    exec .decp s = conclude (decpLoop s.ct s.params.symCap (s.window .bit) [] [])
      (commitBuffer .sym) s := rfl

theorem exec_ser (s : State) :
    exec .ser s = conclude (serLoop s.ct s.params.artCap allSymbols []) (commitBuffer .art) s := rfl

theorem exec_deser (s : State) :
    exec .deser s = conclude (deserLoop (s.window .art) .symbol emptyCodes) commitCodes s := rfl

/-! What the commands leave as it was -/

/-- The buffer a command commits its output to (R93). -/
def outputBuffer : Instr → Option Buffer
  | .enc => some .bit
  | .dect => some .sym
  | .decp => some .sym
  | .ser => some .art
  | _ => none

theorem outputBuffer_eq_sym {i : Instr} : outputBuffer i = some .sym ↔ i = .dect ∨ i = .decp := by
  cases i <;> decide

theorem outputBuffer_eq_bit {i : Instr} : outputBuffer i = some .bit ↔ i = .enc := by
  cases i <;> decide

theorem outputBuffer_eq_art {i : Instr} : outputBuffer i = some .art ↔ i = .ser := by
  cases i <;> decide

/-- SER commits at most ART_CAP bytes (R192). -/
theorem serLoop_length {t : CodeTable} {cap : Nat} {xs : List Symbol} {r : List Byte}
    (h : serLoop t cap xs [] = .ok r) : r.length ≤ cap := by
  rw [serLoop_eq t cap xs [] (Nat.zero_le _)] at h
  split at h
  · next fits => cases h; simpa using fits
  · cases h

section

variable {i : Instr} {s t : State}

/-- Only BUILD writes TREE, ROOT and NNODES (R27, R28, R33). -/
theorem exec_keeps_tree (h : exec i s = .next t) (hi : i ≠ .build) :
    t.tree = s.tree ∧ t.root = s.root ∧ t.nnodes = s.nnodes := by
  rcases exec_cases h with ⟨_, -, -, rfl⟩ | ⟨-, rfl⟩ | ⟨rfl, -⟩ | ⟨-, rfl⟩ | ⟨-, _, -, rfl⟩ |
    ⟨-, _, -, rfl⟩ | ⟨-, _, -, rfl⟩ | ⟨-, _, -, rfl⟩ | ⟨-, _, -, rfl⟩ <;> simp at hi ⊢

/-- Only GEN and DESER write CT (R35). -/
theorem exec_keeps_ct (h : exec i s = .next t) (hg : i ≠ .gen) (hd : i ≠ .deser) : t.ct = s.ct := by
  rcases exec_cases h with ⟨_, -, -, rfl⟩ | ⟨-, rfl⟩ | ⟨-, _, -, rfl⟩ | ⟨rfl, -⟩ | ⟨-, _, -, rfl⟩ |
    ⟨-, _, -, rfl⟩ | ⟨-, _, -, rfl⟩ | ⟨-, _, -, rfl⟩ | ⟨rfl, -⟩ <;> simp at hg hd ⊢

/-- Only FREQ writes FT (R32, R120). -/
theorem exec_keeps_ft (h : exec i s = .next t) (hi : i ≠ .freq) : t.ft = s.ft := by
  rcases exec_cases h with ⟨_, -, -, rfl⟩ | ⟨rfl, -⟩ | ⟨-, _, -, rfl⟩ | ⟨-, rfl⟩ | ⟨-, _, -, rfl⟩ |
    ⟨-, _, -, rfl⟩ | ⟨-, _, -, rfl⟩ | ⟨-, _, -, rfl⟩ | ⟨-, _, -, rfl⟩ <;> simp at hi ⊢

/-- A command either commits an output that fits its buffer, or leaves every buffer and length as it was
(R161, R181, R192, R232). -/
theorem exec_output (h : exec i s = .next t) :
    (∃ b out, outputBuffer i = some b ∧ out.length ≤ s.params.cap b ∧ t = commitBuffer b out s) ∨
      ∀ b, t.buffer b = s.buffer b ∧ t.len b = s.len b := by
  rcases exec_cases h with ⟨_, -, -, rfl⟩ | ⟨-, rfl⟩ | ⟨-, _, -, rfl⟩ | ⟨-, rfl⟩ | ⟨rfl, out, ho, rfl⟩ |
    ⟨rfl, out, ho, rfl⟩ | ⟨rfl, out, ho, rfl⟩ | ⟨rfl, out, ho, rfl⟩ | ⟨-, _, -, rfl⟩
  · exact .inr fun b => by simp
  · exact .inr fun b => by simp
  · exact .inr fun b => by simp
  · exact .inr fun b => by simp
  · obtain ⟨-, -, fits⟩ := encLoop_ok ho
    exact .inl ⟨.bit, _, rfl, by rw [List.length_map]; exact fits (Nat.zero_le _), rfl⟩
  · exact .inl ⟨.sym, out, rfl, dectLoop_length ho (Nat.zero_le _), rfl⟩
  · exact .inl ⟨.sym, out, rfl, decpLoop_length ho (Nat.zero_le _), rfl⟩
  · exact .inl ⟨.art, out, rfl, serLoop_length ho, rfl⟩
  · exact .inr fun b => by simp

/-- A buffer and its length are written only by the commands whose output it takes (R37 to R39). -/
theorem exec_keeps_buffer {b : Buffer} (h : exec i s = .next t) (hb : outputBuffer i ≠ some b) :
    t.buffer b = s.buffer b ∧ t.len b = s.len b := by
  rcases exec_output h with ⟨d, out, hd, -, rfl⟩ | same
  · have hne : b ≠ d := fun hbd => hb (hbd ▸ hd)
    exact ⟨commitBuffer_buffer_other s out hne, commitBuffer_len_other s out hne⟩
  · exact same b

end

/-! What the host's writes leave as it was -/

section

variable {s t : State} {space i v : Nat}

/-- The host writes no register or store but FT, the buffers and their lengths (R63). -/
theorem hostWrite_keeps (h : hostWrite s space i v = .ok t) :
    t.tree = s.tree ∧ t.root = s.root ∧ t.nnodes = s.nnodes ∧ t.ct = s.ct ∧ t.status = s.status ∧
      t.params = s.params := by
  rcases hostWrite_cases h with ⟨-, -, -, rfl⟩ | ⟨_, -, -, -, -, rfl⟩ | ⟨_, -, -, -, rfl⟩ |
    ⟨-, -, -, rfl⟩ <;> simp

theorem hostWrite_keeps_ft (h : hostWrite s space i v = .ok t) (hne : space ≠ 4) : t.ft = s.ft := by
  rcases hostWrite_cases h with ⟨-, -, -, rfl⟩ | ⟨_, -, -, -, -, rfl⟩ | ⟨_, -, -, -, rfl⟩ |
    ⟨hs, -, -, rfl⟩
  · rfl
  · simp
  · simp
  · exact absurd hs hne

/-- A length register changes only by a write to it (R24 to R26). -/
theorem hostWrite_keeps_len {b : Buffer} (h : hostWrite s space i v = .ok t)
    (hne : ¬ (space = 0 ∧ i = lenCsr b)) : t.len b = s.len b := by
  rcases hostWrite_cases h with ⟨-, -, -, rfl⟩ | ⟨d, hs, hi, -, -, rfl⟩ | ⟨d, -, -, -, rfl⟩ |
    ⟨-, -, -, rfl⟩
  · rfl
  · exact setLen_len_other s _ fun hbd => hne ⟨hs, hbd ▸ hi⟩
  · exact setBuffer_len s d b _
  · cases b <;> rfl

/-- A buffer's element changes only by a write to it (R37 to R39). -/
theorem hostWrite_keeps_readBuf {b : Buffer} {a : Nat} (h : hostWrite s space i v = .ok t)
    (hne : ¬ (space = spaceId b ∧ i = a)) : t.readBuf b a = s.readBuf b a := by
  rcases hostWrite_cases h with ⟨-, -, -, rfl⟩ | ⟨d, -, -, -, -, rfl⟩ | ⟨d, hs, -, -, rfl⟩ |
    ⟨-, -, -, rfl⟩
  · rfl
  · simp [State.readBuf]
  · by_cases hbd : b = d
    · subst hbd
      have ha : a ≠ i := fun ha => hne ⟨hs, ha.symm⟩
      simp [State.readBuf, Memory.read?_write_other _ _ ha]
    · simp [State.readBuf, setBuffer_buffer_other s _ hbd]
  · cases b <;> rfl

end

/-! The command word -/

/-- The decoder accepts no word but the encoding of the command it answers (R90, R91). -/
theorem eq_encode_of_decode {w : Word} {i : Instr} (h : decode w = .ok i) : w = encode i := by
  unfold decode at h
  split at h
  · cases h
  · next hzero =>
    have hop : opField w = encodeOp i := by
      split at h
      · next j hj =>
        cases h
        generalize opField w = op at hj
        revert op
        cases i <;> decide
      · cases h
    have hz : zeroField w = 0 := by simpa using hzero
    rw [encode, ← hz, ← hop, zeroField, opField]
    refine BitVec.eq_of_toNat_eq ?_
    simp only [BitVec.toNat_append, BitVec.extractLsb'_toNat]
    rw [← Nat.shiftLeft_add_eq_or_of_lt (Nat.mod_lt _ (by decide))]
    have := w.isLt
    simp only [Nat.shiftLeft_eq, Nat.shiftRight_eq_div_pow]
    omega

theorem IsCommand.isCmdWrite {i : Instr} {tr : Transaction} (h : IsCommand i tr) : IsCmdWrite tr :=
  ⟨_, (encode i).isLt, h⟩

/-! A step -/

/-- A property that the bookkeeping of the interface does not touch is kept by every step once RESET, the
host's writes, the errors and the commands keep it (R68, R71). -/
theorem step_keeps {P : State → Prop} {s t : State} (h : step s = .next t) (hs : P s)
    (take : ∀ rest s, P s → P (takeTransaction rest s)) (answer : ∀ r s, P s → P (respond r s))
    (reset : ∀ s, P s → P (resetBlock s)) (raised : ∀ e s, P s → P (raise e s))
    (write : ∀ {s t space i v}, P s → hostWrite s space i v = .ok t → P t)
    (command : ∀ {i s t}, P s → exec i s = .next t → P t) : P t := by
  rcases step_cases h with ⟨-, rfl⟩ |
    ⟨tr, rest, -, ⟨-, rfl⟩ | ⟨_, _, -, -, rfl⟩ | ⟨_, i, u, -, -, hx, rfl⟩⟩
  · exact hs
  · have hs := take rest s hs
    rcases hostAccess_cases tr (takeTransaction rest s) with ⟨r, hr⟩ | ⟨-, hr⟩ | ⟨_, _, _, u, -, hw, hr⟩
    · exact hr ▸ answer r _ hs
    · exact hr ▸ answer _ _ (reset _ hs)
    · exact hr ▸ answer _ _ (write hs hw)
  · exact answer _ _ (raised _ _ (take rest s hs))
  · exact answer _ _ (command (take rest s hs) hx)

/-- Whatever is read off the state, `f`, is left as it was by the transaction `tr` other than RESET once
the host write, the error or the command that `tr` may be leaves it. -/
theorem step_leaves {α : Type} (f : State → α) {s t : State} {tr : Transaction} {rest : List Transaction}
    (hs : s.script = tr :: rest) (h : step s = .next t) (hr : tr ≠ .reset)
    (write : ∀ {s t space i v}, tr = .hwr space i v → hostWrite s space i v = .ok t → f t = f s)
    (command : ∀ {i s t}, IsCommand i tr → exec i s = .next t → f t = f s)
    (raised : IsCmdWrite tr → ∀ e s, f (raise e s) = f s := by simp [State.readBuf])
    (take : ∀ rest s, f (takeTransaction rest s) = f s := by simp [State.readBuf])
    (answer : ∀ r s, f (respond r s) = f s := by simp [State.readBuf]) : f t = f s := by
  rcases step_cases h with ⟨h0, -⟩ | ⟨tr', rest', hs', hcase⟩
  · simp [h0] at hs
  · obtain ⟨rfl, rfl⟩ : tr = tr' ∧ rest = rest' := by simpa [hs] using hs'
    rcases hcase with ⟨-, rfl⟩ | ⟨w, _, hw, -, rfl⟩ | ⟨w, i, u, hw, hd, hx, rfl⟩
    · rcases hostAccess_cases tr (takeTransaction rest s) with ⟨r, ht⟩ | ⟨h0, -⟩ |
        ⟨_, _, _, u, htr, hw, ht⟩
      · rw [ht, answer, take]
      · exact absurd h0 hr
      · rw [ht, answer, write htr hw, take]
    · have hcmd : IsCmdWrite tr := ⟨_, w.isLt, commandWord_eq_some hw⟩
      rw [illegalCommand, answer, raised hcmd, take]
    · obtain rfl := eq_encode_of_decode hd
      have hcmd : IsCommand i tr := commandWord_eq_some hw
      rw [answer, command hcmd hx, take]

/-- The elements and the length of a buffer are changed only by the commands whose output it takes and
by the host's writes to them (R37 to R39). -/
theorem step_leaves_buffer (b : Buffer) {s t : State} {tr : Transaction} {rest : List Transaction}
    (hs : s.script = tr :: rest) (h : step s = .next t) (hr : tr ≠ .reset)
    (hout : ∀ i, outputBuffer i = some b → ¬ IsCommand i tr) :
    (∀ a, (∀ v, tr ≠ .hwr (spaceId b) a v) → t.readBuf b a = s.readBuf b a) ∧
      ((∀ v, tr ≠ .hwr 0 (lenCsr b) v) → t.len b = s.len b) := by
  have kept : ∀ {i : Instr} {s t : State}, IsCommand i tr → exec i s = .next t →
      t.buffer b = s.buffer b ∧ t.len b = s.len b :=
    fun hi hx => exec_keeps_buffer hx fun ho => hout _ ho hi
  constructor
  · intro a ha
    refine step_leaves (·.readBuf b a) hs h hr (fun htr hw => ?_) fun hi hx =>
      readBuf_congr (kept hi hx).1 (exec_keeps_host hx).2.1 a
    refine hostWrite_keeps_readBuf hw ?_
    rintro ⟨rfl, rfl⟩
    exact ha _ htr
  · intro hv
    refine step_leaves (·.len b) hs h hr (fun htr hw => ?_) fun hi hx => (kept hi hx).2
    refine hostWrite_keeps_len hw ?_
    rintro ⟨rfl, rfl⟩
    exact hv _ htr

end Sys2Proof.Machine
end

section
/-! The invariants of 10_state.md R44, R34 and R36: they hold after reset, and every step keeps them. -/

namespace Sys2Proof.Machine

open Sys2Proof

/-- Every error has one of the codes 0 to 5 (R221). -/
theorem Err.code_le_five (e : Err) : e.code.toNat ≤ 5 := by cases e <;> decide

/-! The ranges (R44) -/

namespace RangesHold

variable {s t : State}

/-- Only the parameters, the lengths and the buffers matter to the ranges. -/
theorem congr (h : RangesHold s) (hp : t.params = s.params)
    (hb : ∀ b, t.buffer b = s.buffer b ∧ t.len b = s.len b) : RangesHold t where
  params := hp ▸ h.params
  lens b := by rw [(hb b).2, hp]; exact h.lens b
  canonical b := by rw [(hb b).1]; exact h.canonical b
  inside b := by rw [(hb b).1, hp]; exact h.inside b

/-- The ranges hold where the lengths are 0 and the buffers list nothing, as after reset (R43). -/
theorem of_unwritten (hp : s.params.wf = true) (hl : ∀ b, s.len b = 0) (hb : ∀ b, s.buffer b = []) :
    RangesHold s where
  params := hp
  lens b := by simp [hl]
  canonical b := by simp [hb, Memory.wf]
  inside b := by simp [hb]

theorem setLen (h : RangesHold s) {b : Buffer} {n : Word} (hn : n.toNat ≤ s.params.cap b) :
    RangesHold (s.setLen b n) where
  params := by simpa using h.params
  lens d := by
    by_cases hd : d = b
    · subst hd; simpa using hn
    · simpa [setLen_len_other s n hd] using h.lens d
  canonical d := by simpa using h.canonical d
  inside d := by simpa using h.inside d

theorem setBuffer (h : RangesHold s) {b : Buffer} {m : Memory} (hm : m.wf)
    (hin : ∀ c ∈ m, c.1 < s.params.cap b) : RangesHold (s.setBuffer b m) where
  params := by simpa using h.params
  lens d := by simpa using h.lens d
  canonical d := by
    by_cases hd : d = b
    · subst hd; simpa using hm
    · simpa [setBuffer_buffer_other s m hd] using h.canonical d
  inside d := by
    by_cases hd : d = b
    · subst hd; simpa using hin
    · simpa [setBuffer_buffer_other s m hd] using h.inside d

/-- An output that fits its buffer is committed within the ranges (R77). -/
theorem commitBuffer (h : RangesHold s) {b : Buffer} {out : List Byte}
    (fits : out.length ≤ s.params.cap b) : RangesHold (commitBuffer b out s) := by
  have hm : ((s.buffer b).writeSeq 0 out).wf := Memory.wf_writeSeq out (h.canonical b) 0
  have hin : ∀ c ∈ (s.buffer b).writeSeq 0 out, c.1 < s.params.cap b := fun c hc =>
    (Memory.mem_writeSeq hc).elim (fun hlt => by omega) (h.inside b c)
  have hn : (BitVec.ofNat 32 out.length).toNat ≤ s.params.cap b := by
    rw [BitVec.toNat_ofNat]
    exact (Nat.mod_le _ _).trans fits
  exact ((h.setBuffer hm hin).setLen (by simpa using hn)).congr rfl
    fun d => by cases d <;> exact ⟨rfl, rfl⟩

/-- The host's writes keep the ranges, because the interface checks length and index (R63, R65). -/
theorem hostWrite (h : RangesHold s) {space i v : Nat} (hw : hostWrite s space i v = .ok t) :
    RangesHold t := by
  rcases hostWrite_cases hw with ⟨-, -, -, rfl⟩ | ⟨b, -, -, hcap, hv, rfl⟩ | ⟨b, -, hi, -, rfl⟩ |
    ⟨-, -, -, rfl⟩
  · exact h
  · exact h.setLen (by rwa [BitVec.toNat_ofNat, Nat.mod_eq_of_lt hv])
  · refine h.setBuffer (Memory.wf_write (h.canonical b) i _) fun c hc => ?_
    rcases Memory.mem_write hc with rfl | hc
    · exact hi
    · exact h.inside b c hc
  · exact h.congr rfl fun b => by cases b <;> exact ⟨rfl, rfl⟩

/-- The commands keep the ranges, because every output that is committed fits its buffer. -/
theorem exec (h : RangesHold s) {i : Instr} (hx : exec i s = .next t) : RangesHold t := by
  rcases exec_output hx with ⟨b, out, -, fits, rfl⟩ | same
  · exact h.commitBuffer fits
  · exact h.congr (exec_keeps_host hx).1 same

/-- Every step keeps the ranges (R44). -/
theorem step (h : RangesHold s) (ht : step s = .next t) : RangesHold t :=
  step_keeps ht h
    (take := fun _ _ h => h.congr rfl (by simp)) (answer := fun _ _ h => h.congr rfl (by simp))
    (reset := fun s h => of_unwritten h.params (resetBlock_len s) (resetBlock_buffer s))
    (raised := fun _ _ h => h.congr rfl (by simp))
    (write := fun h hw => h.hostWrite hw) (command := fun h hx => h.exec hx)

end RangesHold

/-! The tree (R34) -/

/-- Reset leaves no tree (R43). -/
theorem treeShape_reset : TreeShape State.reset.tree State.reset.root State.reset.nnodes :=
  .inl ⟨rfl, rfl, fun k hk => by simp [State.reset, slot, hk]⟩

/-- BUILD answers with records only where the total fits (R137). -/
theorem total_lt_of_buildNodes {ft : FreqTable} {ns : List Node} (h : buildNodes ft = .ok ns) :
    total ft < 2 ^ 32 := by
  unfold buildNodes at h
  split at h
  · cases h
  · next hlt => simpa [Config.freqBound] using hlt

/-- A forest of one seed is a lone leaf (R34, R135). -/
theorem Grown.loneLeaf {ft : FreqTable} {f : Forest} (h : Grown ft f)
    (hL : (presentSymbols ft).length = 1) (hn : f.nodes.length = 1) :
    LoneLeaf (storeOf f.nodes) 0 1 := by
  have hpos : 0 < (presentSymbols ft).length := by omega
  have leaf := h.seeds 0 _ (List.getElem?_eq_getElem hpos)
  have key := (mem_presentSymbols ft _).1 (List.getElem_mem hpos)
  refine ⟨rfl, rfl, by rw [leaf]; rfl, ?_, fun k _ hk => slot_storeOf_free (by omega) (by omega)⟩
  rw [leaf]
  exact Nat.pos_of_ne_zero fun h0 => key (BitVec.eq_of_toNat_eq h0)

/-- The tree BUILD commits is no tree, a lone leaf or a proper tree as the table has no key, one or more
(R34, R135, R136, R139). -/
theorem treeShape_commitTree {ft : FreqTable} {ns : List Node} (h : buildNodes ft = .ok ns) (s : State) :
    TreeShape (commitTree ns s).tree (commitTree ns s).root (commitTree ns s).nnodes := by
  by_cases h0 : presentSymbols ft = []
  · obtain rfl : [] = ns := by simpa [buildNodes_empty h0] using h
    exact .inl ⟨rfl, rfl, fun k hk => by simp [slot_tabulate]⟩
  · obtain ⟨f, q, hf, grown, hq, hlen, -, -⟩ := buildNodes_spec (total_lt_of_buildNodes h) h0
    obtain rfl : f.nodes = ns := by simpa [hf] using h
    have hpos := List.length_pos_iff.2 h0
    have hroot : (commitTree f.nodes s).root = BitVec.ofNat 9 (f.nodes.length - 1) := by
      rw [commitTree_root, if_neg]
      rw [List.isEmpty_iff_length_eq_zero]
      omega
    rw [hroot, commitTree_nnodes]
    by_cases h1 : (presentSymbols ft).length = 1
    · have hn : f.nodes.length = 1 := by omega
      rw [hn]
      exact .inr (.inl (grown.loneLeaf h1 hn))
    · have proper := grown.properTree (by simp [hq]) (by omega)
      have hleaves : ((BitVec.ofNat 9 f.nodes.length).toNat + 1) / 2 = (presentSymbols ft).length := by
        have ⟨_, _, hnnodes, _⟩ := proper
        omega
      exact .inr (.inr (hleaves.symm ▸ proper))

/-- The commands keep the shape of the tree: BUILD alone commits one. -/
theorem treeShape_exec {i : Instr} {s t : State} (h : TreeShape s.tree s.root s.nnodes)
    (hx : exec i s = .next t) : TreeShape t.tree t.root t.nnodes := by
  by_cases hi : i = .build
  · rw [hi, exec_build] at hx
    rcases conclude_next hx with ⟨_, -, rfl⟩ | ⟨ns, hns, rfl⟩
    · exact h
    · exact treeShape_commitTree hns s
  · obtain ⟨htree, hroot, hnnodes⟩ := exec_keeps_tree hx hi
    rwa [htree, hroot, hnnodes]

theorem treeShape_hostWrite {s t : State} {space i v : Nat} (h : TreeShape s.tree s.root s.nnodes)
    (hw : hostWrite s space i v = .ok t) : TreeShape t.tree t.root t.nnodes := by
  obtain ⟨htree, hroot, hnnodes, -⟩ := hostWrite_keeps hw
  rwa [htree, hroot, hnnodes]

/-- Every step keeps the shape of the tree (R34). -/
theorem treeShape_step {s t : State} (h : TreeShape s.tree s.root s.nnodes) (ht : step s = .next t) :
    TreeShape t.tree t.root t.nnodes :=
  step_keeps (P := fun s => TreeShape s.tree s.root s.nnodes) ht h
    (take := fun _ _ h => h) (answer := fun _ _ h => h) (reset := fun _ _ => treeShape_reset)
    (raised := fun _ _ h => h) (write := treeShape_hostWrite) (command := treeShape_exec)

/-! The code table (R36) -/

theorem codesHold_emptyCodes : CodesHold emptyCodes :=
  codesHold_of_holdsEntries ⟨by simp, List.Pairwise.nil⟩ holdsEntries_empty

/-- A table of one code, the "0" of R152, has the invariant. -/
theorem codesHold_single (x : Symbol) : CodesHold (setCode emptyCodes x [false]) := by
  refine codesHold_of_holdsEntries (es := [(x, [false])]) ⟨by simp, List.pairwise_singleton _ _⟩
    ⟨by simp [codeOf_setCode], fun y hy => ?_⟩
  rw [codeOf_setCode, if_neg fun heq => hy _ List.mem_cons_self heq.symm, codeOf_emptyCodes]

/-- GEN's table has the invariant, whichever shape the tree has (R152, R153, R156 (c)). -/
theorem codesHold_genCodes {t : TreeStore} {root : NodeIdx} {nnodes : BitVec 9}
    (h : TreeShape t root nnodes) : CodesHold (genCodes t root) := by
  rcases h with ⟨rfl, -, -⟩ | ⟨rfl, -, hleaf, -, -⟩ | proper
  · rw [genCodes, if_pos rfl]
    exact codesHold_emptyCodes
  · rw [genCodes, if_neg (by decide), show nodeAt t 0 = slot t 0 from rfl, Node.eq_leaf hleaf]
    exact codesHold_single _
  · exact codesHold_genCodes_proper proper

/-- DESER's table has the invariant (R195). -/
theorem codesHold_deserLoop {bs : List Byte} {u : CodeTable}
    (h : deserLoop bs .symbol emptyCodes = .ok u) : CodesHold u := by
  obtain ⟨es, -, good, holds⟩ := deserLoop_ok holdsEntries_empty ⟨by simp, List.Pairwise.nil⟩ h
  exact codesHold_of_holdsEntries good holds

/-- The commands keep the invariant of the code table: GEN and DESER alone commit one. -/
theorem codesHold_exec {i : Instr} {s t : State} (hT : TreeShape s.tree s.root s.nnodes)
    (h : CodesHold s.ct) (hx : exec i s = .next t) : CodesHold t.ct := by
  by_cases hg : i = .gen
  · rw [hg, exec_gen, conclude_ok] at hx
    cases hx
    exact codesHold_genCodes hT
  · by_cases hd : i = .deser
    · rw [hd, exec_deser] at hx
      rcases conclude_next hx with ⟨_, -, rfl⟩ | ⟨u, hu, rfl⟩
      · exact h
      · exact codesHold_deserLoop hu
    · rwa [exec_keeps_ct hx hg hd]

theorem codesHold_hostWrite {s t : State} {space i v : Nat} (h : CodesHold s.ct)
    (hw : hostWrite s space i v = .ok t) : CodesHold t.ct := by
  obtain ⟨-, -, -, hct, -⟩ := hostWrite_keeps hw
  rwa [hct]

/-- Every step keeps the invariant of the code table beside that of the tree, which GEN reads (R36). -/
theorem codesHold_step {s t : State} (hT : TreeShape s.tree s.root s.nnodes) (h : CodesHold s.ct)
    (ht : step s = .next t) : CodesHold t.ct := by
  have both : TreeShape t.tree t.root t.nnodes ∧ CodesHold t.ct :=
    step_keeps (P := fun s => TreeShape s.tree s.root s.nnodes ∧ CodesHold s.ct) ht ⟨hT, h⟩
      (take := fun _ _ h => h) (answer := fun _ _ h => h)
      (reset := fun _ _ => ⟨treeShape_reset, codesHold_emptyCodes⟩) (raised := fun _ _ h => h)
      (write := fun ⟨hT, h⟩ hw => ⟨treeShape_hostWrite hT hw, codesHold_hostWrite h hw⟩)
      (command := fun ⟨hT, h⟩ hx => ⟨treeShape_exec hT hx, codesHold_exec hT h hx⟩)
  exact both.2

/-! The obligations -/

/-- Settles O56: the ranges and the tree's shape are kept by every step, and no error code exceeds 5. -/
theorem rangesHoldAfterEveryStep : Obligations.RangesHoldAfterEveryStep :=
  ⟨.of_unwritten (by decide) reset_len reset_buffer, fun _ t hR hT ht =>
    ⟨hR.step ht, t.status.err.code_le_five, treeShape_step hT ht⟩⟩

/-- Settles O57: reset leaves no tree, and every step keeps the shape. -/
theorem treeShapeHoldsAfterEveryStep : Obligations.TreeShapeHoldsAfterEveryStep :=
  ⟨treeShape_reset, fun _ _ => treeShape_step⟩

/-- Settles O58: reset leaves the empty table, and every step keeps the invariant beside the tree's. -/
theorem codeTableHoldsAfterEveryStep : Obligations.CodeTableHoldsAfterEveryStep :=
  ⟨codesHold_emptyCodes, fun _ _ => codesHold_step⟩

end Sys2Proof.Machine
end

section
/-! R42: each store is changed only by its writers, from the frame of a step. -/

namespace Sys2Proof.Machine

open Sys2Proof

/-- Settles O59: one frame per store, each from what the commands and the host's writes leave. -/
theorem storesChangeOnlyByTheirWriters : Obligations.StoresChangeOnlyByTheirWriters := by
  intro s t tr rest hs h hr
  refine ⟨fun hb => ?tree, fun hg hd => ?ct, fun hf hw => ?ft, fun hd hp => ?sym, fun he => ?bit,
    fun hse => ?art, fun hc => ?status, ?params⟩
  case tree =>
    have kept : (t.tree, t.root, t.nnodes) = (s.tree, s.root, s.nnodes) := by
      refine step_leaves (fun s => (s.tree, s.root, s.nnodes)) hs h hr (fun _ hw => ?_) fun hi hx => ?_
      · obtain ⟨htree, hroot, hnnodes, -⟩ := hostWrite_keeps hw
        rw [htree, hroot, hnnodes]
      · obtain ⟨htree, hroot, hnnodes⟩ := exec_keeps_tree hx fun h => hb (h ▸ hi)
        rw [htree, hroot, hnnodes]
    simpa using kept
  case ct =>
    refine step_leaves (·.ct) hs h hr (fun _ hw => ?_) fun hi hx =>
      exec_keeps_ct hx (fun h => hg (h ▸ hi)) (fun h => hd (h ▸ hi))
    obtain ⟨-, -, -, hct, -⟩ := hostWrite_keeps hw
    exact hct
  case ft =>
    exact step_leaves (·.ft) hs h hr (fun htr hx => hostWrite_keeps_ft hx fun h => hw _ _ (h ▸ htr))
      fun hi hx => exec_keeps_ft hx fun h => hf (h ▸ hi)
  case sym =>
    refine step_leaves_buffer .sym hs h hr fun i hi => ?_
    rcases outputBuffer_eq_sym.1 hi with rfl | rfl
    · exact hd
    · exact hp
  case bit => exact step_leaves_buffer .bit hs h hr fun i hi => outputBuffer_eq_bit.1 hi ▸ he
  case art => exact step_leaves_buffer .art hs h hr fun i hi => outputBuffer_eq_art.1 hi ▸ hse
  case status =>
    refine step_leaves (·.status) hs h hr (fun _ hw => ?_) (fun hi _ => absurd hi.isCmdWrite hc)
      (raised := fun hcmd => absurd hcmd hc)
    obtain ⟨-, -, -, -, hstatus, -⟩ := hostWrite_keeps hw
    exact hstatus
  case params =>
    refine step_leaves (·.params) hs h hr (fun _ hw => ?_) fun _ hx => (exec_keeps_host hx).1
    obtain ⟨-, -, -, -, -, hparams⟩ := hostWrite_keeps hw
    exact hparams

end Sys2Proof.Machine
end

section
/-! R31 and R41: a command's result does not depend on STATUS, nor on anything but its inputs. -/

namespace Sys2Proof.Machine

open Sys2Proof

/-! STATUS -/

theorem window_ignores_status (s : State) (st : Status) (b : Buffer) :
    { s with status := st }.window b = s.window b := by cases b <;> rfl

theorem commitBuffer_ignores_status (b : Buffer) (out : List Byte) (s : State) (st : Status) :
    commitBuffer b out { s with status := st } = commitBuffer b out s := by cases b <;> rfl

/-- An ending overwrites STATUS where its commit does, because an error overwrites it too (R232). -/
theorem conclude_ignores_status {α : Type} (r : Except Err α) {commit : α → State → State} {s : State}
    {st : Status} (h : ∀ a, commit a { s with status := st } = commit a s) :
    conclude r commit { s with status := st } = conclude r commit s := by
  cases r with
  | error e => rfl
  | ok a => rw [conclude_ok, conclude_ok, h]

/-- Settles O47: no command's operands include STATUS, and every commit and every error overwrites it. -/
theorem statusIsNeverAnInput : Obligations.StatusIsNeverAnInput := by
  intro i s st
  cases i with
  | freq =>
    rw [exec_freq, exec_freq, window_ignores_status]
    exact conclude_ignores_status _ fun _ => rfl
  | build =>
    rw [exec_build, exec_build]
    exact conclude_ignores_status _ fun _ => rfl
  | gen =>
    rw [exec_gen, exec_gen]
    exact conclude_ignores_status _ fun _ => rfl
  | enc =>
    rw [exec_enc, exec_enc, window_ignores_status]
    exact conclude_ignores_status _ fun _ => commitBuffer_ignores_status ..
  | dect =>
    rw [exec_dect, exec_dect, window_ignores_status]
    exact conclude_ignores_status _ fun _ => commitBuffer_ignores_status ..
  | decp =>
    rw [exec_decp, exec_decp, window_ignores_status]
    exact conclude_ignores_status _ fun _ => commitBuffer_ignores_status ..
  | ser =>
    rw [exec_ser, exec_ser]
    exact conclude_ignores_status _ fun _ => commitBuffer_ignores_status ..
  | deser =>
    rw [exec_deser, exec_deser, window_ignores_status]
    exact conclude_ignores_status _ fun _ => rfl

/-! No command raises OK as an error, so ERR = OK tells a commit (R221) -/

theorem buildNodes_ne_error_ok (ft : FreqTable) : buildNodes ft ≠ .error .ok := by
  unfold buildNodes
  split <;> simp

theorem encLoop_ne_error_ok (t : CodeTable) (cap : Nat) (xs : List Symbol) (out : Code) :
    encLoop t cap xs out ≠ .error .ok := by
  fun_induction encLoop <;> simp_all

theorem emit_ne_error_ok (cap : Nat) (out : List Symbol) (x : Symbol) :
    emit cap out x ≠ .error .ok := by
  rw [emit_eq]
  split <;> simp

theorem dectLoop_ne_error_ok (tree : TreeStore) (root : NodeIdx) (cap : Nat) (bs : List Byte)
    (cur : NodeIdx) (out : List Symbol) : dectLoop tree root cap bs cur out ≠ .error .ok := by
  fun_induction dectLoop <;> grind [emit_ne_error_ok]

theorem decpLoop_ne_error_ok (t : CodeTable) (cap : Nat) (bs : List Byte) (buf : Code)
    (out : List Symbol) : decpLoop t cap bs buf out ≠ .error .ok := by
  fun_induction decpLoop <;> grind [emit_ne_error_ok]

theorem serLoop_ne_error_ok (t : CodeTable) (cap : Nat) (xs : List Symbol) (out : List Byte) :
    serLoop t cap xs out ≠ .error .ok := by
  fun_induction serLoop <;> simp_all

theorem deserLoop_ne_error_ok (bs : List Byte) (pos : ParsePos) (t : CodeTable) :
    deserLoop bs pos t ≠ .error .ok := by
  fun_induction deserLoop <;> simp_all

/-! Two states that agree on the inputs -/

/-- The window after a commit is determined by the output alone, whatever its length (R77). -/
theorem commitBuffer_window_eq_take (b : Buffer) (out : List Byte) (s : State) :
    (commitBuffer b out s).window b = out.take (out.length % 2 ^ 32) := by
  refine List.ext_getElem ?_ fun i _ h => ?_
  · rw [window_length, commitBuffer_len, BitVec.toNat_ofNat, List.length_take_of_le (Nat.mod_le _ _)]
  · have hi : i < out.length := (List.length_take_le' ..).trans_lt' h
    simp [State.window, commitBuffer_readBuf, hi]

section

variable {α γ : Type} {r : Except Err α} {s s' t t' : State}

/-- Two commands that compute the same `r` leave the same STATUS and, where they commit, the same
`result`, once their commits do. -/
theorem conclude_agrees {commit : α → State → State} (h : conclude r commit s = .next t)
    (h' : conclude r commit s' = .next t') (real : r ≠ .error .ok)
    (status : ∀ a, (commit a s).status = (commit a s').status) (result : State → γ)
    (same : ∀ a, result (commit a s) = result (commit a s')) :
    t.status = t'.status ∧ (t.status.err = .ok → result t = result t') := by
  cases r with
  | error e =>
    obtain rfl : raise e s = t := by simpa using h
    obtain rfl : raise e s' = t' := by simpa using h'
    exact ⟨rfl, fun he => absurd (congrArg Except.error he) real⟩
  | ok a =>
    obtain rfl : commit a s = t := by simpa using h
    obtain rfl : commit a s' = t' := by simpa using h'
    exact ⟨status a, fun _ => same a⟩

/-- Two commands that commit the same output to a buffer leave the same window (R77). -/
theorem conclude_commitBuffer_agrees {b : Buffer} {output : α → List Byte}
    (h : conclude r (fun a => commitBuffer b (output a)) s = .next t)
    (h' : conclude r (fun a => commitBuffer b (output a)) s' = .next t') (real : r ≠ .error .ok) :
    t.status = t'.status ∧ (t.status.err = .ok → t.window b = t'.window b) :=
  conclude_agrees h h' real (fun _ => by simp) (·.window b)
    fun _ => by simp only [commitBuffer_window_eq_take]

end

/-- Settles O48: on equal inputs a command computes the same result, which determines what it commits. -/
theorem commandsDependOnlyOnTheirInputs : Obligations.CommandsDependOnlyOnTheirInputs := by
  intro s s' t t'
  refine ⟨fun hw h h' => ?freq, fun hft h h' => ?build, fun htree hroot _ h h' => ?gen,
    fun hp hw hct h h' => ?enc, fun hp hw htree hroot h h' => ?dect, fun hp hw hct h h' => ?decp,
    fun hp hct h h' => ?ser, fun hw h h' => ?deser⟩
  case freq =>
    have hlen : s.symlen = s'.symlen := BitVec.eq_of_toNat_eq (by
      simpa [State.len] using congrArg List.length hw)
    rw [exec_freq, conclude_ok] at h h'
    cases h
    cases h'
    simp [hlen, hw]
  case build =>
    rw [exec_build] at h h'
    rw [← hft] at h'
    obtain ⟨hst, hres⟩ := conclude_agrees h h' (buildNodes_ne_error_ok _) (fun _ => rfl)
      (fun s => (s.tree, s.root, s.nnodes)) fun _ => rfl
    exact ⟨hst, fun hok => by simpa using hres hok⟩
  case gen =>
    rw [exec_gen, conclude_ok] at h h'
    cases h
    cases h'
    simp [htree, hroot]
  case enc =>
    rw [exec_enc] at h h'
    rw [← hp, ← hw, ← hct] at h'
    exact conclude_commitBuffer_agrees h h' (encLoop_ne_error_ok _ _ _ _)
  case dect =>
    rw [exec_dect] at h h'
    rw [← hp, ← hw, ← htree, ← hroot] at h'
    exact conclude_commitBuffer_agrees h h' (dectLoop_ne_error_ok _ _ _ _ _ _)
  case decp =>
    rw [exec_decp] at h h'
    rw [← hp, ← hw, ← hct] at h'
    exact conclude_commitBuffer_agrees h h' (decpLoop_ne_error_ok _ _ _ _ _)
  case ser =>
    rw [exec_ser] at h h'
    rw [← hp, ← hct] at h'
    exact conclude_commitBuffer_agrees h h' (serLoop_ne_error_ok _ _ _ _)
  case deser =>
    rw [exec_deser] at h h'
    rw [← hw] at h'
    exact conclude_agrees h h' (deserLoop_ne_error_ok _ _ _) (fun _ => rfl) (·.ct) fun _ => rfl

end Sys2Proof.Machine
end

section
/-! R62 to R65: a host access is performed exactly when its condition holds; a read answers its element,
a write sets its element, and a refused access changes nothing. -/

namespace Sys2Proof.Machine

open Sys2Proof

/-! What a read answers (R62) -/

/-- ROOT and NNODES are read as 32-bit words of the same value (R27, R28). -/
theorem toNat_eq_iff_setWidth_eq {k : BitVec 9} {w : Word} :
    w.toNat = k.toNat ↔ k.setWidth 32 = w := by
  rw [← BitVec.toNat_inj, BitVec.toNat_setWidth_of_le (by decide), eq_comm]

/-- The control registers a host reads, CMD as 0 (R21). -/
theorem readCsr_eq_some_iff {s : State} {i : Nat} {w : Word} :
    readCsr s i = some w ↔
      (i = 0 ∧ w = 0) ∨ (i = 1 ∧ w = s.status.word) ∨ (i = 2 ∧ w = s.symlen) ∨
        (i = 3 ∧ w = s.bitlen) ∨ (i = 4 ∧ w = s.artlen) ∨
        (i = 5 ∧ w.toNat = s.root.toNat) ∨ (i = 6 ∧ w.toNat = s.nnodes.toNat) := by
  rw [toNat_eq_iff_setWidth_eq, toNat_eq_iff_setWidth_eq]
  unfold readCsr
  split <;> simp_all [@eq_comm _ w]

/-- CSR 0 to 6 are the control registers (R21). -/
theorem exists_readCsr_iff {s : State} {i : Nat} : (∃ w, readCsr s i = some w) ↔ i < 7 := by
  match i with
  | 0 | 1 | 2 | 3 | 4 | 5 | 6 => simp [readCsr]
  | n + 7 => simp [readCsr]

theorem bufferOfSpace_eq_some_iff {n : Nat} {b : Buffer} : bufferOfSpace n = some b ↔ n = spaceId b := by
  unfold bufferOfSpace
  split <;> cases b <;> simp_all [spaceId]

/-- A read is answered exactly where its space has the element, with the element's value (R62). -/
theorem hostRead_eq_ok_iff {s : State} {space i : Nat} {r : Response} :
    hostRead s space i = .ok r ↔
      (space = 0 ∧ ∃ w, r = .word w ∧ readCsr s i = some w) ∨
      (∃ b, space = spaceId b ∧ i < s.params.cap b ∧ r = .byte (s.readBuf b i)) ∨
      (∃ x : Symbol, space = 4 ∧ i = x.toNat ∧ r = .word (countOf s.ft x)) ∨
      (space = 5 ∧ i < 511 ∧ r = .packed (slot s.tree i).pack) := by
  constructor
  · intro h
    unfold hostRead at h
    split at h
    · split at h
      · next w hw =>
        cases h
        exact .inl ⟨rfl, w, rfl, hw⟩
      · cases h
    · split at h
      · next hi =>
        cases h
        exact .inr (.inr (.inl ⟨BitVec.ofNat 8 i, rfl, (Nat.mod_eq_of_lt hi).symm, rfl⟩))
      · cases h
    · split at h
      · next hi =>
        cases h
        exact .inr (.inr (.inr ⟨rfl, hi, rfl⟩))
      · cases h
    · split at h
      · next b hb =>
        split at h
        · next hi =>
          cases h
          exact .inr (.inl ⟨b, bufferOfSpace_eq_some_iff.1 hb, hi, rfl⟩)
        · cases h
      · cases h
  · rintro (⟨rfl, w, rfl, hw⟩ | ⟨b, rfl, hi, rfl⟩ | ⟨x, rfl, rfl, rfl⟩ | ⟨rfl, hi, rfl⟩)
    · simp [hostRead, hw]
    · cases b <;> simp [hostRead, spaceId, bufferOfSpace, hi]
    · simp [hostRead, x.isLt]
    · simp [hostRead, Config.nodeCap, hi]

/-- A read is answered exactly when it meets the condition of R62. -/
theorem accepted_hrd_iff {s : State} {space i : Nat} :
    Accepted s.params (.hrd space i) ↔ ∃ r, hostRead s space i = .ok r := by
  simp only [hostRead_eq_ok_iff]
  constructor
  · rintro (⟨hs, hi⟩ | ⟨hs, hi⟩ | ⟨hs, hi⟩ | ⟨b, hs, hi⟩)
    · obtain ⟨w, hw⟩ := exists_readCsr_iff.2 hi
      exact ⟨_, .inl ⟨hs, w, rfl, hw⟩⟩
    · exact ⟨_, .inr (.inr (.inl ⟨BitVec.ofNat 8 i, hs, (Nat.mod_eq_of_lt hi).symm, rfl⟩))⟩
    · exact ⟨_, .inr (.inr (.inr ⟨hs, hi, rfl⟩))⟩
    · exact ⟨_, .inr (.inl ⟨b, hs, hi, rfl⟩)⟩
  · rintro ⟨r, ⟨hs, w, -, hw⟩ | ⟨b, hs, hi, -⟩ | ⟨x, hs, hi, -⟩ | ⟨hs, hi, -⟩⟩
    · exact .inl ⟨hs, exists_readCsr_iff.1 ⟨w, hw⟩⟩
    · exact .inr (.inr (.inr ⟨b, hs, hi⟩))
    · exact .inr (.inl ⟨hs, hi ▸ x.isLt⟩)
    · exact .inr (.inr (.inl ⟨hs, hi⟩))

/-- A read that is answered is not refused. -/
theorem hostRead_ne_refused {s : State} {space i : Nat} {r : Response} (h : hostRead s space i = .ok r)
    (why : ScriptFault) : r ≠ .refused why := by
  rcases hostRead_eq_ok_iff.1 h with ⟨-, w, rfl, -⟩ | ⟨b, -, -, rfl⟩ | ⟨x, -, -, rfl⟩ | ⟨-, -, rfl⟩ <;>
    exact nofun

/-! What a write sets (R63, R65) -/

section

variable {s : State} {i v : Nat}

theorem hostWrite_cmd (hv : v < 2 ^ 32) : hostWrite s 0 0 v = .ok s := by
  simp only [hostWrite, writeCsr, if_pos hv]

theorem hostWrite_len {b : Buffer} (hv : v < 2 ^ 32) (hcap : v ≤ s.params.cap b) :
    hostWrite s 0 (lenCsr b) v = .ok (s.setLen b (BitVec.ofNat 32 v)) := by
  cases b <;> simp only [hostWrite, lenCsr, writeCsr, writeLen, if_pos hv, if_pos hcap]

theorem hostWrite_element {b : Buffer} (hi : i < s.params.cap b) (hv : v < 256) :
    hostWrite s (spaceId b) i v =
      .ok (s.setBuffer b ((s.buffer b).write i (BitVec.ofNat 8 v))) := by
  cases b <;> simp only [hostWrite, spaceId, bufferOfSpace, writeElement, if_pos hi, if_pos hv]

theorem hostWrite_count (hi : i < 256) (hv : v < 2 ^ 32) :
    hostWrite s 4 i v =
      .ok { s with ft := setCount s.ft (BitVec.ofNat 8 i) (BitVec.ofNat 32 v) } := by
  simp only [hostWrite, writeCount, if_pos hi, if_pos hv]

end

/-- A write is performed exactly when it meets the condition of R63 and R65. -/
theorem accepted_hwr_iff {s : State} {space i v : Nat} :
    Accepted s.params (.hwr space i v) ↔ ∃ t, hostWrite s space i v = .ok t := by
  constructor
  · rintro (⟨rfl, rfl, hv⟩ | ⟨b, rfl, rfl, hv, hcap⟩ | ⟨rfl, hi, hv⟩ | ⟨b, rfl, hi, hv⟩)
    · exact ⟨_, hostWrite_cmd hv⟩
    · exact ⟨_, hostWrite_len hv hcap⟩
    · exact ⟨_, hostWrite_count hi hv⟩
    · exact ⟨_, hostWrite_element hi hv⟩
  · rintro ⟨t, ht⟩
    rcases hostWrite_cases ht with ⟨hs, hi, hv, -⟩ | ⟨b, hs, hi, hcap, hv, -⟩ | ⟨b, hs, hi, hv, -⟩ |
      ⟨hs, hi, hv, -⟩
    · exact .inl ⟨hs, hi, hv⟩
    · exact .inr (.inl ⟨b, hs, hi, hv, hcap⟩)
    · exact .inr (.inr (.inr ⟨b, hs, hi, hv⟩))
    · exact .inr (.inr (.inl ⟨hs, hi, hv⟩))

/-- No host write touches the transcript, to which only the interface adds (R64). -/
theorem hostWrite_keeps_responses {s t : State} {space i v : Nat} (h : hostWrite s space i v = .ok t) :
    t.responses = s.responses := by
  rcases hostWrite_cases h with ⟨-, -, -, rfl⟩ | ⟨b, -, -, -, -, rfl⟩ | ⟨b, -, -, -, rfl⟩ |
    ⟨-, -, -, rfl⟩ <;> simp

@[simp] theorem respond_readBuf (r : Response) (s : State) (b : Buffer) (i : Nat) :
    (respond r s).readBuf b i = s.readBuf b i := readBuf_congr (by simp) rfl i

@[simp] theorem takeTransaction_readBuf (rest : List Transaction) (s : State) (b : Buffer) (i : Nat) :
    (takeTransaction rest s).readBuf b i = s.readBuf b i := readBuf_congr (by simp) rfl i

/-- Element `j` of buffer `d` after element `i` of buffer `b` is written (R63). -/
theorem readBuf_setBuffer_write (s : State) (b d : Buffer) (i j : Nat) (v : Byte) :
    (s.setBuffer b ((s.buffer b).write i v)).readBuf d j =
      if d = b ∧ j = i then v else s.readBuf d j := by
  by_cases hd : d = b
  · subst hd
    by_cases hj : j = i
    · simp [State.readBuf, hj]
    · simp [State.readBuf, hj, Memory.read?_write_other]
  · simp [State.readBuf, hd, setBuffer_buffer_other s _ hd]

/-! The step of a host access, of a refused one and of a command (R22, R64) -/

/-- Every command ends in its commit or its error (R235). -/
theorem exists_exec_eq_next (c : Instr) (s : State) : ∃ t, exec c s = .next t := by
  have ends : ∀ {α : Type} (r : Except Err α) (commit : α → State → State),
      ∃ t, conclude r commit s = .next t := by
    rintro α (e | a) commit
    · exact ⟨_, conclude_error e commit s⟩
    · exact ⟨_, conclude_ok a commit s⟩
  cases c <;> simp only [exec_freq, exec_build, exec_gen, exec_enc, exec_dect, exec_decp, exec_ser,
    exec_deser] <;> exact ends _ _

/-- Nothing stops the block (R235). -/
theorem exists_step_eq_next (s : State) : ∃ t, step s = .next t := by
  unfold step
  split
  · exact ⟨_, rfl⟩
  · next tr rest _ =>
    split
    · exact ⟨_, rfl⟩
    · split
      · next c _ =>
        obtain ⟨t, ht⟩ := exists_exec_eq_next c (takeTransaction rest s)
        exact ⟨_, by rw [ht, complete_next]⟩
      · exact ⟨_, rfl⟩

/-- Every write of a 32-bit word to CMD is performed (R63). -/
theorem IsCmdWrite.accepted {p : Params} {tr : Transaction} (h : IsCmdWrite tr) : Accepted p tr := by
  obtain ⟨v, hv, rfl⟩ := h
  exact .inl ⟨rfl, rfl, hv⟩

/-- A transaction that is no 32-bit write to CMD carries no command word (R22). -/
theorem commandWord_eq_none {tr : Transaction} (h : ¬ IsCmdWrite tr) : commandWord tr = none := by
  cases hw : commandWord tr with
  | none => rfl
  | some w => exact absurd ⟨_, w.isLt, commandWord_eq_some hw⟩ h

/-- An access that fails its condition leaves the block as it is, and says so (R64). -/
theorem hostAccess_refused {s : State} {tr : Transaction} (h : ¬ Accepted s.params tr) :
    ∃ why, hostAccess tr s = respond (.refused why) s := by
  cases tr with
  | hrd space i =>
    rw [accepted_hrd_iff] at h
    cases hr : hostRead s space i with
    | ok r => exact absurd ⟨r, hr⟩ h
    | error why => exact ⟨why, by simp only [hostAccess, hr]⟩
  | hwr space i v =>
    rw [accepted_hwr_iff] at h
    cases hw : hostWrite s space i v with
    | ok t => exact absurd ⟨t, hw⟩ h
    | error why => exact ⟨why, by simp only [hostAccess, hw]⟩
  | reset => exact absurd trivial h

/-- An access that meets its condition gets a response that is no refusal (R62, R63). -/
theorem hostAccess_answered {s : State} {tr : Transaction} (h : Accepted s.params tr) :
    ∃ r, (hostAccess tr s).responses = s.responses ++ [r] ∧ ∀ why, r ≠ .refused why := by
  cases tr with
  | hrd space i =>
    obtain ⟨r, hr⟩ := accepted_hrd_iff.1 h
    exact ⟨r, by simp only [hostAccess, hr, respond_responses], hostRead_ne_refused hr⟩
  | hwr space i v =>
    obtain ⟨t, ht⟩ := accepted_hwr_iff.1 h
    refine ⟨.done, ?_, nofun⟩
    simp only [hostAccess, ht, respond_responses, hostWrite_keeps_responses ht]
  | reset => exact ⟨.done, rfl, nofun⟩

section

variable {s : State} {rest : List Transaction}

theorem step_access {tr : Transaction} (hs : s.script = tr :: rest) (hcmd : ¬ IsCmdWrite tr) :
    step s = .next (hostAccess tr (takeTransaction rest s)) := by
  simp only [step, hs, commandWord_eq_none hcmd]

theorem step_read {space i : Nat} {r : Response} (hs : s.script = .hrd space i :: rest)
    (hr : hostRead s space i = .ok r) : step s = .next (respond r (takeTransaction rest s)) := by
  have hcmd : ¬ IsCmdWrite (.hrd space i) := by rintro ⟨v, -, h⟩; cases h
  have taken : hostRead (takeTransaction rest s) space i = .ok r := hr
  rw [step_access hs hcmd, hostAccess, taken]

theorem step_write {space i v : Nat} {t : State} (hs : s.script = .hwr space i v :: rest)
    (hne : ¬ (space = 0 ∧ i = 0)) (hw : hostWrite (takeTransaction rest s) space i v = .ok t) :
    step s = .next (respond .done t) := by
  have hcmd : ¬ IsCmdWrite (.hwr space i v) := by rintro ⟨u, -, h⟩; cases h; exact hne ⟨rfl, rfl⟩
  rw [step_access hs hcmd, hostAccess, hw]

theorem step_command {v : Nat} {c : Instr} (hs : s.script = .hwr 0 0 v :: rest) (hv : v < 2 ^ 32)
    (hd : decode (BitVec.ofNat 32 v) = .ok c) : step s = complete (exec c (takeTransaction rest s)) := by
  simp only [step, hs, commandWord, if_pos hv, hd]

end

/-! Lengths and capacities (R5, R65) -/

/-- Each capacity fits a length register (R5). -/
theorem cap_lt_of_wf {p : Params} (h : p.wf = true) (b : Buffer) : p.cap b < 2 ^ 32 := by
  simp only [Params.wf, capWf, Bool.and_eq_true, decide_eq_true_eq] at h
  obtain ⟨⟨⟨-, hsym⟩, -, hbit⟩, -, hart⟩ := h
  cases b
  · exact hsym
  · exact hbit
  · exact hart

theorem lenCsr_injective : Function.Injective lenCsr := by
  intro b d
  cases b <;> cases d <;> simp [lenCsr]

/-- A length register is written only up to its buffer's capacity (R65). -/
theorem le_cap_of_accepted {p : Params} {b : Buffer} {v : Nat} (h : Accepted p (.hwr 0 (lenCsr b) v)) :
    v ≤ p.cap b := by
  rcases h with ⟨-, hi, -⟩ | ⟨d, -, hi, -, hcap⟩ | ⟨hspace, -⟩ | ⟨d, hspace, -⟩
  · cases b <;> cases hi
  · obtain rfl := lenCsr_injective hi
    exact hcap
  · cases hspace
  · cases d <;> cases hspace

/-! The obligations -/

/-- Settles O54: the interface performs an access exactly where its condition holds. -/
theorem refusedAccessChangesNothing : Obligations.RefusedAccessChangesNothing := by
  intro s tr rest hs
  constructor
  · intro h
    obtain ⟨why, hwhy⟩ := hostAccess_refused (s := takeTransaction rest s) h
    exact ⟨why, by rw [step_access hs (mt IsCmdWrite.accepted h), hwhy]; rfl⟩
  · intro h
    obtain ⟨t, ht⟩ := exists_step_eq_next s
    suffices ∃ r, t.responses = s.responses ++ [r] ∧ ∀ why, r ≠ .refused why by
      obtain ⟨r, hr⟩ := this
      exact ⟨t, r, ht, hr⟩
    rcases step_cases ht with ⟨h0, -⟩ | ⟨tr', rest', hs', hcase⟩
    · simp [h0] at hs
    · obtain ⟨rfl, rfl⟩ : tr = tr' ∧ rest = rest' := by simpa [hs] using hs'
      rcases hcase with ⟨-, rfl⟩ | ⟨_, _, -, -, rfl⟩ | ⟨_, i, u, -, -, hx, rfl⟩
      · exact hostAccess_answered (s := takeTransaction rest s) h
      · exact ⟨.done, rfl, nofun⟩
      · obtain ⟨-, -, -, hresp⟩ := exec_keeps_host hx
        exact ⟨.done, by simp [hresp], nofun⟩

/-- Settles O53: each clause is the write of its element, or the step of a command. -/
theorem hostWriteSetsOneElement : Obligations.HostWriteSetsOneElement := by
  intro s rest space i v hs
  refine ⟨fun b hspace hi hv => ?element, fun hspace hi hv => ?count, fun c hspace hi hv hd => ?command,
    fun b hspace hi hv hcap => ?length⟩
  case element =>
    subst hspace
    have hne : ¬ (spaceId b = 0 ∧ i = 0) := by cases b <;> simp [spaceId]
    refine ⟨_, step_write hs hne (hostWrite_element hi hv), ?_, fun d j hdj => ?_, by cases b <;> rfl⟩
    · rw [respond_readBuf, readBuf_setBuffer_write, if_pos ⟨rfl, rfl⟩]
    · rw [respond_readBuf, readBuf_setBuffer_write, if_neg hdj, takeTransaction_readBuf]
  case count =>
    subst hspace
    have hx : ∀ x : Symbol, x = BitVec.ofNat 8 i ↔ x.toNat = i := fun x => by
      rw [← BitVec.toNat_inj, BitVec.toNat_ofNat, Nat.mod_eq_of_lt hi]
    refine ⟨_, step_write hs (by simp) (hostWrite_count hi hv), ?_, fun x hne => ?_, rfl⟩
    · simp [countOf_setCount]
    · simp [countOf_setCount, hx, hne]
  case command =>
    subst hspace hi
    obtain ⟨t, ht⟩ := exists_exec_eq_next c (takeTransaction rest s)
    exact ⟨t, ht, by rw [step_command hs hv hd, ht]; rfl⟩
  case length =>
    subst hspace hi
    have hne : ¬ (0 = 0 ∧ lenCsr b = 0) := by cases b <;> decide
    refine ⟨_, step_write hs hne (hostWrite_len hv hcap), by simp, fun d hd => ?_, by cases b <;> rfl⟩
    simp [setLen_len_other _ _ hd]

/-- Settles O52: every element of R62 is one that `hostRead` answers. -/
theorem hostReadReturnsElement : Obligations.HostReadReturnsElement := by
  intro s rest space i r hs hr
  simp only [← readCsr_eq_some_iff] at hr
  exact step_read hs (hostRead_eq_ok_iff.2 hr)

/-- Settles O55: a length that fits is a write of HostWriteSetsOneElement, and a longer one is refused. -/
theorem lengthWritesRespectCapacity : Obligations.LengthWritesRespectCapacity := by
  intro s rest b v hwf hs
  by_cases hcap : v ≤ s.params.cap b
  · have hv : v < 2 ^ 32 := hcap.trans_lt (cap_lt_of_wf hwf b)
    obtain ⟨-, -, -, len⟩ := hostWriteSetsOneElement s rest 0 (lenCsr b) v hs
    obtain ⟨t, ht, hb, hd, hframe⟩ := len b rfl rfl hv hcap
    refine ⟨t, ht, hd, fun _ => ⟨?_, congrArg State.responses hframe⟩, fun hlt => absurd hcap hlt.not_ge⟩
    rw [hb, BitVec.toNat_ofNat, Nat.mod_eq_of_lt hv]
  · obtain ⟨why, ht⟩ := (refusedAccessChangesNothing s _ rest hs).1 (mt le_cap_of_accepted hcap)
    exact ⟨_, ht, fun d _ => takeTransaction_len rest s d, fun hle => absurd hle hcap,
      fun _ => ⟨takeTransaction_len rest s b, why, rfl⟩⟩

end Sys2Proof.Machine
end

section
/-! R93, the frames of the commands: what each of the eight may change of the registers and stores, and
which elements of the buffers; then R23 and R104, the layouts of the words a host reads. -/

namespace Sys2Proof.Machine

open Sys2Proof

/-! The frames -/

section

variable {i : Instr} {s t : State} {b : Buffer}

/-- The elements of a buffer are written only by the commands whose output it takes (R37 to R39). -/
theorem exec_keeps_readBuf (h : exec i s = .next t) (hb : outputBuffer i ≠ some b) (a : Nat) :
    t.readBuf b a = s.readBuf b a :=
  readBuf_congr (exec_keeps_buffer h hb).1 (exec_keeps_host h).2.1 a

/-- A command that writes a buffer stores to its elements below the new length, and to none on an error
(R77, R78). The capacities of R5 make the new length that of the output. -/
theorem exec_keeps_readBuf_outside_output (hwf : s.params.wf = true) (h : exec i s = .next t)
    (hb : outputBuffer i = some b) (d : Buffer) (a : Nat)
    (hout : ¬ (t.status.err = .ok ∧ d = b ∧ a < (t.len b).toNat)) :
    t.readBuf d a = s.readBuf d a := by
  rcases exec_output h with ⟨b', out, hb', fits, rfl⟩ | same
  · obtain rfl : b = b' := by simpa [hb] using hb'
    have hlen : ((commitBuffer b out s).len b).toNat = out.length := by
      rw [commitBuffer_len, BitVec.toNat_ofNat,
        Nat.mod_eq_of_lt (fits.trans_lt (cap_lt_of_wf hwf b))]
    have hok : (commitBuffer b out s).status.err = .ok := by rw [commitBuffer_status]; rfl
    rw [commitBuffer_readBuf, if_neg fun hin => hout ⟨hok, hlen ▸ hin⟩]
  · exact readBuf_congr (same d).1 (exec_keeps_host h).2.1 a

/-- A command that writes a buffer changes that buffer, its length and STATUS (R93). -/
theorem exec_eq_of_outputBuffer (h : exec i s = .next t) (hb : outputBuffer i = some b) :
    t = { (s.setBuffer b (t.buffer b)).setLen b (t.len b) with status := t.status } := by
  rcases exec_cases h with ⟨_, -, -, rfl⟩ | ⟨rfl, -⟩ | ⟨rfl, -⟩ | ⟨rfl, -⟩ | ⟨rfl, _, -, rfl⟩ |
    ⟨rfl, _, -, rfl⟩ | ⟨rfl, _, -, rfl⟩ | ⟨rfl, _, -, rfl⟩ | ⟨rfl, -⟩
  · cases b <;> rfl
  all_goals cases hb <;> rfl

/-- The whole frame of a command that writes a buffer. -/
theorem exec_frame_of_outputBuffer (hwf : s.params.wf = true) (hb : outputBuffer i = some b)
    (h : exec i s = .next t) :
    t = { (s.setBuffer b (t.buffer b)).setLen b (t.len b) with status := t.status } ∧
      ∀ d a, ¬ (t.status.err = .ok ∧ d = b ∧ a < (t.len b).toNat) →
        t.readBuf d a = s.readBuf d a :=
  ⟨exec_eq_of_outputBuffer h hb, exec_keeps_readBuf_outside_output hwf h hb⟩

end

/-- Settles O50: the four commands are those with an output buffer. -/
theorem bufferCommandFrames : Obligations.BufferCommandFrames := fun _ _ hwf =>
  ⟨exec_frame_of_outputBuffer (i := .enc) hwf rfl, exec_frame_of_outputBuffer (i := .dect) hwf rfl,
    exec_frame_of_outputBuffer (i := .decp) hwf rfl, exec_frame_of_outputBuffer (i := .ser) hwf rfl⟩

/-- Settles O49: the four commands have no output buffer, and each ends in an error or its own commit. -/
theorem tableCommandFrames : Obligations.TableCommandFrames := by
  intro s t
  refine ⟨fun h => ⟨?freq, fun b => exec_keeps_readBuf h nofun⟩,
    fun h => ⟨?build, fun b => exec_keeps_readBuf h nofun⟩,
    fun h => ⟨?gen, fun b => exec_keeps_readBuf h nofun⟩,
    fun h => ⟨?deser, fun b => exec_keeps_readBuf h nofun⟩⟩
  case freq => rcases conclude_next (exec_freq s ▸ h) with ⟨_, -, rfl⟩ | ⟨_, -, rfl⟩ <;> rfl
  case build => rcases conclude_next (exec_build s ▸ h) with ⟨_, -, rfl⟩ | ⟨_, -, rfl⟩ <;> rfl
  case gen => rcases conclude_next (exec_gen s ▸ h) with ⟨_, -, rfl⟩ | ⟨_, -, rfl⟩ <;> rfl
  case deser => rcases conclude_next (exec_deser s ▸ h) with ⟨_, -, rfl⟩ | ⟨_, -, rfl⟩ <;> rfl

/-! The layouts -/

/-- Each field of a packed record reads back as what was packed (R104). -/
theorem packed_fields (f : Word) (k : BitVec 2) (l r : NodeIdx) (z : BitVec 4) (x : Symbol) :
    let p := f ++ k ++ l ++ r ++ z ++ x
    p.extractLsb' 32 32 = f ∧ p.extractLsb' 30 2 = k ∧ p.extractLsb' 21 9 = l ∧
      p.extractLsb' 12 9 = r ∧ p.extractLsb' 8 4 = z ∧ p.extractLsb' 0 8 = x := by
  simp [-Nat.reduceAdd, BitVec.extractLsb'_append_eq_of_le, BitVec.extractLsb'_append_eq_of_add_le]

/-- Each field of the STATUS word reads back as what it was made of (R23). -/
theorem statusWord_fields (z : BitVec 27) (v : Bool) (c : BitVec 4) :
    let w := z ++ BitVec.ofBool v ++ c
    w.extractLsb' 5 27 = z ∧ w.getLsbD 4 = v ∧ w.extractLsb' 0 4 = c := by
  simp [-Nat.reduceAdd, BitVec.extractLsb'_append_eq_of_le, BitVec.extractLsb'_append_eq_of_add_le,
    BitVec.getElem_append]

/-- Settles O60: both words are their fields side by side, and the two records of R104 are evaluated. -/
theorem registerAndNodeLayouts : Obligations.RegisterAndNodeLayouts :=
  ⟨fun st => statusWord_fields 0 st.warnEmpty st.err.code,
    fun x f => packed_fields f 1 Config.nil Config.nil 0 x, fun f l r => packed_fields f 2 l r 0 0,
    rfl, by decide, by decide⟩

end Sys2Proof.Machine
end

section
/-! R120 to R122, the frequency analyzer: FREQ counts the occurrences of every symbol in its input, and
alone sets the warning. -/

namespace Sys2Proof.Machine

open Sys2Proof

/-! The input of FREQ, and its end -/

/-- A length register holds 32 bits, so no window reaches 2^32 elements (R24 to R26). -/
theorem window_length_lt (s : State) (b : Buffer) : (s.window b).length < 2 ^ 32 := by
  rw [window_length]
  exact (s.len b).isLt

theorem mem_window {s : State} {b : Buffer} {x : Byte} :
    x ∈ s.window b ↔ ∃ i < (s.len b).toNat, s.readBuf b i = x := by
  simp [State.window]

/-- The window of a buffer of length 0 is empty (R76). -/
theorem window_eq_nil {s : State} {b : Buffer} (h : s.len b = 0) : s.window b = [] :=
  List.eq_nil_of_length_eq_zero (by simp [h])

/-- FREQ commits its table in every state: it cannot fail (R120). -/
theorem exec_freq_eq_next (s : State) :
    exec .freq s = .next (commitFreq (tally (s.window .sym)) s) := by
  rw [exec_freq, conclude_ok]

/-! WARN_EMPTY -/

/-- No error sets WARN_EMPTY, and no commit but that of FREQ does (R122, R232). -/
theorem exec_clears_warnEmpty {i : Instr} {s t : State} (h : exec i s = .next t) (hi : i ≠ .freq) :
    t.status.warnEmpty = false := by
  rcases exec_cases h with ⟨_, -, -, rfl⟩ | ⟨rfl, -⟩ | ⟨-, _, -, rfl⟩ | ⟨-, rfl⟩ | ⟨-, _, -, rfl⟩ |
    ⟨-, _, -, rfl⟩ | ⟨-, _, -, rfl⟩ | ⟨-, _, -, rfl⟩ | ⟨-, _, -, rfl⟩
  · rfl
  · exact absurd rfl hi
  all_goals simp [Status.success]

/-- FREQ sets WARN_EMPTY exactly when SYMLEN is 0 (R122). -/
theorem exec_freq_warnEmpty_iff {s t : State} (h : exec .freq s = .next t) :
    t.status.warnEmpty = true ↔ s.symlen = 0 := by
  rw [exec_freq_eq_next] at h
  cases h
  simp [Status.frequency]

/-! The obligations -/

/-- Settles O9: the table FREQ commits is the tally of a window too short for a count to wrap. -/
theorem freqCountsOccurrences : Obligations.FreqCountsOccurrences := by
  intro s
  have short := window_length_lt s .sym
  have counts : ∀ x : Symbol, (countOf (tally (s.window .sym)) x).toNat = (s.window .sym).count x :=
    fun x => countOf_tally _ x short
  refine ⟨_, exec_freq_eq_next s, counts, fun x => ?occurs, ?sum, rfl, rfl⟩
  case occurs =>
    calc 1 ≤ (countOf (tally (s.window .sym)) x).toNat
      _ ↔ x ∈ s.window .sym := by rw [counts, List.one_le_count_iff]
      _ ↔ ∃ i < s.symlen.toNat, s.readBuf .sym i = x := mem_window
  case sum =>
    calc total (tally (s.window .sym))
      _ = (s.window .sym).length := total_tally _ short
      _ = s.symlen.toNat := window_length s .sym

/-- Settles O10: STATUS of FREQ depends on SYMLEN, and every other command clears the warning. -/
theorem onlyFreqOnEmptyInputWarns : Obligations.OnlyFreqOnEmptyInputWarns := by
  constructor
  · intro i s t h
    by_cases hi : i = .freq
    · subst hi
      rw [exec_freq_warnEmpty_iff h, and_iff_right rfl]
    · simp [exec_clears_warnEmpty h hi, hi]
  · intro s hs
    refine ⟨_, exec_freq_eq_next s, ?status, fun x => ?table⟩
    case status => rw [commitFreq_status, hs]; rfl
    case table => rw [commitFreq_ft, window_eq_nil (b := .sym) hs]; exact countOf_zero x

end Sys2Proof.Machine
end

section
/-! R130 to R140, the tree builder: BUILD checks the total once, seeds the Leaves in symbol order and
merges the two least records of Q in every round, so it commits no tree, a lone leaf or a proper tree. -/

namespace Sys2Proof.Machine

open Sys2Proof

/-! What BUILD commits -/

theorem commitTree_tree_eq_storeOf (ns : List Node) (s : State) :
    (commitTree ns s).tree = storeOf ns := rfl

/-- ROOT is the last record made (R130). -/
theorem commitTree_root_of_pos {ns : List Node} (h : 0 < ns.length) (s : State) :
    (commitTree ns s).root = BitVec.ofNat 9 (ns.length - 1) := by
  rw [commitTree_root, if_neg]
  rw [List.isEmpty_iff_length_eq_zero]
  omega

/-- BUILD's commit leaves STATUS 0 and changes nothing but TREE, ROOT, NNODES and STATUS (R93, R130). -/
theorem commitTree_frame (ns : List Node) (s : State) :
    (commitTree ns s).status.word = 0 ∧
      commitTree ns s = { s with tree := (commitTree ns s).tree, root := (commitTree ns s).root,
                                 nnodes := (commitTree ns s).nnodes,
                                 status := (commitTree ns s).status } :=
  ⟨by rw [commitTree_status]; decide, rfl⟩

theorem exec_build_of_buildNodes {s : State} {ns : List Node} (h : buildNodes s.ft = .ok ns) :
    exec .build s = .next (commitTree ns s) := by
  rw [exec_build, h, conclude_ok]

/-- BUILD without an error has committed records (R130). -/
theorem exec_build_ok {s t : State} (h : exec .build s = .next t) (hok : t.status.err = .ok) :
    ∃ ns, buildNodes s.ft = .ok ns ∧ t = commitTree ns s := by
  rcases conclude_next (exec_build s ▸ h) with ⟨e, he, rfl⟩ | committed
  · obtain rfl : e = .ok := hok
    exact absurd he (buildNodes_ne_error_ok s.ft)
  · exact committed

/-! The check of the total (R137) -/

theorem buildNodes_of_total_ge {ft : FreqTable} (h : 2 ^ 32 ≤ total ft) :
    buildNodes ft = .error .capacityError := by
  rw [buildNodes, if_pos (by simpa [Config.freqBound] using h)]

/-- The total passes the check after FREQ: it is SYMLEN (R121, R137). -/
theorem total_lt_of_exec_freq {s t : State} (h : exec .freq s = .next t) : total t.ft < 2 ^ 32 := by
  rw [exec_freq_eq_next] at h
  cases h
  rw [commitFreq_ft, total_tally _ (window_length_lt s .sym)]
  exact window_length_lt s .sym

/-- Where the total fits, BUILD commits the records of a forest grown from the table's seeds, of none
for the empty table (R130). -/
theorem buildNodes_grown {ft : FreqTable} (h : total ft < 2 ^ 32) :
    ∃ f, buildNodes ft = .ok f.nodes ∧ Grown ft f ∧ f.nodes.length ≤ 511 := by
  by_cases hkeys : presentSymbols ft = []
  · have noSeed : (seed ft).nodes = [] := by simp [seed, hkeys]
    exact ⟨seed ft, by rw [buildNodes_empty hkeys, noSeed], grown_seed ft, by simp [noSeed]⟩
  · obtain ⟨f, q, hf, grown, -, hlen, -, -⟩ := buildNodes_spec h hkeys
    have := presentSymbols_length_le ft
    exact ⟨f, hf, grown, by omega⟩

/-! The kinds of a grown forest's records -/

namespace Grown

variable {ft : FreqTable} {f : Forest} {k : Nat}

/-- The seeds are Leaves, so every Internal record comes after them (R132). -/
theorem index_of_isInternal (h : Grown ft f) (hn : f.nodes.length ≤ 511)
    (hk : (slot (storeOf f.nodes) k).isInternal = true) :
    (presentSymbols ft).length ≤ k ∧ k < f.nodes.length := by
  refine ⟨not_lt.1 fun hseed => ?_, not_le.1 fun hfree => ?_⟩
  · rw [h.seeds k _ (List.getElem?_eq_getElem hseed)] at hk
    cases hk
  · rw [slot_storeOf_free hn hfree] at hk
    cases hk

/-- The rounds make Internal records only, so every Leaf is a seed (R132, R133). -/
theorem index_lt_of_isLeaf (h : Grown ft f) (hn : f.nodes.length ≤ 511)
    (hk : (slot (storeOf f.nodes) k).isLeaf = true) : k < (presentSymbols ft).length := by
  by_contra hseed
  rcases lt_or_ge k f.nodes.length with hlt | hfree
  · have ⟨inner, _, _⟩ := h.inner k hlt (not_lt.1 hseed)
    rw [Node.not_internal_of_leaf hk] at inner
    cases inner
  · rw [slot_storeOf_free hn hfree] at hk
    cases hk

/-- An Internal record's frequency is the exact sum of its children's, and its children were the two
least in Q (R131, R133, R137). -/
theorem sum_and_leastPair_of_isInternal (h : Grown ft f) (hn : f.nodes.length ≤ 511)
    (hk : (slot (storeOf f.nodes) k).isInternal = true) :
    (slot (storeOf f.nodes) k).freq.toNat =
      (nodeAt (storeOf f.nodes) (slot (storeOf f.nodes) k).left).freq.toNat +
        (nodeAt (storeOf f.nodes) (slot (storeOf f.nodes) k).right).freq.toNat ∧
    LeastPair (storeOf f.nodes) k :=
  have ⟨hseed, hlt⟩ := h.index_of_isInternal hn hk
  (h.inner k hlt hseed).2

end Grown

/-! The obligations -/

/-- Settles O11: the check is BUILD's only error, and every sum below it fits 32 bits. -/
theorem buildChecksTotalFrequency : Obligations.BuildChecksTotalFrequency := by
  refine ⟨fun s exceeds => ?above, fun s fits => ?below, fun s t u hfreq hbuild => ?afterFreq⟩
  case above =>
    rw [exec_build, buildNodes_of_total_ge exceeds, conclude_error]
    rfl
  case below =>
    obtain ⟨f, hf, grown, hn⟩ := buildNodes_grown fits
    exact ⟨_, exec_build_of_buildNodes hf, rfl,
      fun k hk => (grown.sum_and_leastPair_of_isInternal hn hk).1⟩
  case afterFreq =>
    obtain ⟨f, hf, -, -⟩ := buildNodes_grown (total_lt_of_exec_freq hfreq)
    rw [exec_build_of_buildNodes hf] at hbuild
    cases hbuild
    rfl

/-- Settles O13: the only seed is the Leaf of the only key, and no round follows. -/
theorem buildOfOneSymbolIsLoneLeaf : Obligations.BuildOfOneSymbolIsLoneLeaf := by
  intro s x only
  have keys : presentSymbols s.ft = [x] :=
    presentSymbols_of_lists ⟨List.pairwise_singleton _ x, fun y => by rw [List.mem_singleton, only]⟩
  have fits : total s.ft < 2 ^ 32 := by
    rw [← total_eq, keys]
    simpa using (countOf s.ft x).isLt
  obtain ⟨f, q, hf, grown, -, hlen, -, -⟩ := buildNodes_spec fits (by simp [keys])
  replace hlen : f.nodes.length = 1 := by simpa [keys] using hlen
  refine ⟨_, exec_build_of_buildNodes hf, grown.seeds 0 x (by simp [keys]),
    fun k _ hk => slot_storeOf_free (by omega) (by omega), ?root, ?nnodes, commitTree_frame _ s⟩
  case root => rw [commitTree_root_of_pos (by omega), hlen]; rfl
  case nnodes => rw [commitTree_nnodes, hlen]; rfl

/-- Settles O14: the seeds are the keys in order, and the rounds make no Leaf. -/
theorem buildSeedsLeavesInSymbolOrder : Obligations.BuildSeedsLeavesInSymbolOrder := by
  intro s xs lists fits
  obtain ⟨f, hf, grown, hn⟩ := buildNodes_grown fits
  have keys := presentSymbols_of_lists lists
  exact ⟨_, exec_build_of_buildNodes hf, fun k x hx => grown.seeds k x (keys ▸ hx),
    fun k hk => keys ▸ grown.index_lt_of_isLeaf hn hk⟩

/-- Settles O15: every round of a grown forest merges the two least records of Q. -/
theorem buildMergesTheTwoLeast : Obligations.BuildMergesTheTwoLeast := by
  intro s t h hok k hk
  obtain ⟨ns, hns, rfl⟩ := exec_build_ok h hok
  obtain ⟨f, hf, grown, hn⟩ := buildNodes_grown (total_lt_of_buildNodes hns)
  obtain rfl : f.nodes = ns := by simpa [hf] using hns
  exact (grown.sum_and_leastPair_of_isInternal hn hk).2

/-- Settles O16: the forest left with one key is a proper tree, and that key is its root's. -/
theorem buildMakesProperTree : Obligations.BuildMakesProperTree := by
  intro s xs lists two fits
  have keys := presentSymbols_of_lists lists
  obtain ⟨f, q, hf, grown, hq, hlen, hidx, hfreq⟩ := buildNodes_spec fits (by
    rw [keys]; exact List.ne_nil_of_length_pos (by omega))
  have hL := presentSymbols_length_le s.ft
  have proper := grown.properTree (by simp [hq]) (keys ▸ two)
  rw [keys] at hlen hL proper
  refine ⟨_, exec_build_of_buildNodes hf, ?proper, ?total, fun j k hj hk hjk => ?rising,
    commitTree_frame _ s⟩
  case proper => rwa [commitTree_root_of_pos (by omega)]
  case total =>
    have root : (commitTree f.nodes s).root.toNat = q.idx := by
      rw [commitTree_root_of_pos (by omega), hidx, BitVec.toNat_ofNat]
      omega
    rw [nodeAt, root, commitTree_tree_eq_storeOf, ← (grown.keys q (by simp [hq])).2, hfreq]
    rfl
  case rising =>
    have hn : f.nodes.length ≤ 511 := by omega
    have ⟨seeded, _⟩ := grown.index_of_isInternal hn hj
    have ⟨_, made⟩ := grown.index_of_isInternal hn hk
    exact grown.rising j k seeded hjk made

/-- Settles O12: the empty table has no seed. -/
theorem buildOfEmptyTableIsNoTree : Obligations.BuildOfEmptyTableIsNoTree := by
  intro s empty
  have keys : presentSymbols s.ft = [] :=
    List.eq_nil_iff_forall_not_mem.2 fun x hx => (mem_presentSymbols s.ft x).1 hx (empty x)
  exact ⟨_, exec_build_of_buildNodes (buildNodes_empty keys),
    ⟨rfl, rfl, fun k _ => slot_storeOf_free (by simp) (Nat.zero_le k)⟩, commitTree_frame _ s⟩

end Sys2Proof.Machine
end

section
/-! R150 to R156, the code generator: GEN's table for each shape of the tree, the paths that an infinite
bit sequence takes in a proper tree, and the weighted length of the codes. -/

namespace Sys2Proof.Machine

open Sys2Proof

/-! What GEN commits -/

theorem exec_gen_eq_next (s : State) :
    exec .gen s = .next (commitCodes (genCodes s.tree s.root) s) := by
  rw [exec_gen, conclude_ok]

theorem ct_of_exec_gen {s t : State} (h : exec .gen s = .next t) : t.ct = genCodes s.tree s.root := by
  rw [exec_gen_eq_next] at h
  cases h
  exact commitCodes_ct _ s

/-- The commit of a code table leaves STATUS 0 and changes nothing but CT and STATUS (R93, R150). -/
theorem commitCodes_frame (u : CodeTable) (s : State) :
    (commitCodes u s).status.word = 0 ∧
      commitCodes u s = { s with ct := (commitCodes u s).ct, status := (commitCodes u s).status } :=
  ⟨by rw [commitCodes_status]; decide, rfl⟩

section

variable {t : TreeStore} {root : NodeIdx} {nnodes : BitVec 9} {leaves : Nat}

/-! The present symbols, for each shape of R34 (R156 (a)) -/

theorem genCodes_nil (t : TreeStore) : genCodes t Config.nil = emptyCodes := if_pos rfl

theorem genCodes_loneLeaf (h : LoneLeaf t root nnodes) :
    genCodes t root = setCode emptyCodes (slot t 0).sym [false] := by
  obtain ⟨rfl, -, leaf, -, -⟩ := h
  rw [genCodes, if_neg (by decide), show nodeAt t 0 = slot t 0 from rfl, Node.eq_leaf leaf]
  rfl

theorem codeOf_genCodes_loneLeaf (h : LoneLeaf t root nnodes) (x : Symbol) :
    codeOf (genCodes t root) x = if x = (slot t 0).sym then [false] else [] := by
  rw [genCodes_loneLeaf h, codeOf_setCode, codeOf_emptyCodes]

/-- A symbol has a code exactly when a Leaf of the tree holds it, whichever shape the tree has. -/
theorem codeOf_genCodes_ne_nil_iff (h : TreeShape t root nnodes) (x : Symbol) :
    codeOf (genCodes t root) x ≠ [] ↔ ∃ k < 511, (slot t k).isLeaf = true ∧ (slot t k).sym = x := by
  rcases h with ⟨rfl, -, free⟩ | lone | proper
  case inl =>
    rw [genCodes_nil, codeOf_emptyCodes]
    refine iff_of_false (fun h => h rfl) ?_
    rintro ⟨k, hk, leaf, -⟩
    rw [free k hk] at leaf
    cases leaf
  case inr.inl =>
    have ⟨_, _, leaf, _, free⟩ := lone
    have only : ∀ k < 511, (slot t k).isLeaf = true → k = 0 := by
      intro k hk hleaf
      by_contra hne
      rw [free k hk (Nat.pos_of_ne_zero hne)] at hleaf
      cases hleaf
    rw [codeOf_genCodes_loneLeaf lone]
    constructor
    · intro hx
      exact ⟨0, by decide, leaf, by by_contra hne; exact hx (if_neg (Ne.symm hne))⟩
    · rintro ⟨k, hk, hleaf, rfl⟩
      simp [only k hk hleaf]
  case inr.inr =>
    have := proper.le_256
    simp only [codeOf_genCodes_present proper, proper.leaf_iff]
    exact ⟨fun ⟨k, hk, hx⟩ => ⟨k, by omega, hk, hx⟩, fun ⟨k, _, hk, hx⟩ => ⟨k, hk, hx⟩⟩

/-! The code of a path (R151) -/

theorem LeafPath.of_isLeaf {c : Code} {m : NodeIdx} (path : PathTo t root c m)
    (leaf : (nodeAt t m).isLeaf = true) : LeafPath t root (nodeAt t m).sym c :=
  ⟨m, _, path, Node.eq_leaf leaf⟩

theorem LeafPath.codeOf_genCodes (h : ProperTree t root nnodes leaves) {x : Symbol} {c : Code}
    (path : LeafPath t root x c) : codeOf (genCodes t root) x = c :=
  (codeOf_genCodes_iff h x c (path.ne_nil h)).2 path

/-! The path that an infinite bit sequence takes (R156 (d)) -/

/-- The infinite bit sequence `bits` begins with the bits of `p`. -/
def BeginsWith (bits : Nat → Bool) (p : Code) : Prop := ∀ i < p.length, p[i]? = some (bits i)

theorem beginsWith_nil (bits : Nat → Bool) : BeginsWith bits [] := fun _ h => absurd h (Nat.not_lt_zero _)

theorem BeginsWith.cons {bits : Nat → Bool} {c : Code} (h : BeginsWith (fun i => bits (i + 1)) c) :
    BeginsWith bits (bits 0 :: c)
  | 0, _ => rfl
  | i + 1, hi => h i (Nat.lt_of_succ_lt_succ hi)

/-- Of two beginnings of one sequence, the shorter begins the longer. -/
theorem BeginsWith.isPrefix {bits : Nat → Bool} {c d : Code} (hc : BeginsWith bits c)
    (hd : BeginsWith bits d) (hcd : c.length ≤ d.length) : c <+: d :=
  List.prefix_iff_getElem?.2 fun i hi => by
    rw [hd i (by omega), ← hc i hi, List.getElem?_eq_getElem hi]

theorem PathTo.child {k m : NodeIdx} {c : Code} (v : Bool) (inner : (nodeAt t k).isInternal = true)
    (rest : PathTo t (if v then (nodeAt t k).right else (nodeAt t k).left) c m) :
    PathTo t k (v :: c) m := by
  cases v with
  | false => exact .left inner rest
  | true => exact .right inner rest

/-- Every bit sequence leads from a used record down to a Leaf, because both children of every Internal
record are used records of lower index (R34). -/
theorem ProperTree.exists_path_along (h : ProperTree t root nnodes leaves) (bits : Nat → Bool)
    (k : NodeIdx) (hk : k.toNat < 2 * leaves - 1) :
    ∃ c m, BeginsWith bits c ∧ PathTo t k c m ∧ (nodeAt t m).isLeaf = true := by
  induction hn : k.toNat using Nat.strong_induction_on generalizing k bits with
  | _ n ih =>
    subst hn
    by_cases hleaf : k.toNat < leaves
    · exact ⟨[], k, beginsWith_nil bits, .here k, h.leaf hleaf⟩
    · obtain ⟨inner, hl, hr, -, -⟩ := h.inner (not_lt.1 hleaf) hk
      rw [← nodeAt_eq_slot] at inner hl hr
      have lower : (if bits 0 then (nodeAt t k).right else (nodeAt t k).left).toNat < k.toNat := by
        split
        · exact hr
        · exact hl
      obtain ⟨c, m, begins, path, leaf⟩ := ih _ lower (fun i => bits (i + 1)) _ (by omega) rfl
      exact ⟨bits 0 :: c, m, begins.cons, path.child _ inner, leaf⟩

/-- Every bit sequence begins with a code (R156 (d)). -/
theorem exists_beginsWith_codeOf (h : ProperTree t root nnodes leaves) (bits : Nat → Bool) :
    ∃ x, codeOf (genCodes t root) x ≠ [] ∧ BeginsWith bits (codeOf (genCodes t root) x) := by
  have := h.two_le
  obtain ⟨c, m, begins, path, leaf⟩ := h.exists_path_along bits root (by rw [h.root_eq]; omega)
  have leafPath := LeafPath.of_isLeaf path leaf
  refine ⟨(nodeAt t m).sym, ?_⟩
  rw [leafPath.codeOf_genCodes h]
  exact ⟨leafPath.ne_nil h, begins⟩

/-- No bit sequence begins with the codes of two symbols, in any table of R36. -/
theorem CodesHold.eq_of_beginsWith {ct : CodeTable} (h : CodesHold ct) {bits : Nat → Bool}
    {x y : Symbol} (hx : codeOf ct x ≠ []) (hy : codeOf ct y ≠ [])
    (beginsX : BeginsWith bits (codeOf ct x)) (beginsY : BeginsWith bits (codeOf ct y)) : x = y := by
  by_contra hne
  rcases Nat.le_total (codeOf ct x).length (codeOf ct y).length with hle | hle
  · exact h.prefixFree x y hne hx (beginsX.isPrefix beginsY hle)
  · exact h.prefixFree y x (Ne.symm hne) hy (beginsY.isPrefix beginsX hle)

/-! The weighted length of the codes (R156 (f)) -/

/-- The frequency of a Leaf, and 0 for any other record. -/
def Node.leafFreq (n : Node) : Nat := if n.isLeaf then n.freq.toNat else 0

/-- The frequency of an Internal record, and 0 for any other record. -/
def Node.innerFreq (n : Node) : Nat := if n.isInternal then n.freq.toNat else 0

theorem internalSum_eq (t : TreeStore) :
    internalSum t = ((List.range 511).map fun k => (slot t k).innerFreq).sum := rfl

theorem Node.innerFreq_of_leaf {n : Node} (h : n.isLeaf = true) : n.innerFreq = 0 := by
  simp [innerFreq, Node.not_internal_of_leaf h]

theorem Node.leafFreq_of_internal {n : Node} (h : n.isInternal = true) : n.leafFreq = 0 := by
  cases n <;> simp_all [leafFreq, Node.isLeaf, Node.isInternal]

/-- Below a record at depth `p`, the Leaves' frequencies weighted by their depths add up to `p` times
the record's own frequency and the Internal frequencies: each Internal record's frequency is the sum of
its children's, so it counts every Leaf below it once. -/
theorem sum_leaf_depths (h : ProperTree t root nnodes leaves) (fuel : Nat) (k : NodeIdx)
    (hf : k.toNat < fuel) (hk : k.toNat < 2 * leaves - 1) (p : Nat) :
    ((subtree t fuel k).map fun e => (nodeAt t e.2).leafFreq * (e.1.length + p)).sum =
      p * (nodeAt t k).freq.toNat + ((subtree t fuel k).map fun e => (nodeAt t e.2).innerFreq).sum := by
  induction fuel generalizing k p with
  | zero => omega
  | succ fuel ih =>
    by_cases hleaf : k.toNat < leaves
    · have leaf : (nodeAt t k).isLeaf = true := h.leaf hleaf
      simp [subtree, Node.not_internal_of_leaf leaf, Node.innerFreq_of_leaf leaf, Node.leafFreq, leaf,
        Nat.mul_comm]
    · obtain ⟨inner, hl, hr, -, sum⟩ := h.inner (not_lt.1 hleaf) hk
      rw [← nodeAt_eq_slot] at inner hl hr sum
      have left := ih (nodeAt t k).left (by omega) (by omega) (p + 1)
      have right := ih (nodeAt t k).right (by omega) (by omega) (p + 1)
      have own : (nodeAt t k).innerFreq = (nodeAt t k).freq.toNat := if_pos inner
      have deeper : ∀ n, n + 1 + p = n + (p + 1) := fun n => by omega
      simp only [subtree, inner, if_true, List.map_cons, List.map_append, List.map_map,
        Function.comp_def, List.sum_cons, List.sum_append, List.length_cons,
        Node.leafFreq_of_internal inner, own, deeper, left, right, sum]
      ring

/-- The records below the root are the used records, each once (R34). -/
theorem subtree_root_perm (h : ProperTree t root nnodes leaves) :
    ((subtree t 512 root).map fun e => e.2.toNat).Perm (List.range (2 * leaves - 1)) := by
  have two := h.two_le
  have le := h.le_256
  have rootEq := h.root_eq
  have mem := mem_subtree h 512 root root.isLt
  refine (List.perm_ext_iff_of_nodup ?nodup List.nodup_range).2 fun j => ?sameMembers
  case nodup =>
    refine List.Nodup.map_on ?_ (List.Nodup.of_map _ (subtree_nodup t 512 root))
    rintro ⟨c, m⟩ hc ⟨d, n⟩ hd hmn
    obtain rfl : m = n := BitVec.eq_of_toNat_eq hmn
    rw [((mem c m).1 hc).unique_path h ((mem d m).1 hd)]
  case sameMembers =>
    rw [List.mem_map, List.mem_range]
    constructor
    · rintro ⟨⟨c, m⟩, hc, rfl⟩
      have ⟨below, _⟩ := ((mem c m).1 hc).index_le h (by omega)
      show m.toNat < _
      omega
    · intro hj
      have toNat : (BitVec.ofNat 9 j).toNat = j := Nat.mod_eq_of_lt (by omega)
      obtain ⟨c, hc⟩ := h.reached (BitVec.ofNat 9 j) (by omega)
      exact ⟨(c, _), (mem c _).2 hc, toNat⟩

/-- A sum over the records below the root, taken by slot. -/
theorem sum_subtree_root (h : ProperTree t root nnodes leaves) (g : Nat → Nat) :
    ((subtree t 512 root).map fun e => g e.2.toNat).sum =
      ((List.range (2 * leaves - 1)).map g).sum := by
  simpa only [List.map_map, Function.comp_def] using ((subtree_root_perm h).map g).sum_eq

theorem sum_range_eq_of_zero {g : Nat → Nat} {m n : Nat} (hmn : m ≤ n)
    (zero : ∀ k, m ≤ k → k < n → g k = 0) :
    ((List.range n).map g).sum = ((List.range m).map g).sum := by
  obtain ⟨d, rfl⟩ := Nat.exists_eq_add_of_le hmn
  rw [List.range_add, List.map_append, List.sum_append, List.map_map, Nat.add_eq_left]
  refine List.sum_eq_zero fun v hv => ?_
  obtain ⟨i, hi, rfl⟩ := List.mem_map.1 hv
  exact zero (m + i) (by omega) (by have := List.mem_range.1 hi; omega)

/-- The Leaves' frequencies weighted by the lengths of their codes add up to the Internal frequencies. -/
theorem sum_leaf_codes (h : ProperTree t root nnodes leaves) :
    ((List.range leaves).map fun k =>
      (slot t k).freq.toNat * (codeOf (genCodes t root) (slot t k).sym).length).sum =
      internalSum t := by
  have two := h.two_le
  have le := h.le_256
  have rootEq := h.root_eq
  have depth : ∀ e ∈ subtree t 512 root, (slot t e.2.toNat).leafFreq *
      (codeOf (genCodes t root) (slot t e.2.toNat).sym).length =
      (nodeAt t e.2).leafFreq * (e.1.length + 0) := by
    rintro ⟨c, m⟩ hc
    have path := (mem_subtree h 512 root root.isLt c m).1 hc
    cases leaf : (nodeAt t m).isLeaf with
    | false => simp [Node.leafFreq, ← nodeAt_eq_slot, leaf]
    | true => rw [← nodeAt_eq_slot, (LeafPath.of_isLeaf path leaf).codeOf_genCodes h, Nat.add_zero]
  calc ((List.range leaves).map fun k =>
        (slot t k).freq.toNat * (codeOf (genCodes t root) (slot t k).sym).length).sum
    _ = ((List.range leaves).map fun k =>
          (slot t k).leafFreq * (codeOf (genCodes t root) (slot t k).sym).length).sum := by
        refine congrArg List.sum (List.map_congr_left fun k hk => ?_)
        rw [Node.leafFreq, if_pos (h.leaf (List.mem_range.1 hk))]
    _ = ((List.range (2 * leaves - 1)).map fun k =>
          (slot t k).leafFreq * (codeOf (genCodes t root) (slot t k).sym).length).sum := by
        refine (sum_range_eq_of_zero (by omega) fun k hk hlt => ?_).symm
        rw [Node.leafFreq_of_internal (h.inner hk hlt).1, Nat.zero_mul]
    _ = ((subtree t 512 root).map fun e => (nodeAt t e.2).leafFreq * (e.1.length + 0)).sum := by
        rw [← sum_subtree_root h, List.map_congr_left depth]
    _ = ((subtree t 512 root).map fun e => (nodeAt t e.2).innerFreq).sum := by
        rw [sum_leaf_depths h 512 root root.isLt (by omega) 0, Nat.zero_mul, Nat.zero_add]
    _ = ((List.range (2 * leaves - 1)).map fun k => (slot t k).innerFreq).sum :=
        sum_subtree_root h fun k => (slot t k).innerFreq
    _ = internalSum t := by
        rw [internalSum_eq]
        refine (sum_range_eq_of_zero (by omega) fun k hk _ => ?_).symm
        rw [h.free hk]
        rfl

end

/-- A sum weighted by the counts is over the keys alone (R32). -/
theorem sum_keys {ft : FreqTable} {xs : List Symbol} (lists : ListsKeys ft xs) (w : Symbol → Nat) :
    (allSymbols.map fun x => (countOf ft x).toNat * w x).sum =
      (xs.map fun x => (countOf ft x).toNat * w x).sum := by
  rw [← presentSymbols_of_lists lists, presentSymbols,
    ← List.sum_map_filter_add_sum_map_filter_not (fun x => countOf ft x ≠ 0), Nat.add_eq_left]
  refine List.sum_eq_zero fun v hv => ?_
  obtain ⟨x, hx, rfl⟩ := List.mem_map.1 hv
  have absent : countOf ft x = 0 := by simpa using (List.mem_filter.1 hx).2
  simp [absent]

/-! The obligations -/

/-- Settles O17: GEN binds every Leaf to its one path from the root. -/
theorem genCodesAreTreePaths : Obligations.GenCodesAreTreePaths := fun s _ proper =>
  ⟨_, exec_gen_eq_next s, codeOf_genCodes_iff proper, commitCodes_frame _ s⟩

/-- Settles O18: GEN's table for the two shapes in which no Leaf has a path to name it by. -/
theorem genOfLoneLeafAndOfNoTree : Obligations.GenOfLoneLeafAndOfNoTree := by
  refine ⟨fun s lone => ?lone, fun s noTree => ?noTree⟩
  case lone =>
    exact ⟨_, exec_gen_eq_next s, codeOf_genCodes_loneLeaf lone, commitCodes_frame _ s⟩
  case noTree =>
    refine ⟨_, exec_gen_eq_next s, fun x => ?_, commitCodes_frame _ s⟩
    rw [commitCodes_ct, noTree, genCodes_nil, codeOf_emptyCodes]

/-- Settles O19: parts (a) and (c) of R156 hold for each shape of the tree, (b) for a proper one. -/
theorem genCodesArePrefixFree : Obligations.GenCodesArePrefixFree := by
  intro s t shape h
  rw [ct_of_exec_gen h]
  exact ⟨codesHold_genCodes shape, codeOf_genCodes_ne_nil_iff shape,
    fun _ proper => codeOf_genCodes_length proper⟩

/-- Settles O20: the path along the sequence ends at a Leaf, and no code begins another's. -/
theorem genCodesAreComplete : Obligations.GenCodesAreComplete := by
  intro s t leaves proper h bits
  rw [ct_of_exec_gen h]
  obtain ⟨x, present, begins⟩ := exists_beginsWith_codeOf proper bits
  exact ⟨x, ⟨present, begins⟩, fun y ⟨presentY, beginsY⟩ =>
    (codesHold_genCodes_proper proper).eq_of_beginsWith presentY present beginsY begins⟩

/-- Settles O21: the keys are the Leaves' symbols in slot order, and the Leaves' weighted depths add up
to the Internal frequencies. -/
theorem weightedLengthIsInternalSum : Obligations.WeightedLengthIsInternalSum := by
  intro s t u xs lists two hbuild hok hgen
  obtain ⟨ns, hns, -⟩ := exec_build_ok hbuild hok
  have fits := total_lt_of_buildNodes hns
  obtain ⟨_, hbuild₁, proper, -⟩ := buildMakesProperTree s xs lists two fits
  obtain rfl := Host.Outcome.next.inj (hbuild.symm.trans hbuild₁)
  obtain ⟨_, hbuild₂, seeds, -⟩ := buildSeedsLeavesInSymbolOrder s xs lists fits
  obtain rfl := Host.Outcome.next.inj (hbuild.symm.trans hbuild₂)
  obtain ⟨htree, -, -⟩ := exec_keeps_tree hgen (by decide)
  rw [exec_keeps_ft hgen (by decide), exec_keeps_ft hbuild (by decide), htree, ct_of_exec_gen hgen,
    sum_keys lists, ← sum_leaf_codes proper]
  refine congrArg List.sum (List.ext_getElem (by simp) fun k hk _ => ?_)
  have leaf := seeds k _ (List.getElem?_eq_getElem (by simpa using hk))
  simp [leaf, Node.freq, Node.sym]

end Sys2Proof.Machine
end

section
/-! R160 to R165, the encoder: ENC appends the codes of its input until a symbol has none or its code
does not fit. -/

namespace Sys2Proof.Machine

open Sys2Proof

/-! The outcomes of ENC's loop -/

section

variable {t : CodeTable} {cap : Nat} {pre post xs : List Symbol} {x : Symbol} {out : Code}

/-- ENC's loop reaches the symbols after those whose codes it could append (R160). -/
theorem encLoop_skip (coded : ∀ y ∈ pre, codeOf t y ≠ []) (fits : (codesOf t pre).length ≤ cap) :
    encLoop t cap (pre ++ post) [] = encLoop t cap post (codesOf t pre) := by
  simpa using encLoop_append t cap pre post [] coded (by simpa using fits)

/-- ENC's loop answers the concatenated codes when every symbol has one and they fit (R160). -/
theorem encLoop_eq_ok (coded : ∀ y ∈ xs, codeOf t y ≠ []) (fits : (codesOf t xs).length ≤ cap) :
    encLoop t cap xs [] = .ok (codesOf t xs) := by
  simpa [encLoop] using encLoop_skip (post := []) coded fits

/-- The unknown-symbol test comes first, whatever the output so far (R161, R231). -/
theorem encLoop_cons_of_absent (absent : codeOf t x = []) :
    encLoop t cap (x :: xs) out = .error .unknownSymbolError := by
  simp [encLoop, absent]

/-- A code that does not fit ends the loop, whatever follows (R162). -/
theorem encLoop_cons_of_overflow (coded : codeOf t x ≠ [])
    (long : cap < out.length + (codeOf t x).length) :
    encLoop t cap (x :: xs) out = .error .capacityError := by
  simp [encLoop, coded, long]

/-- An output with room for all the codes never overflows: each symbol takes its own share (R162). -/
theorem encLoop_ne_capacityError (fits : out.length + (codesOf t xs).length ≤ cap) :
    encLoop t cap xs out ≠ .error .capacityError := by
  induction xs generalizing out with
  | nil => simp [encLoop]
  | cons x xs ih =>
    rw [codesOf_cons, List.length_append, ← Nat.add_assoc] at fits
    by_cases absent : codeOf t x = []
    · simp [encLoop_cons_of_absent absent]
    · have room : ¬ out.length + (codeOf t x).length > cap := by omega
      rw [encLoop, if_neg (by simpa using absent), if_neg room]
      exact ih (by simpa using fits)

/-- Codes of at most 255 bits bound the length of an encoding (R36, R162). -/
theorem codesOf_length_le (h : CodesHold t) (xs : List Symbol) :
    (codesOf t xs).length ≤ 255 * xs.length := by
  induction xs with
  | nil => simp
  | cons x xs ih =>
    have := h.short x
    simp only [codesOf_cons, List.length_append, List.length_cons]
    omega

end

/-! ENC -/

section

variable {s t : State}

/-- The state after an ENC that encodes its whole input. -/
def encoded (s : State) : State := commitBuffer .bit ((codesOf s.ct (s.window .sym)).map bitByte) s

theorem exec_enc_eq_encoded (coded : ∀ x ∈ s.window .sym, codeOf s.ct x ≠ [])
    (fits : (codesOf s.ct (s.window .sym)).length ≤ s.params.bitCap) :
    exec .enc s = .next (encoded s) := by
  rw [exec_enc, encLoop_eq_ok coded fits, conclude_ok, encoded]

/-- ENC answers ERR = OK only when it has encoded its whole input, within BIT_CAP (R161, R162). -/
theorem exec_enc_ok (h : exec .enc s = .next t) (hok : t.status.err = .ok) :
    (codesOf s.ct (s.window .sym)).length ≤ s.params.bitCap ∧ t = encoded s := by
  rw [exec_enc] at h
  rcases conclude_next h with ⟨e, he, rfl⟩ | ⟨out, hout, rfl⟩
  · obtain rfl : e = .ok := hok
    exact absurd he (encLoop_ne_error_ok _ _ _ _)
  · obtain ⟨-, hcodes, hcap⟩ := encLoop_ok hout
    obtain rfl : out = codesOf s.ct (s.window .sym) := by simpa using hcodes
    exact ⟨hcap (Nat.zero_le _), rfl⟩

/-- An error of the loop becomes that of ENC, and nothing but STATUS changes (R161, R162, R232). -/
theorem exec_enc_of_error {e : Err} (h : encLoop s.ct s.params.bitCap (s.window .sym) [] = .error e) :
    exec .enc s = .next { s with status := { err := e, warnEmpty := false } } := by
  rw [exec_enc, h, conclude_error, raise, Status.failure]

variable (wf : s.params.wf = true) (fits : (codesOf s.ct (s.window .sym)).length ≤ s.params.bitCap)
include wf fits

/-- An encoding within BIT_CAP has a length that BITLEN can hold (R5). -/
theorem encoded_length_lt : ((codesOf s.ct (s.window .sym)).map bitByte).length < 2 ^ 32 := by
  rw [List.length_map]
  exact fits.trans_lt (cap_lt_of_wf wf .bit)

theorem encoded_bitlen : (encoded s).bitlen.toNat = (codesOf s.ct (s.window .sym)).length := by
  have short := encoded_length_lt wf fits
  rw [encoded, commitBuffer_bit_bitlen, BitVec.toNat_ofNat, Nat.mod_eq_of_lt short, List.length_map]

theorem encoded_window :
    (encoded s).window .bit = (codesOf s.ct (s.window .sym)).map bitByte :=
  commitBuffer_window .bit _ s (encoded_length_lt wf fits)

end

/-- What a successful ENC leaves in BIT depends on the symbols and the table alone (R160, R164). -/
theorem window_of_exec_enc {s t : State} (wf : s.params.wf = true) (h : exec .enc s = .next t)
    (hok : t.status.err = .ok) : t.window .bit = (codesOf s.ct (s.window .sym)).map bitByte := by
  obtain ⟨fits, rfl⟩ := exec_enc_ok h hok
  exact encoded_window wf fits

/-! The obligations -/

/-- Settles O22: ENC commits the concatenated codes, whose length fits BITLEN. -/
theorem encConcatenatesCodes : Obligations.EncConcatenatesCodes := by
  intro s wf coded fits
  have h := exec_enc_eq_encoded coded fits
  refine ⟨encoded s, h, ?_, encoded_window wf fits, fun a ha => ?_, ?_,
    exec_eq_of_outputBuffer h rfl⟩
  · rw [encoded_bitlen wf fits, codesOf_length]
  · exact exec_keeps_readBuf_outside_output wf h rfl .bit a
      fun ⟨_, _, inside⟩ => Nat.not_lt.2 ha inside
  · rw [encoded, commitBuffer_status]
    decide

/-- Settles O23: the symbols before the failing one are passed over, and the invariants leave room in
BIT for every symbol of the window. -/
theorem encReportsFirstError : Obligations.EncReportsFirstError := by
  refine ⟨fun s pre post x window coded fits => ?first, fun s t ranges codes large h => ?noOverflow⟩
  case first =>
    refine ⟨fun absent => exec_enc_of_error ?_, fun present long => exec_enc_of_error ?_⟩
    · rw [window, encLoop_skip coded fits, encLoop_cons_of_absent absent]
    · rw [window, encLoop_skip coded fits, encLoop_cons_of_overflow present]
      simpa [codesOf_append] using long
  case noOverflow =>
    have symbols : (s.window .sym).length ≤ s.params.symCap := by
      rw [window_length]
      exact ranges.lens .sym
    have room : (codesOf s.ct (s.window .sym)).length ≤ s.params.bitCap := calc
      _ ≤ 255 * (s.window .sym).length := codesOf_length_le codes _
      _ ≤ 255 * s.params.symCap := Nat.mul_le_mul_left 255 symbols
      _ ≤ s.params.bitCap := large
    rw [exec_enc] at h
    rcases conclude_next h with ⟨e, he, rfl⟩ | ⟨out, -, rfl⟩
    · rintro rfl
      exact encLoop_ne_capacityError (by simpa using room) he
    · rw [commitBuffer_status]
      exact nofun

/-- Settles O25: what ENC leaves in BIT is the image of its symbols one by one. -/
theorem encOfConcatenatedInput : Obligations.EncOfConcatenatedInput := by
  intro a b c a' b' c' wfa wfb wfc hb hc window ha' hb' hc' oka okb okc
  rw [window_of_exec_enc wfa ha' oka, window_of_exec_enc wfb hb' okb, window_of_exec_enc wfc hc' okc,
    hb, hc, window, codesOf_append, List.map_append]

/-- Settles O24: an empty window asks nothing of the table, and ENC commits no byte. -/
theorem encOfEmptyInput : Obligations.EncOfEmptyInput := by
  intro s empty
  rw [exec_enc, window_eq_nil (b := .sym) empty]
  rfl

end Sys2Proof.Machine
end

section
/-! R170 to R181, the loops of the two decoders: what either does with one byte and with one whole code,
and how the two go together on a proper tree. -/

namespace Sys2Proof.Machine

open Sys2Proof

/-! Symbols emitted one after the other (R181) -/

section

variable {cap : Nat} {xs out : List Symbol} (k : List Symbol → Except Err (List Symbol))

/-- Symbols within SYM_CAP are all emitted, and the decoder goes on. -/
theorem foldlM_emit_of_fits (fits : out.length + xs.length ≤ cap) :
    xs.foldlM (emit cap) out >>= k = k (out ++ xs) := by
  induction xs generalizing out with
  | nil => rw [List.append_nil]; rfl
  | cons x xs ih =>
    rw [List.length_cons] at fits
    rw [List.foldlM_cons, emit_eq, if_neg (by omega)]
    calc xs.foldlM (emit cap) (out ++ [x]) >>= k
      _ = k (out ++ [x] ++ xs) := ih (by rw [List.length_append, List.length_singleton]; omega)
      _ = k (out ++ x :: xs) := by rw [List.append_assoc, List.singleton_append]

/-- The symbol after number SYM_CAP raises CapacityError, however the decoder would go on. -/
theorem foldlM_emit_of_overflow (room : out.length ≤ cap) (long : cap < out.length + xs.length) :
    xs.foldlM (emit cap) out >>= k = .error .capacityError := by
  induction xs generalizing out with
  | nil => exact absurd long (Nat.not_lt.2 room)
  | cons x xs ih =>
    rw [List.length_cons] at long
    rw [List.foldlM_cons, emit_eq]
    by_cases full : out.length = cap
    · rw [if_pos full]
      rfl
    · rw [if_neg full]
      exact ih (out := out ++ [x]) (by simp; omega) (by simp; omega)

end

/-! One byte, in either decoder -/

/-- A decoder's loop: the bytes still to come, the position it is in, and its output so far. -/
abbrev DecodeLoop (σ : Type) := List Byte → σ → List Symbol → Except Err (List Symbol)

/-- What a decoder may do with a byte: reject the stream, move on, or emit one symbol and move on. -/
inductive ReadsByte {σ : Type} (cap : Nat) (run : DecodeLoop σ) (b : Byte) (q : σ) (out : List Symbol) :
    Prop where
  | rejects (h : ∀ bs, run (b :: bs) q out = .error .corruptStreamError)
  | moves (q' : σ) (h : ∀ bs, run (b :: bs) q out = run bs q' out)
  | emits (q' : σ) (x : Symbol) (h : ∀ bs, run (b :: bs) q out = emit cap out x >>= run bs q')

/-- What the two decoders have in common: no byte emits more than one symbol, a byte that is no bit is
rejected (R175), and the end of the stream raises no CapacityError. -/
structure ByteDecoder {σ : Type} (cap : Nat) (run : DecodeLoop σ) : Prop where
  reads : ∀ b q out, ReadsByte cap run b q out
  nonBit : ∀ b, byteBit b = none → ∀ bs q out, run (b :: bs) q out = .error .corruptStreamError
  atEnd : ∀ q out, run [] q out ≠ .error .capacityError

namespace ByteDecoder

variable {σ : Type} {cap : Nat} {run : DecodeLoop σ}

/-- A byte that is no bit is reported, unless the bytes before it raise CapacityError (R175). -/
theorem run_append_nonBit (h : ByteDecoder cap run) {b : Byte} (hb : byteBit b = none)
    (pre post : List Byte) (q : σ) (out : List Symbol) :
    run (pre ++ b :: post) q out =
      .error (if run pre q out = .error .capacityError then .capacityError else .corruptStreamError) := by
  induction pre generalizing q out with
  | nil => rw [List.nil_append, h.nonBit b hb, if_neg (h.atEnd q out)]
  | cons a pre ih =>
    rw [List.cons_append]
    rcases h.reads a q out with hr | ⟨q', hr⟩ | ⟨q', x, hr⟩
    · rw [hr, hr, if_neg nofun]
    · rw [hr, hr, ih]
    · rw [hr, hr]
      cases he : emit cap out x with
      | error e =>
        obtain ⟨rfl, -⟩ := emit_error he
        rfl
      | ok out' => exact ih q' out'

/-- CapacityError needs more bytes than SYM_CAP has symbols left (R181). -/
theorem cap_lt_of_capacityError (h : ByteDecoder cap run) {bs : List Byte} {q : σ} {out : List Symbol}
    (hrun : run bs q out = .error .capacityError) : cap < out.length + bs.length := by
  induction bs generalizing q out with
  | nil => exact absurd hrun (h.atEnd q out)
  | cons b bs ih =>
    rw [List.length_cons]
    rcases h.reads b q out with hr | ⟨q', hr⟩ | ⟨q', x, hr⟩
    · rw [hr] at hrun
      cases hrun
    · have := ih (hr bs ▸ hrun)
      omega
    · rw [hr] at hrun
      cases he : emit cap out x with
      | error e =>
        obtain ⟨-, full⟩ := emit_error he
        omega
      | ok out' =>
        obtain ⟨rfl, -⟩ := emit_ok he
        rw [he] at hrun
        have := ih hrun
        simp only [List.length_append, List.length_singleton] at this
        omega

end ByteDecoder

/-! One byte of DECT (R170, R171, R172, R174) -/

/-- The child that a bit selects. -/
abbrev Node.child (n : Node) (v : Bool) : NodeIdx := if v then n.right else n.left

theorem Node.not_leaf_of_internal {n : Node} (h : n.isInternal = true) : n.isLeaf = false := by
  cases n <;> simp_all [Node.isLeaf, Node.isInternal]

section

variable {tree : TreeStore} {root cur : NodeIdx} {cap : Nat} {x : Symbol} {f : Word}

theorem dectLoop_nonBit {b : Byte} (hb : byteBit b = none) (bs : List Byte) (cur : NodeIdx)
    (out : List Symbol) : dectLoop tree root cap (b :: bs) cur out = .error .corruptStreamError := by
  simp only [dectLoop, hb]

/-- With no tree every byte is rejected (R172). -/
theorem dectLoop_noTree (b : Byte) (bs : List Byte) (out : List Symbol) :
    dectLoop tree Config.nil cap (b :: bs) cur out = .error .corruptStreamError := by
  cases hb : byteBit b with
  | none => exact dectLoop_nonBit hb bs cur out
  | some v => simp only [dectLoop, hb, if_pos]

/-- On a lone leaf a bit emits the leaf's symbol and leaves the cursor (R171). -/
theorem dectLoop_bit_of_rootLeaf (hroot : root ≠ Config.nil) (leaf : nodeAt tree root = .leaf x f)
    (v : Bool) (bs : List Byte) (cur : NodeIdx) (out : List Symbol) :
    dectLoop tree root cap (bitByte v :: bs) cur out =
      emit cap out x >>= dectLoop tree root cap bs cur := by
  simp only [dectLoop, byteBit_bitByte, if_neg hroot, leaf]
  cases emit cap out x <;> rfl

/-- What DECT does once a bit has selected the child `nxt` (R170, R174). -/
def dectEnter (tree : TreeStore) (root : NodeIdx) (cap : Nat) (bs : List Byte) (nxt : NodeIdx)
    (out : List Symbol) : Except Err (List Symbol) :=
  match nodeAt tree nxt with
  | .free => .error .corruptStreamError
  | .leaf x _ => emit cap out x >>= dectLoop tree root cap bs root
  | .internal _ _ _ => dectLoop tree root cap bs nxt out

theorem dectEnter_free {nxt : NodeIdx} (h : nodeAt tree nxt = .free) (bs : List Byte)
    (out : List Symbol) : dectEnter tree root cap bs nxt out = .error .corruptStreamError := by
  simp only [dectEnter, h]

theorem dectEnter_leaf {nxt : NodeIdx} (h : nodeAt tree nxt = .leaf x f) (bs : List Byte)
    (out : List Symbol) :
    dectEnter tree root cap bs nxt out = emit cap out x >>= dectLoop tree root cap bs root := by
  simp only [dectEnter, h]

theorem dectEnter_internal {nxt : NodeIdx} (h : (nodeAt tree nxt).isInternal = true) (bs : List Byte)
    (out : List Symbol) : dectEnter tree root cap bs nxt out = dectLoop tree root cap bs nxt out := by
  simp only [dectEnter]
  rw [Node.eq_internal h]

/-- On any other record at the root a bit enters the child of the cursor that it selects (R170). A child
that is NIL is missing like one that is Free, because NIL names no record. -/
theorem dectLoop_bit (hroot : root ≠ Config.nil) (notLeaf : (nodeAt tree root).isLeaf = false) (v : Bool)
    (bs : List Byte) (cur : NodeIdx) (out : List Symbol) :
    dectLoop tree root cap (bitByte v :: bs) cur out =
      dectEnter tree root cap bs ((nodeAt tree cur).child v) out := by
  generalize hc : (nodeAt tree cur).child v = nxt
  have exists_of_ne : nodeAt tree nxt ≠ .free → nxt ≠ Config.nil := by
    rintro used rfl
    exact used (nodeAt_nil tree)
  cases hr : nodeAt tree root with
  | leaf x f => simp [hr, Node.isLeaf] at notLeaf
  | free | internal _ _ _ =>
    simp only [dectLoop, byteBit_bitByte, if_neg hroot, hr, hc, dectEnter]
    cases hn : nodeAt tree nxt with
    | free => rw [if_pos (.inr rfl)]
    | leaf x f =>
      rw [if_neg (by simp [Node.isFree, exists_of_ne (by simp [hn])])]
      dsimp only
      cases emit cap out x <;> rfl
    | internal f l r =>
      rw [if_neg (by simp [Node.isFree, exists_of_ne (by simp [hn])])]

theorem dectLoop_end_ne_capacityError (cur : NodeIdx) (out : List Symbol) :
    dectLoop tree root cap [] cur out ≠ .error .capacityError := by
  rw [dectLoop]
  split <;> exact nofun

theorem dectLoop_end_at_root (out : List Symbol) : dectLoop tree root cap [] root out = .ok out := by
  rw [dectLoop, if_neg fun h => h.2 rfl]

theorem dectLoop_end_of_ne_root (hroot : root ≠ Config.nil) (hcur : cur ≠ root) (out : List Symbol) :
    dectLoop tree root cap [] cur out = .error .corruptStreamError := by
  rw [dectLoop, if_pos ⟨hroot, hcur⟩]

/-- DECT reads its stream byte by byte, whatever TREE and ROOT hold. -/
theorem byteDecoder_dectLoop : ByteDecoder cap (dectLoop tree root cap) where
  nonBit _ hb := dectLoop_nonBit hb
  atEnd := dectLoop_end_ne_capacityError
  reads b cur out := by
    cases hb : byteBit b with
    | none => exact .rejects fun bs => dectLoop_nonBit hb bs cur out
    | some v =>
      obtain rfl := byteBit_eq_some hb
      by_cases hroot : root = Config.nil
      · exact .rejects fun bs => hroot ▸ dectLoop_noTree _ bs out
      · cases hl : (nodeAt tree root).isLeaf with
        | true => exact .emits cur _ fun bs => dectLoop_bit_of_rootLeaf hroot (Node.eq_leaf hl) v bs cur out
        | false =>
          have step := fun bs => dectLoop_bit (cap := cap) hroot hl v bs cur out
          cases hn : nodeAt tree ((nodeAt tree cur).child v) with
          | free => exact .rejects fun bs => (step bs).trans (dectEnter_free hn bs out)
          | leaf x f => exact .emits root x fun bs => (step bs).trans (dectEnter_leaf hn bs out)
          | internal f l r =>
            exact .moves _ fun bs => (step bs).trans (dectEnter_internal (by rw [hn]; rfl) bs out)

end

/-! One byte of DECP (R175, R176) -/

section

variable {t : CodeTable} {cap : Nat} {buf : Code} {v : Bool}

theorem decpLoop_nonBit {b : Byte} (hb : byteBit b = none) (bs : List Byte) (buf : Code)
    (out : List Symbol) : decpLoop t cap (b :: bs) buf out = .error .corruptStreamError := by
  simp only [decpLoop, hb]

theorem decpLoop_bit_of_match {x : Symbol} (h : matchCode t (buf ++ [v]) = some x) (bs : List Byte)
    (out : List Symbol) :
    decpLoop t cap (bitByte v :: bs) buf out = emit cap out x >>= decpLoop t cap bs [] := by
  simp only [decpLoop, byteBit_bitByte, h]
  cases emit cap out x <;> rfl

theorem decpLoop_bit_of_noMatch (h : matchCode t (buf ++ [v]) = none) (bs : List Byte)
    (out : List Symbol) :
    decpLoop t cap (bitByte v :: bs) buf out = decpLoop t cap bs (buf ++ [v]) out := by
  simp only [decpLoop, byteBit_bitByte, h]

/-- A stream that ends with bits in the buffer is rejected (R178). -/
theorem decpLoop_end_of_ne_nil (h : buf ≠ []) (out : List Symbol) :
    decpLoop t cap [] buf out = .error .corruptStreamError := by
  rw [decpLoop, if_pos h]

theorem decpLoop_end_of_nil (out : List Symbol) : decpLoop t cap [] [] out = .ok out := by
  rw [decpLoop, if_neg (absurd rfl)]

theorem decpLoop_end_ne_capacityError (buf : Code) (out : List Symbol) :
    decpLoop t cap [] buf out ≠ .error .capacityError := by
  rw [decpLoop]
  split <;> exact nofun

/-- DECP reads its stream byte by byte, whatever CT holds. -/
theorem byteDecoder_decpLoop : ByteDecoder cap (decpLoop t cap) where
  nonBit _ hb := decpLoop_nonBit hb
  atEnd := decpLoop_end_ne_capacityError
  reads b buf out := by
    cases hb : byteBit b with
    | none => exact .rejects fun bs => decpLoop_nonBit hb bs buf out
    | some v =>
      obtain rfl := byteBit_eq_some hb
      cases hm : matchCode t (buf ++ [v]) with
      | none => exact .moves _ fun bs => decpLoop_bit_of_noMatch hm bs out
      | some x => exact .emits [] x fun bs => decpLoop_bit_of_match hm bs out

theorem matchCode_emptyCodes (c : Code) : matchCode emptyCodes c = none := by
  cases hm : matchCode emptyCodes c with
  | none => rfl
  | some x =>
    obtain ⟨code, ne⟩ := matchCode_some hm
    exact absurd (code.symm.trans (codeOf_emptyCodes x)) ne

/-- With the empty table no bit ever leaves the buffer, so DECP rejects every stream but the empty one. -/
theorem decpLoop_emptyCodes {bs : List Byte} {buf : Code} (h : bs ≠ [] ∨ buf ≠ [])
    (out : List Symbol) :
    decpLoop emptyCodes cap bs buf out = .error .corruptStreamError := by
  induction bs generalizing buf with
  | nil => exact decpLoop_end_of_ne_nil (h.resolve_left (absurd rfl)) out
  | cons b bs ih =>
    cases hb : byteBit b with
    | none => exact decpLoop_nonBit hb bs buf out
    | some v =>
      obtain rfl := byteBit_eq_some hb
      rw [decpLoop_bit_of_noMatch (matchCode_emptyCodes _)]
      exact ih (.inr (by simp))

end

/-! The bytes of a stream of bits (R97) -/

theorem exists_bitByte_of_bit {b : Byte} (h : b = 0x30 ∨ b = 0x31) : ∃ v, bitByte v = b := by
  rcases h with rfl | rfl
  · exact ⟨false, rfl⟩
  · exact ⟨true, rfl⟩

theorem exists_map_bitByte {bs : List Byte} (h : ∀ b ∈ bs, b = 0x30 ∨ b = 0x31) :
    ∃ c : Code, c.map bitByte = bs := by
  have bits : ∀ b ∈ bs, b ∈ Set.range bitByte := fun b hb => exists_bitByte_of_bit (h b hb)
  exact (Set.range_list_map bitByte).ge bits

/-! Whole codes, in either decoder (R170, R171, R176) -/

/-- Standing between two codes, `run` takes the bytes `bs` as one code of `x`: it emits `x` and stands
between two codes again. -/
def TakesCode (cap : Nat) (run : List Byte → List Symbol → Except Err (List Symbol)) (x : Symbol)
    (bs : List Byte) : Prop :=
  ∀ rest out, run (bs ++ rest) out = emit cap out x >>= run rest

/-- A stream of codes emits their symbols one after the other. -/
theorem run_flatMap_of_takesCode {α : Type} {cap : Nat}
    {run : List Byte → List Symbol → Except Err (List Symbol)} {sym : α → Symbol}
    {bytes : α → List Byte} {us : List α} (takes : ∀ u ∈ us, TakesCode cap run (sym u) (bytes u))
    (rest : List Byte) (out : List Symbol) :
    run (us.flatMap bytes ++ rest) out = (us.map sym).foldlM (emit cap) out >>= run rest := by
  induction us generalizing out with
  | nil => rfl
  | cons u us ih =>
    have ⟨first, others⟩ := List.forall_mem_cons.1 takes
    rw [List.flatMap_cons, List.append_assoc, first, List.map_cons, List.foldlM_cons, bind_assoc]
    exact bind_congr fun out' => ih others out'

section

variable {tree : TreeStore} {root : NodeIdx} {cap : Nat} {x : Symbol} {f : Word}

/-- Where the root is an Internal record, no path to a Leaf is empty. -/
theorem LeafPath.ne_nil_of_inner {c : Code} (path : LeafPath tree root x c)
    (inner : (nodeAt tree root).isInternal = true) : c ≠ [] := by
  rintro rfl
  obtain ⟨m, f, hm, hf⟩ := path
  cases hm
  simp [hf, Node.isInternal] at inner

/-- DECT takes a path to a Leaf as a code of its symbol (R170). -/
theorem takesCode_dectLoop_path (hroot : root ≠ Config.nil) (inner : (nodeAt tree root).isInternal = true)
    {c : Code} (path : LeafPath tree root x c) :
    TakesCode cap (dectLoop tree root cap · root) x (c.map bitByte) := by
  intro rest out
  have ne := path.ne_nil_of_inner inner
  obtain ⟨m, f, hm, hf⟩ := path
  refine ((dectLoop_path cap hroot inner hm (by simp [hf]) rest out).2 x f ne hf).trans ?_
  cases emit cap out x <;> rfl

/-- On a lone leaf DECT takes either bit as a code of the leaf's symbol (R171). -/
theorem takesCode_dectLoop_bit (hroot : root ≠ Config.nil) (leaf : nodeAt tree root = .leaf x f)
    {b : Byte} (hb : b = 0x30 ∨ b = 0x31) : TakesCode cap (dectLoop tree root cap · root) x [b] := by
  intro rest out
  obtain ⟨v, rfl⟩ := exists_bitByte_of_bit hb
  exact dectLoop_bit_of_rootLeaf hroot leaf v rest root out

/-- Under a table of R36 DECP takes a present code as its symbol's (R176). -/
theorem takesCode_decpLoop {t : CodeTable} (ht : CodesHold t) (hx : codeOf t x ≠ []) :
    TakesCode cap (decpLoop t cap · []) x ((codeOf t x).map bitByte) := by
  intro rest out
  refine (decpLoop_code ht cap hx rest out).trans ?_
  cases emit cap out x <;> rfl

theorem dectLoop_paths (hroot : root ≠ Config.nil) (inner : (nodeAt tree root).isInternal = true)
    {ps : List (Symbol × Code)} (paths : ∀ p ∈ ps, LeafPath tree root p.1 p.2) (rest : List Byte)
    (out : List Symbol) :
    dectLoop tree root cap (ps.flatMap (fun p => p.2.map bitByte) ++ rest) root out =
      (ps.map Prod.fst).foldlM (emit cap) out >>= dectLoop tree root cap rest root :=
  run_flatMap_of_takesCode (run := (dectLoop tree root cap · root))
    (fun p hp => takesCode_dectLoop_path hroot inner (paths p hp)) rest out

/-- Codes within SYM_CAP and then a path to an Internal record leave the cursor there (R170). -/
theorem dectLoop_paths_then_inner (hroot : root ≠ Config.nil)
    (inner : (nodeAt tree root).isInternal = true) {ps : List (Symbol × Code)}
    (paths : ∀ p ∈ ps, LeafPath tree root p.1 p.2) (fits : ps.length ≤ cap) {k : NodeIdx} {c : Code}
    (path : PathTo tree root c k) (hk : (nodeAt tree k).isInternal = true) (rest : List Byte) :
    dectLoop tree root cap (ps.flatMap (fun p => p.2.map bitByte) ++ (c.map bitByte ++ rest)) root [] =
      dectLoop tree root cap rest k (ps.map Prod.fst) := by
  have used : nodeAt tree k ≠ .free := by
    rw [Node.eq_internal hk]
    exact nofun
  rw [dectLoop_paths hroot inner paths, foldlM_emit_of_fits _ (by simpa using fits)]
  exact (dectLoop_path cap hroot inner path used rest _).1 hk

theorem dectLoop_bits_of_rootLeaf (hroot : root ≠ Config.nil) (leaf : nodeAt tree root = .leaf x f)
    {bits : List Byte} (hbits : ∀ b ∈ bits, b = 0x30 ∨ b = 0x31) (rest : List Byte)
    (out : List Symbol) :
    dectLoop tree root cap (bits ++ rest) root out =
      (List.replicate bits.length x).foldlM (emit cap) out >>= dectLoop tree root cap rest root := by
  have h := run_flatMap_of_takesCode (run := (dectLoop tree root cap · root)) (sym := fun _ => x)
    (bytes := fun b => [b]) (fun b hb => takesCode_dectLoop_bit hroot leaf (hbits b hb)) rest out
  simpa using h

theorem decpLoop_codesOf {t : CodeTable} (ht : CodesHold t) {xs : List Symbol}
    (present : ∀ x ∈ xs, codeOf t x ≠ []) (rest : List Byte) (out : List Symbol) :
    decpLoop t cap ((codesOf t xs).map bitByte ++ rest) [] out =
      xs.foldlM (emit cap) out >>= decpLoop t cap rest [] := by
  have h := run_flatMap_of_takesCode (run := (decpLoop t cap · [])) (sym := id)
    (bytes := fun x => (codeOf t x).map bitByte) (fun x hx => takesCode_decpLoop ht (present x hx)) rest out
  simpa [codesOf, List.map_flatMap] using h

end

/-! The two decoders together on a proper tree (R179) -/

section

variable {tree : TreeStore} {root : NodeIdx} {nnodes : BitVec 9} {leaves : Nat}

/-- A path is whole exactly when it has come back to the root. -/
theorem PathTo.eq_nil_iff_at_root (h : ProperTree tree root nnodes leaves) {m : NodeIdx} {c : Code}
    (path : PathTo tree root c m) : m = root ↔ c = [] := by
  have := h.two_le
  have rootEq := h.root_eq
  constructor
  · rintro rfl
    by_contra ne
    exact lt_irrefl _ ((path.index_le h (by omega)).2 ne)
  · rintro rfl
    cases path
    rfl

/-- In a proper tree both children of an Internal record exist (R34). -/
theorem ProperTree.child_ne_free (h : ProperTree tree root nnodes leaves) {k : NodeIdx}
    (inner : (nodeAt tree k).isInternal = true) (v : Bool) :
    nodeAt tree ((nodeAt tree k).child v) ≠ .free := by
  obtain ⟨⟨-, left⟩, -, right⟩ := h.children_used k inner
  cases v with
  | false => exact left
  | true => exact right

theorem matchCode_genCodes_of_leaf (h : ProperTree tree root nnodes leaves) {m : NodeIdx} {c : Code}
    {x : Symbol} {f : Word} (path : PathTo tree root c m) (leaf : nodeAt tree m = .leaf x f) :
    matchCode (genCodes tree root) c = some x := by
  have leafPath : LeafPath tree root x c := ⟨m, f, path, leaf⟩
  have code := leafPath.codeOf_genCodes h
  have found := matchCode_codeOf (codesHold_genCodes_proper h) (code ▸ leafPath.ne_nil h)
  rwa [code] at found

theorem matchCode_genCodes_of_inner (h : ProperTree tree root nnodes leaves) {m : NodeIdx} {c : Code}
    (path : PathTo tree root c m) (inner : (nodeAt tree m).isInternal = true) :
    matchCode (genCodes tree root) c = none := by
  cases hm : matchCode (genCodes tree root) c with
  | none => rfl
  | some x =>
    obtain ⟨code, ne⟩ := matchCode_some hm
    obtain ⟨k, f, leafPath, leaf⟩ := (codeOf_genCodes_iff h x c ne).1 code
    obtain rfl := path.unique_end leafPath
    simp [leaf, Node.isInternal] at inner

/-- DECT's cursor stands where DECP's buffer leads from the root, so the two loops go on and end alike on
every byte (R179). -/
theorem dectLoop_eq_decpLoop (h : ProperTree tree root nnodes leaves) (cap : Nat) (bs : List Byte)
    {cur : NodeIdx} {buf : Code} (path : PathTo tree root buf cur)
    (inner : (nodeAt tree cur).isInternal = true) (out : List Symbol) :
    dectLoop tree root cap bs cur out = decpLoop (genCodes tree root) cap bs buf out := by
  induction bs generalizing cur buf out with
  | nil =>
    have whole := path.eq_nil_iff_at_root h
    simp only [dectLoop, decpLoop, ne_eq, h.root_ne_nil, not_false_eq_true, true_and, whole]
  | cons b bs ih =>
    cases hb : byteBit b with
    | none => rw [dectLoop_nonBit hb, decpLoop_nonBit hb]
    | some v =>
      obtain rfl := byteBit_eq_some hb
      have path' : PathTo tree root (buf ++ [v]) ((nodeAt tree cur).child v) :=
        path.append (.child v inner (.here _))
      rw [dectLoop_bit h.root_ne_nil (Node.not_leaf_of_internal h.root_inner)]
      cases hn : nodeAt tree ((nodeAt tree cur).child v) with
      | free => exact absurd hn (h.child_ne_free inner v)
      | leaf x f =>
        rw [dectEnter_leaf hn, decpLoop_bit_of_match (matchCode_genCodes_of_leaf h path' hn)]
        exact bind_congr fun out' => ih (.here root) h.root_inner out'
      | internal f l r =>
        have inner' : (nodeAt tree ((nodeAt tree cur).child v)).isInternal = true := by rw [hn]; rfl
        rw [dectEnter_internal inner', decpLoop_bit_of_noMatch (matchCode_genCodes_of_inner h path' inner')]
        exact ih path' inner' out

end

end Sys2Proof.Machine
end

section
/-! R170 to R181, the commands DECT and DECP: what they answer on streams of whole codes and on malformed
ones, where the two agree, and that each of them undoes ENC. -/

namespace Sys2Proof.Machine

open Sys2Proof

/-! How a decoder ends -/

theorem conclude_of_error {α : Type} {r : Except Err α} {e : Err} (h : r = .error e)
    (commit : α → State → State) (s : State) :
    conclude r commit s = .next { s with status := { err := e, warnEmpty := false } } := by
  rw [h, conclude_error, raise, Status.failure]

/-- STATUS tells which error a command that writes a buffer has raised (R221). -/
theorem exists_next_conclude_commitBuffer {r : Except Err (List Byte)} (b : Buffer) (s : State) {e : Err}
    (he : e ≠ .ok) :
    ∃ t, conclude r (commitBuffer b) s = .next t ∧ (t.status.err = e ↔ r = .error e) := by
  cases r with
  | error d => exact ⟨_, rfl, by simp [Status.failure]⟩
  | ok out => exact ⟨_, rfl, by simpa [Status.success] using he.symm⟩

theorem Status.err_eq_ok_of_word {st : Status} (h : st.word = 0) : st.err = .ok := by
  obtain ⟨e, warn⟩ := st
  revert h
  cases e <;> cases warn <;> decide

section

variable {s : State} {out : List Symbol}

theorem exec_dect_of_error {e : Err}
    (h : dectLoop s.tree s.root s.params.symCap (s.window .bit) s.root [] = .error e) :
    exec .dect s = .next { s with status := { err := e, warnEmpty := false } } :=
  conclude_of_error h _ s

theorem exec_dect_of_ok (h : dectLoop s.tree s.root s.params.symCap (s.window .bit) s.root [] = .ok out) :
    exec .dect s = .next (commitBuffer .sym out s) := by
  rw [exec_dect, h, conclude_ok]

theorem exec_decp_of_error {e : Err}
    (h : decpLoop s.ct s.params.symCap (s.window .bit) [] [] = .error e) :
    exec .decp s = .next { s with status := { err := e, warnEmpty := false } } :=
  conclude_of_error h _ s

theorem exec_decp_of_ok (h : decpLoop s.ct s.params.symCap (s.window .bit) [] [] = .ok out) :
    exec .decp s = .next (commitBuffer .sym out s) := by
  rw [exec_decp, h, conclude_ok]

/-- What the commit of decoded symbols leaves in every register and store (R77, R78, R170). -/
theorem commitBuffer_sym_spec (wf : s.params.wf = true) (fits : out.length ≤ s.params.symCap) :
    (commitBuffer .sym out s).symlen.toNat = out.length ∧
      (commitBuffer .sym out s).window .sym = out ∧
      (∀ a, out.length ≤ a → (commitBuffer .sym out s).readBuf .sym a = s.readBuf .sym a) ∧
      (commitBuffer .sym out s).status.word = 0 ∧
      commitBuffer .sym out s = { s with sym := (commitBuffer .sym out s).sym,
                                         symlen := (commitBuffer .sym out s).symlen,
                                         status := (commitBuffer .sym out s).status } := by
  have short : out.length < 2 ^ 32 := fits.trans_lt (cap_lt_of_wf wf .sym)
  refine ⟨?symlen, commitBuffer_window .sym out s short, fun a ha => ?tail, ?status, rfl⟩
  case symlen => rw [commitBuffer_sym_symlen, BitVec.toNat_ofNat, Nat.mod_eq_of_lt short]
  case tail => rw [commitBuffer_readBuf, if_neg fun h => Nat.not_lt.2 ha h.2]
  case status => rw [commitBuffer_status]; decide

end

/-! DECT -/

/-- Settles O26: every path emits its Leaf's symbol, and the cursor ends at the root. -/
theorem dectDecodesTreePaths : Obligations.DectDecodesTreePaths := by
  intro s leaves ps wf proper paths window fits
  have decoded : dectLoop s.tree s.root s.params.symCap (s.window .bit) s.root [] =
      .ok (ps.map Prod.fst) := by
    rw [window, ← List.append_nil (ps.flatMap _),
      dectLoop_paths proper.root_ne_nil proper.root_inner paths,
      foldlM_emit_of_fits _ (by simpa using fits)]
    exact dectLoop_end_at_root _
  refine ⟨_, exec_dect_of_ok decoded, ?_⟩
  simpa using commitBuffer_sym_spec wf (out := ps.map Prod.fst) (by simpa using fits)

/-- Settles O27: every bit emits the leaf's symbol and leaves the cursor at the root. -/
theorem dectOfLoneLeaf : Obligations.DectOfLoneLeaf := by
  intro s x f hroot leaf
  refine ⟨fun wf bits fits => ?bits, fun pre post b window bits h0 h1 fits => ?nonBit⟩
  case bits =>
    have length : (s.window .bit).length = s.bitlen.toNat := window_length s .bit
    have decoded : dectLoop s.tree s.root s.params.symCap (s.window .bit) s.root [] =
        .ok (List.replicate s.bitlen.toNat x) := by
      rw [← List.append_nil (s.window .bit), dectLoop_bits_of_rootLeaf hroot leaf bits, length,
        foldlM_emit_of_fits _ (by simpa using fits)]
      exact dectLoop_end_at_root _
    obtain ⟨-, out, -, status, -⟩ :=
      commitBuffer_sym_spec wf (out := List.replicate s.bitlen.toNat x) (by simpa using fits)
    exact ⟨_, exec_dect_of_ok decoded, by simp, out, status⟩
  case nonBit =>
    refine exec_dect_of_error ?_
    rw [window, dectLoop_bits_of_rootLeaf hroot leaf bits, foldlM_emit_of_fits _ (by simpa using fits)]
    exact dectLoop_nonBit ((byteBit_eq_none_iff b).2 ⟨h0, h1⟩) _ _ _

/-- Settles O28: with no tree the first byte is rejected, and no byte leaves the output empty. -/
theorem dectWithoutTree : Obligations.DectWithoutTree := by
  intro s noTree
  refine ⟨fun empty => ?empty, fun nonempty => exec_dect_of_error ?nonempty⟩
  case empty =>
    have decoded : dectLoop s.tree s.root s.params.symCap (s.window .bit) s.root [] = .ok [] := by
      rw [window_eq_nil (b := .bit) empty]
      exact dectLoop_end_at_root []
    exact exec_dect_of_ok decoded
  case nonempty =>
    cases window : s.window .bit with
    | nil =>
      have length := window_length s .bit
      rw [window] at length
      exact absurd (BitVec.eq_of_toNat_eq length.symm) nonempty
    | cons b bs =>
      rw [noTree]
      exact dectLoop_noTree b bs []

/-- Settles O29: the path left over has moved the cursor below the root. -/
theorem dectRejectsStreamEndingMidCode : Obligations.DectRejectsStreamEndingMidCode := by
  intro s leaves ps c k proper paths ne path inner window fits
  have below : k ≠ s.root := fun h => ne ((path.eq_nil_iff_at_root proper).1 h)
  refine exec_dect_of_error ?_
  rw [window, ← List.append_nil (c.map bitByte),
    dectLoop_paths_then_inner proper.root_ne_nil proper.root_inner paths fits path inner]
  exact dectLoop_end_of_ne_root proper.root_ne_nil below _

/-- Settles O30: entering a missing child rejects the stream, and a proper tree has none. -/
theorem dectRejectsMissingChild : Obligations.DectRejectsMissingChild := by
  refine ⟨fun s ps c k v rest hroot rootInner paths fits path inner window missing => ?first,
    fun s leaves k proper inner child hchild => ?second⟩
  case first =>
    have free : nodeAt s.tree ((nodeAt s.tree k).child v) = .free :=
      missing.elim (fun hnil => (congrArg (nodeAt s.tree) hnil).trans (nodeAt_nil s.tree)) id
    refine exec_dect_of_error ?_
    rw [window, dectLoop_paths_then_inner hroot rootInner paths fits path inner,
      dectLoop_bit hroot (Node.not_leaf_of_internal rootInner), dectEnter_free free]
  case second =>
    obtain ⟨left, right⟩ := proper.children_used k inner
    rcases hchild with rfl | rfl
    · exact left
    · exact right

/-! DECP -/

/-- Settles O32: every code emits its symbol and empties the buffer. -/
theorem decpDecodesCodes : Obligations.DecpDecodesCodes := by
  intro s xs wf codes present window fits
  have decoded : decpLoop s.ct s.params.symCap (s.window .bit) [] [] = .ok xs := by
    rw [window, ← List.append_nil ((codesOf s.ct xs).map bitByte), decpLoop_codesOf codes present,
      foldlM_emit_of_fits _ (by simpa using fits)]
    exact decpLoop_end_of_nil xs
  exact ⟨_, exec_decp_of_ok decoded, commitBuffer_sym_spec wf fits⟩

/-- Settles O33: the bits left over stay in the buffer, because none of their beginnings is a code. -/
theorem decpRejectsLeftoverBits : Obligations.DecpRejectsLeftoverBits := by
  intro s xs c codes present ne unbegun window fits
  have grows : ∀ d, d ≠ [] → d <+: c → ∀ y : Symbol, codeOf s.ct y ≠ [] ++ d := by
    rintro d hd begins y rfl
    exact unbegun y hd begins
  refine exec_decp_of_error ?_
  rw [window, List.map_append, decpLoop_codesOf codes present, foldlM_emit_of_fits _ (by simpa using fits),
    ← List.append_nil (c.map bitByte), decpLoop_grow _ _ c [] [] _ grows]
  exact decpLoop_end_of_ne_nil ne _

/-! Both decoders -/

/-- Settles O34: the symbol after number SYM_CAP ends either loop where it stands. -/
theorem decodersReportCapacity : Obligations.DecodersReportCapacity := by
  refine ⟨fun s leaves ps rest proper paths many window => exec_dect_of_error ?proper,
    fun s x f bits rest hroot leaf hbits many window => exec_dect_of_error ?loneLeaf,
    fun s xs rest codes present many window => exec_decp_of_error ?decp⟩
  case proper =>
    rw [window, dectLoop_paths proper.root_ne_nil proper.root_inner paths]
    exact foldlM_emit_of_overflow _ (Nat.zero_le _) (by simp [many])
  case loneLeaf =>
    rw [window, dectLoop_bits_of_rootLeaf hroot leaf hbits]
    exact foldlM_emit_of_overflow _ (Nat.zero_le _) (by simp [many])
  case decp =>
    rw [window, decpLoop_codesOf codes present]
    exact foldlM_emit_of_overflow _ (Nat.zero_le _) (by simp [many])

/-- A lower BITLEN shortens the window (R76). -/
theorem window_of_lower_bitlen {s : State} {n : Nat} (h : n ≤ (s.len .bit).toNat) :
    { s with bitlen := BitVec.ofNat 32 n }.window .bit = (s.window .bit).take n := by
  have len : (BitVec.ofNat 32 n).toNat = n := Nat.mod_eq_of_lt (h.trans_lt (s.len .bit).isLt)
  calc { s with bitlen := BitVec.ofNat 32 n }.window .bit
    _ = (List.range (BitVec.ofNat 32 n).toNat).map (s.readBuf .bit) := rfl
    _ = (List.range n).map (s.readBuf .bit) := by rw [len]
    _ = (s.window .bit).take n := by
        rw [State.window, ← List.map_take, List.take_range, Nat.min_eq_left h]

/-- R175 for either decoder: the run on the bytes before the first byte that is no bit decides. -/
theorem ByteDecoder.rejects_nonBit {σ : Type} {run : DecodeLoop σ} {cap : Nat} (h : ByteDecoder cap run)
    (q : σ) (s u : State) {b : Byte} (h0 : b ≠ 0x30) (h1 : b ≠ 0x31) (pre post : List Byte) :
    ∃ t e, conclude (run pre q []) (commitBuffer .sym) u = .next t ∧
      conclude (run (pre ++ b :: post) q []) (commitBuffer .sym) s =
        .next { s with status := { err := e, warnEmpty := false } } ∧
      e = (if t.status.err = .capacityError then .capacityError else .corruptStreamError) ∧
      (pre.length ≤ cap → e = .corruptStreamError) := by
  have nonBit := (byteBit_eq_none_iff b).2 ⟨h0, h1⟩
  obtain ⟨t, ht, err⟩ := exists_next_conclude_commitBuffer (r := run pre q []) .sym u
    (e := .capacityError) nofun
  refine ⟨t, _, ht, conclude_of_error (h.run_append_nonBit nonBit pre post q []) _ s, ?_, fun few => ?_⟩
  · simp only [err]
  · refine if_neg fun full => ?_
    have := h.cap_lt_of_capacityError full
    simp only [List.length_nil] at this
    omega

/-- Settles O31: both loops read byte by byte. -/
theorem decodersRejectNonBits : Obligations.DecodersRejectNonBits := by
  intro s pre post b i hi window h0 h1
  have shorter : { s with bitlen := BitVec.ofNat 32 pre.length }.window .bit = pre := by
    have length := window_length s .bit
    rw [window, List.length_append] at length
    rw [window_of_lower_bitlen (by omega), window, List.take_left]
  rcases hi with rfl | rfl
  · rw [exec_dect, exec_dect, shorter, window]
    exact byteDecoder_dectLoop.rejects_nonBit s.root s _ h0 h1 pre post
  · rw [exec_decp, exec_decp, shorter, window]
    exact byteDecoder_decpLoop.rejects_nonBit [] s _ h0 h1 pre post

/-! The table GEN derives, and the two decoders under it (R179) -/

section

variable {t : TreeStore} {root : NodeIdx} {nnodes : BitVec 9}

theorem LoneLeaf.root_ne_nil (h : LoneLeaf t root nnodes) : root ≠ Config.nil := by
  obtain ⟨rfl, -⟩ := h
  decide

theorem LoneLeaf.nodeAt_root (h : LoneLeaf t root nnodes) :
    nodeAt t root = .leaf (slot t 0).sym (slot t 0).freq := by
  obtain ⟨rfl, -, leaf, -⟩ := h
  exact Node.eq_leaf leaf

theorem codeOf_genCodes_loneLeaf_sym (h : LoneLeaf t root nnodes) :
    codeOf (genCodes t root) (slot t 0).sym = [false] := by
  rw [codeOf_genCodes_loneLeaf h, if_pos rfl]

/-- Under a lone leaf's table every present code is "0" (R152). -/
theorem codeOf_genCodes_loneLeaf_of_present (h : LoneLeaf t root nnodes) {x : Symbol}
    (present : codeOf (genCodes t root) x ≠ []) : codeOf (genCodes t root) x = [false] := by
  rw [codeOf_genCodes_loneLeaf h] at present ⊢
  by_cases hx : x = (slot t 0).sym
  · rw [if_pos hx]
  · exact absurd (if_neg hx) present

theorem codesOf_replicate {ct : CodeTable} {x : Symbol} {v : Bool} (h : codeOf ct x = [v]) (n : Nat) :
    codesOf ct (List.replicate n x) = List.replicate n v := by
  induction n with
  | zero => rfl
  | succ n ih => rw [List.replicate_succ, codesOf_cons, h, ih, List.replicate_succ, List.singleton_append]

/-- On a lone leaf's streams of `0` bytes both decoders emit its symbol once per byte (R179 (b)). -/
theorem dectLoop_eq_decpLoop_of_loneLeaf (h : LoneLeaf t root nnodes) (cap n : Nat) :
    dectLoop t root cap (List.replicate n 0x30) root [] =
      decpLoop (genCodes t root) cap (List.replicate n 0x30) [] [] := by
  have codes := codesHold_genCodes (.inr (.inl h))
  have zero := codeOf_genCodes_loneLeaf_sym h
  have dect := dectLoop_bits_of_rootLeaf (cap := cap) h.root_ne_nil h.nodeAt_root
    (bits := List.replicate n 0x30) (fun b hb => .inl (List.eq_of_mem_replicate hb)) [] []
  have decp := decpLoop_codesOf (cap := cap) codes (xs := List.replicate n (slot t 0).sym)
    (fun x hx => by rw [List.eq_of_mem_replicate hx, zero]; exact nofun) [] []
  rw [codesOf_replicate zero, List.map_replicate] at decp
  rw [List.length_replicate] at dect
  rw [List.append_nil] at dect decp
  refine dect.trans (Eq.trans ?_ decp.symm)
  refine bind_congr fun out => ?_
  rw [dectLoop_end_at_root, decpLoop_end_of_nil]

end

/-- DECT gives one copy of a lone leaf's symbol per bit (R171). -/
theorem exec_dect_of_loneLeaf {s : State} (lone : LoneLeaf s.tree s.root s.nnodes)
    (wf : s.params.wf = true) (bits : ∀ b ∈ s.window .bit, b = 0x30 ∨ b = 0x31)
    (fits : s.bitlen.toNat ≤ s.params.symCap) :
    ∃ t, exec .dect s = .next t ∧ t.status.err = .ok ∧ t.symlen = s.bitlen ∧
      t.window .sym = List.replicate s.bitlen.toNat (slot s.tree 0).sym := by
  obtain ⟨decodes, -⟩ := dectOfLoneLeaf s _ _ lone.root_ne_nil lone.nodeAt_root
  obtain ⟨t, ht, symlen, out, status⟩ := decodes wf bits fits
  exact ⟨t, ht, Status.err_eq_ok_of_word status, symlen, out⟩

/-- Under a lone leaf's table DECP rejects a stream of bits with a `1`: the zeros before the first one are
whole codes, and no code begins what follows them (R179 (b)). -/
theorem exec_decp_of_loneLeaf_of_one {s : State} (lone : LoneLeaf s.tree s.root s.nnodes)
    (ct : s.ct = genCodes s.tree s.root) (bits : ∀ b ∈ s.window .bit, b = 0x30 ∨ b = 0x31)
    (one : 0x31 ∈ s.window .bit) (fits : s.bitlen.toNat ≤ s.params.symCap) :
    exec .decp s = .next { s with status := { err := .corruptStreamError, warnEmpty := false } } := by
  have zero := codeOf_genCodes_loneLeaf_sym lone
  obtain ⟨zeros, post, window, first⟩ := List.eq_append_cons_of_mem one
  obtain ⟨n, rfl⟩ : ∃ n, zeros = List.replicate n 0x30 := by
    refine ⟨_, List.eq_replicate_of_mem fun b hb => ?_⟩
    exact (bits b (by simp [window, hb])).resolve_right fun h1 => first (h1 ▸ hb)
  obtain ⟨c, rfl⟩ := exists_map_bitByte (bs := post) fun b hb => bits b (by simp [window, hb])
  have few : n ≤ s.params.symCap := by
    have length : (s.window .bit).length = s.bitlen.toNat := window_length s .bit
    rw [window, List.length_append, List.length_replicate] at length
    omega
  refine decpRejectsLeftoverBits s (List.replicate n (slot s.tree 0).sym) (true :: c) ?codes
    (fun x hx => ?present) nofun (fun y coded begins => ?unbegun) ?window (by simpa using few)
  case codes => exact ct ▸ codesHold_genCodes (.inr (.inl lone))
  case present =>
    rw [ct, List.eq_of_mem_replicate hx, zero]
    exact nofun
  case unbegun =>
    rw [ct] at coded begins
    rw [codeOf_genCodes_loneLeaf_of_present lone coded] at begins
    simp at begins
  case window =>
    rw [window, ct, codesOf_replicate zero, List.map_append, List.map_replicate, List.map_cons]
    rfl

/-- Settles O35: the two loops go together on a proper tree and on the zeros of a lone leaf; a 1 of a lone
leaf's stream stays in DECP's buffer; with no tree both reject every byte. -/
theorem decodersAgree : Obligations.DecodersAgree := by
  intro s g h htree hroot hgen hct
  have ct : s.ct = genCodes s.tree s.root := by rw [← hct, ct_of_exec_gen hgen, htree, hroot]
  refine ⟨fun leaves proper => ?proper, fun lone zeros => ?zeros, fun lone bits one wf fits => ?one,
    fun noTree => ?noTree⟩
  case proper =>
    rw [exec_dect, exec_decp, ct, dectLoop_eq_decpLoop proper _ _ (.here _) proper.root_inner]
  case zeros =>
    have window : s.window .bit = List.replicate (s.window .bit).length 0x30 :=
      List.eq_replicate_of_mem zeros
    have agree : exec .dect s = exec .decp s := by
      rw [exec_dect, exec_decp, ct, window, dectLoop_eq_decpLoop_of_loneLeaf lone]
    exact ⟨agree, fun wf fits =>
      agree ▸ exec_dect_of_loneLeaf lone wf (fun b hb => .inl (zeros b hb)) fits⟩
  case one =>
    obtain ⟨t, ht, ok, -, out⟩ := exec_dect_of_loneLeaf lone wf bits fits
    exact ⟨⟨t, ht, ok, out⟩, exec_decp_of_loneLeaf_of_one lone ct bits one fits⟩
  case noTree =>
    obtain ⟨root, -, -⟩ := noTree
    obtain ⟨empty, nonempty⟩ := dectWithoutTree s root
    have agree : exec .dect s = exec .decp s := by
      rw [exec_dect, exec_decp, ct, root, genCodes_nil]
      cases s.window .bit with
      | nil => rw [dectLoop_end_at_root, decpLoop_end_of_nil]
      | cons b bs => rw [dectLoop_noTree, decpLoop_emptyCodes (.inl (List.cons_ne_nil b bs))]
    exact ⟨agree, agree ▸ empty, agree ▸ nonempty⟩

/-! Encoding and decoding (R180) -/

/-- A command leaves the valid elements of every buffer but its output's (R93). -/
theorem exec_keeps_window {i : Instr} {s t : State} {b : Buffer} (h : exec i s = .next t)
    (hb : outputBuffer i ≠ some b) : t.window b = s.window b := by
  obtain ⟨-, len⟩ := exec_keeps_buffer h hb
  rw [State.window, State.window, len, funext (exec_keeps_readBuf h hb)]

/-- Where every symbol has a code, ENC's only error is CapacityError (R161, R162). -/
theorem encLoop_error_of_coded {t : CodeTable} {cap : Nat} {xs : List Symbol} {out : Code} {e : Err}
    (coded : ∀ x ∈ xs, codeOf t x ≠ []) (h : encLoop t cap xs out = .error e) :
    e = .capacityError := by
  induction xs generalizing out with
  | nil => cases h
  | cons x xs ih =>
    have ⟨present, others⟩ := List.forall_mem_cons.1 coded
    rw [encLoop, if_neg (by simpa using present)] at h
    split at h
    · cases h
      rfl
    · exact ih others h

/-- BUILD after FREQ succeeds with a tree of R34 that has a Leaf for every symbol of the input (R137). -/
theorem build_after_freq {s a b : State} (hfreq : exec .freq s = .next a)
    (hbuild : exec .build a = .next b) :
    b.status.err = .ok ∧ TreeShape b.tree b.root b.nnodes ∧
      ∀ x ∈ s.window .sym, ∃ k < 511, (slot b.tree k).isLeaf = true ∧ (slot b.tree k).sym = x := by
  obtain ⟨f, hf, grown, -⟩ := buildNodes_grown (total_lt_of_exec_freq hfreq)
  rw [exec_build_of_buildNodes hf] at hbuild
  cases hbuild
  refine ⟨rfl, treeShape_commitTree hf a, fun x hx => ?_⟩
  have key : x ∈ presentSymbols a.ft := by
    obtain ⟨_, ha, -, occurs, -⟩ := freqCountsOccurrences s
    obtain rfl := Host.Outcome.next.inj (hfreq.symm.trans ha)
    have counted := (occurs x).2 (mem_window.1 hx)
    refine (mem_presentSymbols _ x).2 fun absent => ?_
    simp [absent] at counted
  obtain ⟨k, hk, rfl⟩ := List.getElem_of_mem key
  have seeded := grown.seeds k _ (List.getElem?_eq_getElem hk)
  have := presentSymbols_length_le a.ft
  refine ⟨k, by omega, ?_, ?_⟩
  · rw [commitTree_tree_eq_storeOf, seeded]
    rfl
  · rw [commitTree_tree_eq_storeOf, seeded]
    rfl

/-- With CT derived from the tree, DECT answers like DECP on every stream of whole codes: a lone leaf's
only code is "0" (R179). -/
theorem exec_dect_eq_exec_decp {s : State} {xs : List Symbol} (shape : TreeShape s.tree s.root s.nnodes)
    (ct : s.ct = genCodes s.tree s.root) (present : ∀ x ∈ xs, codeOf s.ct x ≠ [])
    (window : s.window .bit = (codesOf s.ct xs).map bitByte) : exec .dect s = exec .decp s := by
  obtain ⟨proper, loneLeaf, -, noTree⟩ := decodersAgree s s _ rfl rfl (exec_gen_eq_next s) ct.symm
  rcases shape with none | lone | tree
  · obtain ⟨agree, -⟩ := noTree none
    exact agree
  · refine (loneLeaf lone fun b hb => ?_).1
    rw [window] at hb
    obtain ⟨v, hv, rfl⟩ := List.mem_map.1 hb
    obtain ⟨x, hx, hvx⟩ := List.mem_flatMap.1 hv
    have zero : codeOf s.ct x = [false] :=
      ct ▸ codeOf_genCodes_loneLeaf_of_present lone (ct ▸ present x hx)
    rw [zero, List.mem_singleton] at hvx
    rw [hvx]
    rfl
  · exact proper _ tree

/-- With CT derived from the tree, either decoder reads a stream of whole codes back as its symbols. -/
theorem exec_decoder_of_codes {s : State} {xs : List Symbol} (wf : s.params.wf = true)
    (shape : TreeShape s.tree s.root s.nnodes) (ct : s.ct = genCodes s.tree s.root)
    (present : ∀ x ∈ xs, codeOf s.ct x ≠ []) (window : s.window .bit = (codesOf s.ct xs).map bitByte)
    (fits : xs.length ≤ s.params.symCap) {i : Instr} (hi : i = .dect ∨ i = .decp) :
    ∃ t, exec i s = .next t ∧ t.status.err = .ok ∧ t.symlen.toNat = xs.length ∧
      t.window .sym = xs := by
  obtain ⟨t, ht, symlen, out, -, status, -⟩ :=
    decpDecodesCodes s xs wf (ct ▸ codesHold_genCodes shape) present window fits
  refine ⟨t, ?_, Status.err_eq_ok_of_word status, symlen, out⟩
  rcases hi with rfl | rfl
  · rw [exec_dect_eq_exec_decp shape ct present window, ht]
  · exact ht

/-- Settles O36: every symbol of the input has a code, so ENC leaves their codes in BIT, and either decoder
reads them back under the table they were written with. -/
theorem encodeThenDecodeIsIdentity : Obligations.EncodeThenDecodeIsIdentity := by
  intro s a b c d ranges hfreq hbuild hgen henc noOverflow
  obtain ⟨buildOk, shape, leaves⟩ := build_after_freq hfreq hbuild
  have rangesC := ((ranges.exec hfreq).exec hbuild).exec hgen
  have input : c.window .sym = s.window .sym := by
    rw [exec_keeps_window hgen (by decide), exec_keeps_window hbuild (by decide),
      exec_keeps_window hfreq (by decide)]
  have ctC : c.ct = genCodes b.tree b.root := ct_of_exec_gen hgen
  have coded : ∀ x ∈ c.window .sym, codeOf c.ct x ≠ [] := fun x hx =>
    ctC ▸ (codeOf_genCodes_ne_nil_iff shape x).2 (leaves x (input ▸ hx))
  have encOk : d.status.err = .ok := by
    rcases conclude_next (exec_enc c ▸ henc) with ⟨e, he, rfl⟩ | ⟨out, -, rfl⟩
    · exact absurd (encLoop_error_of_coded coded he) noOverflow
    · rw [commitBuffer_status]
      rfl
  have freqOk : a.status.err = .ok := by
    cases (exec_freq_eq_next s).symm.trans hfreq
    rfl
  have genOk : c.status.err = .ok := by
    cases (exec_gen_eq_next b).symm.trans hgen
    rfl
  refine ⟨freqOk, buildOk, genOk, encOk, fun i hi => ?_⟩
  have ctD : d.ct = c.ct := exec_keeps_ct henc (by decide) (by decide)
  obtain ⟨treeC, rootC, nnodesC⟩ := exec_keeps_tree hgen (by decide)
  obtain ⟨treeD, rootD, nnodesD⟩ := exec_keeps_tree henc (by decide)
  have paramsD := (exec_keeps_host henc).1
  obtain ⟨t, ht, ok, symlen, out⟩ := exec_decoder_of_codes (s := d) (xs := c.window .sym)
    (paramsD ▸ rangesC.params) (by rwa [treeD, rootD, nnodesD, treeC, rootC, nnodesC])
    (by rw [ctD, ctC, treeD, rootD, treeC, rootC]) (ctD ▸ coded)
    (ctD ▸ window_of_exec_enc rangesC.params henc encOk)
    (by rw [window_length, paramsD]; exact rangesC.lens .sym) hi
  rw [input] at symlen out
  exact ⟨t, ht, ok, BitVec.eq_of_toNat_eq (symlen.trans (window_length s .sym)), out⟩

end Sys2Proof.Machine
end

section
/-! R190 to R200, the artifact serializer: SER writes the entries of the present symbols in ascending order,
DESER loads exactly the lists of good entries, and each undoes the other. -/

namespace Sys2Proof.Machine

open Sys2Proof

/-! A table and its entries -/

section

variable {t u : CodeTable} {es : Entries} {e : Symbol × Code}

/-- The entries SER writes are those of the table's present symbols (R190). -/
theorem mem_presentEntries :
    e ∈ presentEntries t allSymbols ↔ codeOf t e.1 ≠ [] ∧ codeOf t e.1 = e.2 := by
  obtain ⟨x, c⟩ := e
  simp only [presentEntries, List.mem_map, List.mem_filter, mem_allSymbols, true_and, decide_eq_true_eq,
    Prod.mk.injEq]
  constructor
  · rintro ⟨y, present, rfl, rfl⟩
    exact ⟨present, rfl⟩
  · rintro ⟨present, rfl⟩
    exact ⟨x, present, rfl, rfl⟩

/-- SER goes through the symbols in ascending order (R191). -/
theorem presentEntries_sorted (t : CodeTable) :
    (presentEntries t allSymbols).Pairwise (fun e d => e.1.toNat < d.1.toNat) :=
  List.pairwise_map.2 (allSymbols_sorted.filter _)

/-- Every table holds exactly the entries of its present symbols. -/
theorem holdsEntries_presentEntries (t : CodeTable) : HoldsEntries t (presentEntries t allSymbols) := by
  refine ⟨fun e he => (mem_presentEntries.1 he).2, fun x absent => ?_⟩
  by_contra present
  exact absent (x, codeOf t x) (mem_presentEntries.2 ⟨present, rfl⟩) rfl

/-- The invariant of R36 says that the table's entries are good ones. -/
theorem goodEntries_presentEntries (h : CodesHold t) : GoodEntries (presentEntries t allSymbols) := by
  refine ⟨fun e he => ?short, List.pairwise_map.2 ?apart⟩
  case short =>
    obtain ⟨present, code⟩ := mem_presentEntries.1 he
    exact code ▸ ⟨List.length_pos_iff.2 present, h.short e.1⟩
  case apart =>
    refine (allSymbols_nodup.filter _).imp_of_mem fun {x y} hx hy hne => ⟨hne, ?_, ?_⟩
    · exact h.prefixFree x y hne (by simpa using (List.mem_filter.1 hx).2)
    · exact h.prefixFree y x hne.symm (by simpa using (List.mem_filter.1 hy).2)

/-- No two tables hold exactly the same entries. -/
theorem HoldsEntries.unique (ht : HoldsEntries t es) (hu : HoldsEntries u es) : t = u := by
  refine codeTable_ext fun x => ?_
  by_cases listed : ∃ e ∈ es, e.1 = x
  · obtain ⟨e, he, rfl⟩ := listed
    rw [ht.1 e he, hu.1 e he]
  · push Not at listed
    rw [ht.2 x listed, hu.2 x listed]

/-- A table that holds entries with non-empty codes has them, and no other, as its present entries. -/
theorem HoldsEntries.mem_iff (holds : HoldsEntries t es) (good : GoodEntries es) :
    e ∈ es ↔ codeOf t e.1 ≠ [] ∧ codeOf t e.1 = e.2 := by
  constructor
  · intro he
    rw [holds.1 e he]
    exact ⟨List.length_pos_iff.1 (good.1 e he).1, rfl⟩
  · rintro ⟨present, code⟩
    by_contra missing
    refine present (holds.2 e.1 fun d hd same => missing ?_)
    have : d = e := Prod.ext same (by rw [← holds.1 d hd, same, code])
    exact this ▸ hd

/-- SER writes the entries of a loaded artifact again, in its own order (R200). -/
theorem HoldsEntries.presentEntries_perm (holds : HoldsEntries t es) (good : GoodEntries es) :
    (presentEntries t allSymbols).Perm es := by
  refine (List.perm_ext_iff_of_nodup ?_ ?_).2 fun e => ?_
  · exact (presentEntries_sorted t).imp fun lt eq => by simp [eq] at lt
  · exact good.2.imp fun apart eq => apart.1 (by rw [eq])
  · rw [mem_presentEntries, holds.mem_iff good]

end

/-! The bytes determine the entries (R100) -/

/-- The bitstring of an entry ends at its first line feed. -/
theorem map_bitByte_lineFeed_inj {c d : Code} {bs cs : List Byte}
    (h : c.map bitByte ++ lineFeed :: bs = d.map bitByte ++ lineFeed :: cs) : c = d ∧ bs = cs := by
  have bit_ne (v : Bool) : bitByte v ≠ lineFeed := by cases v <;> decide
  induction c generalizing d with
  | nil =>
    cases d with
    | nil => exact ⟨rfl, (List.cons.inj h).2⟩
    | cons w d => exact absurd (List.cons.inj h).1.symm (bit_ne w)
  | cons v c ih =>
    cases d with
    | nil => exact absurd (List.cons.inj h).1 (bit_ne v)
    | cons w d =>
      obtain ⟨head, tail⟩ := List.cons.inj h
      obtain ⟨rfl, rest⟩ := ih tail
      have same : v = w := by simpa using congrArg byteBit head
      exact ⟨by rw [same], rest⟩

theorem entriesBytes_injective : Function.Injective entriesBytes := by
  intro es fs h
  induction es generalizing fs with
  | nil =>
    cases fs with
    | nil => rfl
    | cons d fs => exact absurd h (by simp [entryBytes])
  | cons e es ih =>
    cases fs with
    | nil => exact absurd h (by simp [entryBytes])
    | cons d fs =>
      simp only [entriesBytes_cons, entryBytes, List.cons_append, List.append_assoc, List.nil_append,
        List.cons.injEq, true_and] at h
      obtain ⟨symbol, bytes⟩ := h
      obtain ⟨code, rest⟩ := map_bitByte_lineFeed_inj bytes
      rw [ih rest, Prod.ext symbol code]

/-! SER -/

/-- The artifact of a code table (R190). -/
def artifact (t : CodeTable) : List Byte := entriesBytes (presentEntries t allSymbols)

theorem artifact_of_lists {t : CodeTable} {xs : List Symbol} (h : ListsPresent t xs) :
    artifact t = xs.flatMap (fun x => entryBytes x (codeOf t x)) := by
  rw [artifact, presentEntries_of_lists h, entriesBytes, List.flatMap_map]

theorem artifact_length_of_lists {t : CodeTable} {xs : List Symbol} (h : ListsPresent t xs) :
    (artifact t).length = (xs.map (fun x => (codeOf t x).length + 3)).sum := by
  simp [artifact_of_lists h, List.length_flatMap]

/-- SER's loop answers the whole artifact, or overflows where that does not fit (R190, R192). -/
theorem serLoop_allSymbols (t : CodeTable) (cap : Nat) :
    serLoop t cap allSymbols [] =
      if (artifact t).length ≤ cap then .ok (artifact t) else .error .capacityError := by
  rw [serLoop_eq t cap allSymbols [] (Nat.zero_le _), List.length_nil, Nat.zero_add, List.nil_append,
    artifact]

section

variable {s t : State}

/-- The state after a SER whose artifact fits. -/
def serialized (s : State) : State := commitBuffer .art (artifact s.ct) s

theorem exec_ser_of_fits (fits : (artifact s.ct).length ≤ s.params.artCap) :
    exec .ser s = .next (serialized s) := by
  rw [exec_ser, serLoop_allSymbols, if_pos fits, conclude_ok, serialized]

theorem exec_ser_of_overflow (long : s.params.artCap < (artifact s.ct).length) :
    exec .ser s = .next { s with status := { err := .capacityError, warnEmpty := false } } := by
  refine conclude_of_error ?_ _ s
  rw [serLoop_allSymbols, if_neg (Nat.not_le.2 long)]

/-- SER answers ERR = OK only when the artifact fits (R192). -/
theorem exec_ser_ok (h : exec .ser s = .next t) (hok : t.status.err = .ok) :
    (artifact s.ct).length ≤ s.params.artCap ∧ t = serialized s := by
  by_cases fits : (artifact s.ct).length ≤ s.params.artCap
  · rw [exec_ser_of_fits fits] at h
    exact ⟨fits, (Host.Outcome.next.inj h).symm⟩
  · rw [exec_ser_of_overflow (Nat.not_le.1 fits)] at h
    cases h
    cases hok

theorem serialized_status : (serialized s).status = Status.success := commitBuffer_status s .art _

variable (wf : s.params.wf = true) (fits : (artifact s.ct).length ≤ s.params.artCap)
include wf fits

theorem serialized_artlen : (serialized s).artlen.toNat = (artifact s.ct).length := by
  rw [serialized, commitBuffer_art_artlen, BitVec.toNat_ofNat,
    Nat.mod_eq_of_lt (fits.trans_lt (cap_lt_of_wf wf .art))]

theorem serialized_window : (serialized s).window .art = artifact s.ct :=
  commitBuffer_window .art _ s (fits.trans_lt (cap_lt_of_wf wf .art))

end

/-! DESER -/

section

variable {s t : State} {es : Entries}

theorem exec_deser_of_ok {u : CodeTable} (h : deserLoop (s.window .art) .symbol emptyCodes = .ok u) :
    exec .deser s = .next (commitCodes u s) := by
  rw [exec_deser, h, conclude_ok]

theorem exec_deser_of_error {e : Err}
    (h : deserLoop (s.window .art) .symbol emptyCodes = .error e) :
    exec .deser s = .next { s with status := { err := e, warnEmpty := false } } :=
  conclude_of_error h _ s

/-- DESER answers ERR = OK only when it has loaded the whole artifact (R193). -/
theorem exec_deser_ok (h : exec .deser s = .next t) (hok : t.status.err = .ok) :
    deserLoop (s.window .art) .symbol emptyCodes = .ok t.ct := by
  rcases conclude_next (exec_deser s ▸ h) with ⟨e, he, rfl⟩ | ⟨u, hu, rfl⟩
  · obtain rfl : e = .ok := hok
    exact absurd he (deserLoop_ne_error_ok _ _ _)
  · rw [hu, commitCodes_ct]

/-- DESER's parser loads the good entries at the front of an artifact and goes on behind them (R193). -/
theorem deserLoop_goodEntries (good : GoodEntries es) (rest : List Byte) :
    ∃ u, HoldsEntries u es ∧
      deserLoop (entriesBytes es ++ rest) .symbol emptyCodes = deserLoop rest .symbol u :=
  deserLoop_entries (done := []) holdsEntries_empty good rest

/-- Behind the good entries, each of the six causes ends the parse (R194). -/
theorem deserLoop_malformed {u : CodeTable} {bad : List Byte} (good : GoodEntries es)
    (holds : HoldsEntries u es) (h : Malformed es bad) :
    deserLoop bad .symbol u = .error .formatError := by
  have present (e : Symbol × Code) (he : e ∈ es) : codeOf u e.1 ≠ [] :=
    ((holds.mem_iff good).1 he).1
  cases h with
  | noColonEnd x => rfl
  | noColon x b r h => exact if_neg h
  | noLineFeed x c h =>
    have bits := deserLoop_bits c [] x [] u (by simpa using h)
    rw [List.append_nil] at bits
    exact bits
  | badByte x c b r h hb =>
    obtain ⟨not0, not1, notFeed⟩ := hb
    have notBit : byteBit b = none := (byteBit_eq_none_iff b).2 ⟨not0, not1⟩
    have bits := deserLoop_bits c (b :: r) x [] u (by simpa using h)
    refine bits.trans ?_
    rw [deserLoop, notBit]
    exact if_pos notFeed
  | emptyCode x r => rfl
  | symbolTwice x c r h twice =>
    obtain ⟨e, he, rfl⟩ := twice
    rw [deserLoop_entry _ c r u h, if_pos (.inl (present e he))]
  | codeClash x c r h clash =>
    obtain ⟨e, he, notApart⟩ := clash
    have clashing : clashes u c = true := by
      refine (clashes_iff u c).2 ⟨e.1, present e he, ?_⟩
      rw [holds.1 e he]
      simpa only [Apart, not_and_or, not_not] using notApart
    rw [deserLoop_entry x c r u h, if_pos (.inr clashing)]

end

/-! The obligations -/

/-- Settles O37: SER's symbols are the present ones in ascending order, and their entries fit ART. -/
theorem serWritesEntriesInSymbolOrder : Obligations.SerWritesEntriesInSymbolOrder := by
  intro s xs wf lists fits
  rw [← artifact_length_of_lists lists] at fits
  have h := exec_ser_of_fits fits
  refine ⟨serialized s, h, ?artlen, ?window, fun a ha => ?tail, ?status, exec_eq_of_outputBuffer h rfl⟩
  case artlen => rw [serialized_artlen wf fits, artifact_length_of_lists lists]
  case window =>
    rw [serialized_window wf fits, artifact_of_lists lists]
    rfl
  case tail =>
    exact exec_keeps_readBuf_outside_output wf h rfl .art a
      fun ⟨_, _, inside⟩ => Nat.not_lt.2 ha inside
  case status =>
    rw [serialized_status]
    decide

/-- Settles O38: SER's loop overflows exactly when the whole artifact does. -/
theorem serReportsCapacity : Obligations.SerReportsCapacity := fun _ _ lists long =>
  exec_ser_of_overflow (artifact_length_of_lists lists ▸ long)

/-- Settles O39: every good entry is apart from those loaded before it, whatever the order. -/
theorem deserLoadsEntriesInAnyOrder : Obligations.DeserLoadsEntriesInAnyOrder := by
  intro s es good window
  obtain ⟨u, holds, loaded⟩ := deserLoop_goodEntries good []
  rw [List.append_nil, ← window] at loaded
  exact ⟨commitCodes u s, exec_deser_of_ok loaded, holds, commitCodes_frame u s⟩

/-- Settles O40: the parser's accepted inputs are the lists of good entries, whose table has the
invariant. -/
theorem deserAcceptsOnlyGoodEntries : Obligations.DeserAcceptsOnlyGoodEntries := by
  intro s t h hok
  obtain ⟨es, window, good, holds⟩ :=
    deserLoop_ok holdsEntries_empty ⟨by simp, List.Pairwise.nil⟩ (exec_deser_ok h hok)
  exact ⟨⟨es, good, window, holds⟩, codesHold_of_holdsEntries good holds⟩

/-- Settles O41: the parser passes over the good entries and stops at the malformed one. -/
theorem deserRejectsMalformedArtifacts : Obligations.DeserRejectsMalformedArtifacts := by
  intro s es bad good malformed window
  obtain ⟨u, holds, parsed⟩ := deserLoop_goodEntries good bad
  refine exec_deser_of_error ?_
  rw [window, parsed, deserLoop_malformed good holds malformed]

/-- Settles O42: the parser passes over the good entries and stops at the 256th bit. -/
theorem deserReportsLongCode : Obligations.DeserReportsLongCode := by
  intro s es x c rest good length window
  obtain ⟨u, -, parsed⟩ := deserLoop_goodEntries good (x :: 0x3A :: (c.map bitByte ++ rest))
  refine exec_deser_of_error ?_
  rw [window, parsed]
  exact deserLoop_long c rest x [] u (Nat.zero_le _) (by simp [length])

/-- Settles O43: the empty artifact is the empty list of entries. -/
theorem deserOfEmptyArtifact : Obligations.DeserOfEmptyArtifact := by
  intro s empty
  obtain ⟨t, h, holds, status, frame⟩ :=
    deserLoadsEntriesInAnyOrder s [] ⟨by simp, List.Pairwise.nil⟩ (window_eq_nil (b := .art) empty)
  exact ⟨t, h, fun x => holds.2 x (by simp), status, frame⟩

/-- Settles O44: a table's entries in ascending order are a function of the table, and they determine it;
the bytes determine the entries, and sorting the entries keeps their total length. -/
theorem serializationRoundTrip : Obligations.SerializationRoundTrip := by
  refine ⟨fun s t wf codes hser hok => ?serDeser, fun s t ranges hdeser hok => ?deserSer⟩
  case serDeser =>
    obtain ⟨fits, rfl⟩ := exec_ser_ok hser hok
    have window := serialized_window wf fits
    obtain ⟨u, hu, holds, status, -⟩ :=
      deserLoadsEntriesInAnyOrder _ _ (goodEntries_presentEntries codes) window
    have ct : u.ct = s.ct := holds.unique (holdsEntries_presentEntries s.ct)
    have params : u.params = s.params := (exec_keeps_host hu).1.trans (exec_keeps_host hser).1
    have fitsU : (artifact u.ct).length ≤ u.params.artCap := by rwa [ct, params]
    refine ⟨u, serialized u, hu, Status.err_eq_ok_of_word status, ct, exec_ser_of_fits fitsU,
      congrArg Status.err serialized_status, ?_⟩
    rw [serialized_window (params ▸ wf) fitsU, window, ct]
  case deserSer =>
    obtain ⟨⟨es, good, window, holds⟩, -⟩ := deserAcceptsOnlyGoodEntries s t hdeser hok
    have perm := holds.presentEntries_perm good
    have params : t.params = s.params := (exec_keeps_host hdeser).1
    have fits : (artifact t.ct).length ≤ t.params.artCap := calc
      (artifact t.ct).length = (s.window .art).length := by
        rw [window, artifact, entriesBytes_length_perm perm]
      _ = (s.len .art).toNat := window_length s .art
      _ ≤ s.params.artCap := ranges.lens .art
      _ = t.params.artCap := by rw [params]
    have written := serialized_window (params ▸ ranges.params) fits
    refine ⟨es, presentEntries t.ct allSymbols, serialized t, window, perm, presentEntries_sorted t.ct,
      exec_ser_of_fits fits, congrArg Status.err serialized_status, written, ?_⟩
    rw [written, window, artifact, entriesBytes_injective.eq_iff]
    constructor
    · intro same
      exact same ▸ presentEntries_sorted t.ct
    · intro sorted
      exact perm.eq_of_pairwise (fun e d _ _ h h' => absurd h' (Nat.lt_asymm h))
        (presentEntries_sorted t.ct) sorted

end Sys2Proof.Machine
end

section
/-! R221, R232 and R235: the errors each command can raise, what an error leaves unchanged, and that
nothing stops the block. -/

namespace Sys2Proof.Machine

open Sys2Proof

/-! The errors of each command (R221) -/

/-- The errors a command can raise (R221). -/
def errorsOf : Instr → List Err
  | .freq => []
  | .build => [.capacityError]
  | .gen => []
  | .enc => [.unknownSymbolError, .capacityError]
  | .dect => [.corruptStreamError, .capacityError]
  | .decp => [.corruptStreamError, .capacityError]
  | .ser => [.capacityError]
  | .deser => [.formatError, .capacityError]

theorem unknownSymbolError_mem_errorsOf {i : Instr} : .unknownSymbolError ∈ errorsOf i ↔ i = .enc := by
  cases i <;> decide

theorem corruptStreamError_mem_errorsOf {i : Instr} :
    .corruptStreamError ∈ errorsOf i ↔ i = .dect ∨ i = .decp := by
  cases i <;> decide

theorem formatError_mem_errorsOf {i : Instr} : .formatError ∈ errorsOf i ↔ i = .deser := by
  cases i <;> decide

theorem illegalCommand_notMem_errorsOf (i : Instr) : .illegalCommand ∉ errorsOf i := by
  cases i <;> decide

/-! The errors of each loop -/

/-- BUILD's only error is that of the total (R137). -/
theorem buildNodes_error {ft : FreqTable} {e : Err} (h : buildNodes ft = .error e) :
    e = .capacityError := by
  by_cases fits : total ft < 2 ^ 32
  · obtain ⟨f, hf, -⟩ := buildNodes_grown fits
    cases hf.symm.trans h
  · cases (buildNodes_of_total_ge (Nat.not_lt.1 fits)).symm.trans h
    rfl

/-- ENC fails at a symbol without a code or at one whose code does not fit (R161, R162). -/
theorem encLoop_error {t : CodeTable} {cap : Nat} {xs : List Symbol} {out : Code} {e : Err}
    (h : encLoop t cap xs out = .error e) : e = .unknownSymbolError ∨ e = .capacityError := by
  induction xs generalizing out with
  | nil => cases h
  | cons x xs ih =>
    rw [encLoop] at h
    split at h
    · exact .inl (Except.error.inj h).symm
    · split at h
      · exact .inr (Except.error.inj h).symm
      · exact ih h

/-- A decoder fails by rejecting the stream or by emitting a symbol too many (R175, R181). -/
theorem ByteDecoder.run_error {σ : Type} {cap : Nat} {run : DecodeLoop σ} (decoder : ByteDecoder cap run)
    (atEnd : ∀ {q out e}, run [] q out = .error e → e = .corruptStreamError) {bs : List Byte} {q : σ}
    {out : List Symbol} {e : Err} (h : run bs q out = .error e) :
    e = .corruptStreamError ∨ e = .capacityError := by
  induction bs generalizing q out with
  | nil => exact .inl (atEnd h)
  | cons b bs ih =>
    rcases decoder.reads b q out with hr | ⟨q', hr⟩ | ⟨q', x, hr⟩
    · cases (hr bs).symm.trans h
      exact .inl rfl
    · exact ih (hr bs ▸ h)
    · rw [hr] at h
      cases he : emit cap out x with
      | error d =>
        obtain ⟨rfl, -⟩ := emit_error he
        rw [he] at h
        cases h
        exact .inr rfl
      | ok out' =>
        rw [he] at h
        exact ih h

theorem dectLoop_error {tree : TreeStore} {root cur : NodeIdx} {cap : Nat} {bs : List Byte}
    {out : List Symbol} {e : Err} (h : dectLoop tree root cap bs cur out = .error e) :
    e = .corruptStreamError ∨ e = .capacityError := by
  refine byteDecoder_dectLoop.run_error (fun {q out e} hend => ?_) h
  rw [dectLoop] at hend
  split at hend <;> cases hend
  rfl

theorem decpLoop_error {t : CodeTable} {cap : Nat} {bs : List Byte} {buf : Code} {out : List Symbol}
    {e : Err} (h : decpLoop t cap bs buf out = .error e) :
    e = .corruptStreamError ∨ e = .capacityError := by
  refine byteDecoder_decpLoop.run_error (fun {q out e} hend => ?_) h
  rw [decpLoop] at hend
  split at hend <;> cases hend
  rfl

/-- SER's only error is an artifact that does not fit (R192). -/
theorem serLoop_allSymbols_error {t : CodeTable} {cap : Nat} {e : Err}
    (h : serLoop t cap allSymbols [] = .error e) : e = .capacityError := by
  rw [serLoop_allSymbols] at h
  split at h <;> cases h
  rfl

/-- DESER fails at a malformed entry or at the 256th bit of a code (R194, R198). -/
theorem deserLoop_error {bs : List Byte} {pos : ParsePos} {t : CodeTable} {e : Err}
    (h : deserLoop bs pos t = .error e) : e = .formatError ∨ e = .capacityError := by
  induction bs generalizing pos t with
  | nil =>
    cases pos with
    | symbol => cases h
    | colon x | bits x c => exact .inl (Except.error.inj h).symm
  | cons b bs ih =>
    cases pos with
    | symbol => exact ih h
    | colon x =>
      rw [deserLoop] at h
      split at h
      · exact ih h
      · exact .inl (Except.error.inj h).symm
    | bits x c =>
      rw [deserLoop] at h
      cases hb : byteBit b with
      | some v =>
        simp only [hb] at h
        split at h
        · exact .inr (Except.error.inj h).symm
        · exact ih h
      | none =>
        simp only [hb] at h
        split_ifs at h
        · exact .inl (Except.error.inj h).symm
        · exact .inl (Except.error.inj h).symm
        · exact .inl (Except.error.inj h).symm
        · exact .inl (Except.error.inj h).symm
        · exact ih h

/-! How a command ends -/

/-- A `conclude` whose commit leaves ERR = OK ends so, or in one of the errors of its result (R232). -/
theorem conclude_ok_or_raises {α : Type} {r : Except Err α} {commit : α → State → State} {s t : State}
    {errs : List Err} (h : conclude r commit s = .next t) (raised : ∀ e, r = .error e → e ∈ errs)
    (committed : ∀ a, (commit a s).status.err = .ok) :
    t.status.err = .ok ∨ ∃ e ∈ errs, t = raise e s := by
  rcases conclude_next h with ⟨e, he, rfl⟩ | ⟨a, -, rfl⟩
  · exact .inr ⟨e, raised e he, rfl⟩
  · exact .inl (committed a)

/-- A command leaves ERR = OK, or raises one of its errors and does nothing else (R221, R232). -/
theorem exec_ok_or_raises {i : Instr} {s t : State} (h : exec i s = .next t) :
    t.status.err = .ok ∨ ∃ e ∈ errorsOf i, t = raise e s := by
  cases i with
  | freq =>
    rw [exec_freq] at h
    exact conclude_ok_or_raises h nofun fun _ => rfl
  | build =>
    refine conclude_ok_or_raises (exec_build s ▸ h) (fun e he => ?_) fun _ => rfl
    simpa [errorsOf] using buildNodes_error he
  | gen =>
    rw [exec_gen] at h
    exact conclude_ok_or_raises h nofun fun _ => rfl
  | enc =>
    refine conclude_ok_or_raises (exec_enc s ▸ h) (fun e he => ?_) fun _ => rfl
    simpa [errorsOf] using encLoop_error he
  | dect =>
    refine conclude_ok_or_raises (exec_dect s ▸ h) (fun e he => ?_) fun _ => rfl
    simpa [errorsOf] using dectLoop_error he
  | decp =>
    refine conclude_ok_or_raises (exec_decp s ▸ h) (fun e he => ?_) fun _ => rfl
    simpa [errorsOf] using decpLoop_error he
  | ser =>
    refine conclude_ok_or_raises (exec_ser s ▸ h) (fun e he => ?_) fun _ => rfl
    simpa [errorsOf] using serLoop_allSymbols_error he
  | deser =>
    refine conclude_ok_or_raises (exec_deser s ▸ h) (fun e he => ?_) fun _ => rfl
    simpa [errorsOf] using deserLoop_error he

/-- An error in STATUS is one that the command can raise (R221). -/
theorem mem_errorsOf_of_exec {i : Instr} {s t : State} {e : Err} (h : exec i s = .next t)
    (he : t.status.err = e) (real : e ≠ .ok) : e ∈ errorsOf i := by
  rcases exec_ok_or_raises h with hok | ⟨d, hd, rfl⟩
  · exact absurd (he.symm.trans hok) real
  · obtain rfl : d = e := he
    exact hd

/-! The obligations -/

/-- Settles O46: the errors a command can raise are those that its loop answers. -/
theorem eachErrorIsRaisedByItsCommands : Obligations.EachErrorIsRaisedByItsCommands := by
  refine ⟨by decide, fun i s t h => ⟨fun he => ?unknown, fun he => ?corrupt, fun he => ?format,
    fun he => ?illegal, fun hi => ?never⟩⟩
  case unknown => exact unknownSymbolError_mem_errorsOf.1 (mem_errorsOf_of_exec h he nofun)
  case corrupt => exact corruptStreamError_mem_errorsOf.1 (mem_errorsOf_of_exec h he nofun)
  case format => exact formatError_mem_errorsOf.1 (mem_errorsOf_of_exec h he nofun)
  case illegal => exact illegalCommand_notMem_errorsOf i (mem_errorsOf_of_exec h he nofun)
  case never =>
    rcases exec_ok_or_raises h with hok | ⟨e, he, -⟩
    · exact hok
    · rcases hi with rfl | rfl <;> cases he

/-- Settles O45: a command that does not leave ERR = OK has done nothing but raise its error. -/
theorem errorsChangeOnlyStatus : Obligations.ErrorsChangeOnlyStatus := by
  intro i s t h herr
  rcases exec_ok_or_raises h with hok | ⟨e, -, rfl⟩
  · exact absurd hok herr
  · exact ⟨rfl, rfl⟩

/-- Settles O51: a step is a host access, an illegal word or a command, and each answers. -/
theorem everyStepAnswersNext : Obligations.EveryStepAnswersNext := exists_step_eq_next

end Sys2Proof.Machine
end

section
/-! R253: the reset state is empty, and every command on it succeeds and leaves it so. -/

namespace Sys2Proof.Machine

open Sys2Proof

/-- A table with no present symbol has an empty artifact (R190). -/
theorem artifact_emptyCodes : artifact emptyCodes = [] :=
  artifact_of_lists (xs := []) ⟨List.Pairwise.nil, fun x => by simp⟩

/-- Without records every slot is Free (R136). -/
theorem storeOf_nil : storeOf [] = Vector.replicate 511 .free := by
  refine Vector.ext fun k hk => ?_
  rw [storeOf, tabulate_getElem, List.getD_nil, Vector.getElem_replicate]

/-- The empty table seeds nothing (R132). -/
theorem presentSymbols_eq_nil {t : FreqTable} (empty : ∀ x, countOf t x = 0) : presentSymbols t = [] :=
  List.eq_nil_iff_forall_not_mem.2 fun x hx => (mem_presentSymbols t x).1 hx (empty x)

/-- On the reset state the result a command commits is the one that stands there (R253). -/
theorem exec_reset (i : Instr) : exec i State.reset =
    .next { State.reset with status := { err := .ok, warnEmpty := decide (i = .freq) } } := by
  have window (b : Buffer) : State.reset.window b = [] := window_eq_nil (reset_len b)
  cases i with
  | freq =>
    rw [exec_freq_eq_next, window]
    rfl
  | build =>
    rw [exec_build_of_buildNodes (buildNodes_empty (presentSymbols_eq_nil countOf_zero)), commitTree,
      ← storeOf, storeOf_nil]
    rfl
  | gen =>
    have empty : genCodes State.reset.tree State.reset.root = State.reset.ct := genCodes_nil _
    rw [exec_gen_eq_next, empty]
    rfl
  | enc => exact encOfEmptyInput State.reset rfl
  | dect => exact (dectWithoutTree State.reset rfl).1 rfl
  | decp =>
    have empty : decpLoop State.reset.ct State.reset.params.symCap (State.reset.window .bit) [] [] =
        .ok [] := by
      rw [window]
      exact decpLoop_end_of_nil []
    exact exec_decp_of_ok empty
  | ser =>
    have empty : artifact State.reset.ct = [] := artifact_emptyCodes
    rw [exec_ser_of_fits (by simp [empty]), serialized, empty]
    rfl
  | deser =>
    refine exec_deser_of_ok (u := emptyCodes) ?_
    rw [window]
    rfl

/-- Settles O4: each command commits, on the reset state, the empty result that stands there. -/
theorem commandsSucceedAfterReset : Obligations.CommandsSucceedAfterReset :=
  fun i => ⟨_, exec_reset i, rfl, decide_eq_true_iff, rfl⟩

end Sys2Proof.Machine
end

section
/-! R22, R43, R90 to R92, R226 and R250: the command words and the step that reads one, and the values and
invariants of reset. -/

namespace Sys2Proof.Machine

open Sys2Proof

/-! The command words (R90, R91) -/

/-- The statement of every command's word, gathered from the commands' own. -/
theorem wordShape (i : Instr) : Laws.WordShape.Statement i :=
  match i with
  | .freq => Laws.WordShape.freq
  | .build => Laws.WordShape.build
  | .gen => Laws.WordShape.gen
  | .enc => Laws.WordShape.enc
  | .dect => Laws.WordShape.dect
  | .decp => Laws.WordShape.decp
  | .ser => Laws.WordShape.ser
  | .deser => Laws.WordShape.deser

@[simp] theorem decode_encode (i : Instr) : decode (encode i) = .ok i := by
  obtain ⟨-, -, -, -, -, decodes, -⟩ := wordShape i
  exact decodes

theorem encode_toNat (i : Instr) : (encode i).toNat = (encodeOp i).toNat := by
  simp [-Nat.reduceAdd, encode]

/-- The command words are among the numbers 1 to 8 (R91). -/
theorem encode_toNat_bounds (i : Instr) : 1 ≤ (encode i).toNat ∧ (encode i).toNat ≤ 8 := by
  obtain ⟨-, -, -, least, greatest, -, -⟩ := wordShape i
  rw [encode_toNat]
  exact ⟨least, greatest⟩

/-- A 32-bit number outside 1 to 8 is no command's word (R92). -/
theorem exists_decode_eq_error {v : Nat} (hv : v < 2 ^ 32) (out : v = 0 ∨ 9 ≤ v) :
    ∃ why, decode (BitVec.ofNat 32 v) = .error why := by
  cases hd : decode (BitVec.ofNat 32 v) with
  | error why => exact ⟨why, rfl⟩
  | ok i =>
    have word : v = (encode i).toNat := by
      rw [← eq_encode_of_decode hd, BitVec.toNat_ofNat, Nat.mod_eq_of_lt hv]
    obtain ⟨least, greatest⟩ := encode_toNat_bounds i
    omega

/-- Settles O8: the decoder reads back every encoding, and accepts no other word. -/
theorem decodeAndEncodeAgree : Obligations.DecodeAndEncodeAgree := fun _ i =>
  ⟨eq_encode_of_decode, fun word => word ▸ decode_encode i⟩

/-- Settles O7: the words of the commands are their encodings; the refused ones are evaluated. -/
theorem tableWordsDecode : Obligations.TableWordsDecode :=
  ⟨decode_encode .freq, decode_encode .build, decode_encode .gen, decode_encode .enc,
    decode_encode .dect, decode_encode .decp, decode_encode .ser, decode_encode .deser,
    by decide, by decide, by decide, by decide, by decide, by decide⟩

/-! The step of a CMD write and of RESET (R22, R226, R250) -/

section

variable {s : State} {rest : List Transaction}

theorem step_illegal {v : Nat} {why : IllegalWord} (hs : s.script = .hwr 0 0 v :: rest) (hv : v < 2 ^ 32)
    (hd : decode (BitVec.ofNat 32 v) = .error why) :
    step s = .next (illegalCommand (takeTransaction rest s)) := by
  simp only [step, hs, commandWord, if_pos hv, hd]

theorem step_reset (hs : s.script = .reset :: rest) :
    step s = .next (respond .done (resetBlock (takeTransaction rest s))) :=
  step_access hs fun ⟨_, _, write⟩ => nomatch write

end

/-- Settles O5: the step completes the command its word encodes, and every command answers. -/
theorem stepRunsDecodedCommand : Obligations.StepRunsDecodedCommand := by
  intro s rest v i hs hv hd _
  obtain ⟨t, ht⟩ := exists_exec_eq_next i (takeTransaction rest s)
  refine ⟨t, ht, ?_⟩
  rw [step_command hs hv hd, ht, complete_next, respond]

/-- Settles O6: a number outside 1 to 8 does not decode, and the step then raises IllegalCommand. -/
theorem illegalWordOnlySetsStatus : Obligations.IllegalWordOnlySetsStatus := by
  intro s rest v hs hv out
  obtain ⟨why, hd⟩ := exists_decode_eq_error hv out
  exact ⟨Status.failure .illegalCommand, rfl, step_illegal hs hv hd⟩

/-- Settles O2: the step of RESET is `resetBlock`, whose buffers list nothing. -/
theorem resetTransactionRestoresResetValues : Obligations.ResetTransactionRestoresResetValues := by
  intro s rest hs
  have unwritten (b : Buffer) (i : Nat) :
      ((respond .done (resetBlock (takeTransaction rest s))).buffer b).read? i = none := by
    cases b <;> rfl
  exact ⟨_, step_reset hs, rfl, rfl, rfl, rfl, rfl, rfl, rfl, rfl, rfl, unwritten, rfl, rfl, rfl⟩

/-! The reset state (R34, R36, R43, R44) -/

/-- Settles O1: the registers are read off, and each table is uniformly empty. -/
theorem resetLeavesEmptyValues : Obligations.ResetLeavesEmptyValues := by
  have noTree (k : Nat) (hk : k < 511) : slot State.reset.tree k = .free := by
    simp [State.reset, slot, hk]
  exact ⟨rfl, rfl, rfl, rfl, rfl, rfl, rfl, countOf_zero, noTree, codeOf_emptyCodes⟩

/-- Settles O3: nothing is written, there is no tree, and no code is present. -/
theorem resetMeetsInvariants : Obligations.ResetMeetsInvariants where
  ranges := .of_unwritten (by decide) reset_len reset_buffer
  treeShape := treeShape_reset
  codes := codesHold_emptyCodes

end Sys2Proof.Machine
end
